-- ==== Sys2Proof/Word.lean ====
section
/-! DEFINITION. The block's value types (00_scope.md R7) and the three word formats
(30_encoding.md R97, R98, R99). -/

namespace Sys2Proof

/-- A byte or character cell (10_state.md R22). -/
abbrev Byte := BitVec 8

/-- An index into the alphabet (00_scope.md R7). -/
abbrev Idx := BitVec 6

/-- A register as the host reads and writes it, REGW = 32 bits (10_state.md R30). -/
abbrev HostWord := BitVec 32

/-- One of the two hardware units (00_scope.md R2). -/
inductive UnitId where
  | enc
  | dec
deriving DecidableEq, Repr, Inhabited

/-- The run state `U.ST` (10_state.md R27). -/
inductive RunState where
  | idle
  | busy
  | done
deriving DecidableEq, Repr, Inhabited

/-- `DEC.PHASE` (10_state.md R28). -/
inductive Phase where
  | lenchk
  | validate
  | decode
deriving DecidableEq, Repr, Inhabited

/-- `DEC.CAUSE` (60_exceptions.md R221). -/
inductive Cause where
  | none
  | badLen
  | badChar
  | badPad
  | nonCanon
deriving DecidableEq, Repr, Inhabited

/-- A word the block runs, in the format that carries it: a host transaction, the encoder's
group descriptor, or the decoder's quad class word. -/
inductive Encoded where
  | htw (w : BitVec 64)
  | egd (w : BitVec 26)
  | qcw (w : BitVec 9)
deriving DecidableEq, Repr

end Sys2Proof
end

