-- ==== Sys2Proof/Config.lean ====
section
/-! DEFINITION. What an implementation fixes, and the free values the spec leaves open. -/

namespace Sys2Proof.Config

/-- The legal values of the implementation parameter LENW (00_scope.md R5). -/
abbrev legalLenw (lenw : Nat) : Prop := 2 ≤ lenw ∧ lenw ≤ 27

/-- The LENW that `State.reset` carries. DESIGN CHOICE (log entry 1): the spec leaves LENW open,
its own vectors use 8. Every statement is over all legal values. -/
def resetLenw : Nat := 8

/-- What a host read returns where the spec says the value is unspecified: any 32-bit value,
fresh at every read (93_implementation_defined.md U2, U3). Free value, log entry 7. -/
opaque freeRead : Nat → HostWord

/-- ENC.GRP after a reset event (10_state.md R45: unspecified). Free value, log entry 7. -/
opaque freeGrp : Nat → BitVec 24

/-- ENC.CNT after a reset event (10_state.md R45: unspecified). Free value, log entry 7. -/
opaque freeCnt : Nat → BitVec 2

/-- DEC.QUAD after a reset event (10_state.md R45: unspecified). Free value, log entry 7. -/
opaque freeQuad : Nat → BitVec 32

/-- DEC.KLS after a reset event (10_state.md R45: unspecified). Free value, log entry 7. -/
opaque freeKls : Nat → BitVec 8

/-- DEC.FIN after a reset event (10_state.md R45: unspecified). Free value, log entry 7. -/
opaque freeFin : Nat → BitVec 1

/-- DEC.PHASE after a reset event (10_state.md R45: unspecified). Free value, log entry 7. -/
opaque freePhase : Nat → Phase

end Sys2Proof.Config
end

