-- ==== Sys2Proof/Syntax.lean ====
section
/-! DEFINITION. The instructions: one constructor per row of spec/opcode_table.json. -/

namespace Sys2Proof

/-- The class of a character as QCW9 carries it (30_encoding.md R98): data, pad or invalid.
The fourth code, `0b11`, is never produced and has no constructor (93_implementation_defined.md U5). -/
inductive Kls where
  | D
  | P
  | X
deriving DecidableEq, Repr, Inhabited

/-- What the block can be told to do: the thirteen host transactions (30_encoding.md R100), the
three group operations (R97) and the four quad operations (R98).

Bits the spec says are ignored are not operands. The characters of a quad operation are not in
its word: they stand in DEC.QUAD ("the index values `vj` travel beside the word", R98). -/
inductive Instr where
  /-- ENC.START, 42_sequencer_and_host.md R201. -/
  | encStart
  /-- DEC.START, R202. -/
  | decStart
  /-- CTRL.NOP, R204. -/
  | ctrlNop (u : UnitId)
  /-- WR.ILEN, R203. -/
  | wrIlen (u : UnitId) (v : HostWord)
  /-- WR.IBUF, R205. -/
  | wrIbuf (u : UnitId) (a : BitVec 28) (v : HostWord)
  /-- RD.CTRL, R214. -/
  | rdCtrl (u : UnitId)
  /-- RD.STATUS, R208. -/
  | rdStatus (u : UnitId)
  /-- RD.ILEN, R209. -/
  | rdIlen (u : UnitId)
  /-- RD.OLEN, R210. -/
  | rdOlen (u : UnitId)
  /-- RD.GP, R211. -/
  | rdGp (u : UnitId)
  /-- RD.IBUF, R206. -/
  | rdIbuf (u : UnitId) (a : BitVec 28)
  /-- RD.OBUF, R207. -/
  | rdObuf (u : UnitId) (a : BitVec 28)
  /-- HT.RSVD, R215: any word no other row matches, kept whole. -/
  | htRsvd (w : BitVec 64)
  /-- ENC.G3, 40_encoder.md R121. -/
  | encG3 (b0 b1 b2 : Byte)
  /-- ENC.G2, R122. -/
  | encG2 (b0 b1 : Byte)
  /-- ENC.G1, R123. -/
  | encG1 (b0 : Byte)
  /-- DEC.Q4, 41_decoder.md R151, with FIN. -/
  | decQ4 (fin : Bool)
  /-- DEC.Q3, R152. -/
  | decQ3
  /-- DEC.Q2, R153. -/
  | decQ2
  /-- DEC.REJ, R154, with FIN and the four classes. -/
  | decRej (fin : Bool) (k0 k1 k2 k3 : Kls)
deriving DecidableEq, Repr

end Sys2Proof
end

