-- ==== Sys2Proof/Decode.lean ====
section
/-! DEFINITION. From words to instructions and back (30_encoding.md R97 to R100, R104), with the
opcode table of spec/opcode_table.json as data. -/

namespace Sys2Proof

/-! ## Sizes of the buffers (00_scope.md R5, 20_memory.md R60) -/

/-- Cells of `U.IBUF`: `2^LENW` in ENC, `2^(LENW+1)` in DEC. -/
def ibufCells (lenw : Nat) : UnitId → Nat
  | .enc => 2 ^ lenw
  | .dec => 2 ^ (lenw + 1)

/-- Cells of `U.OBUF`: `2^(LENW+1)` in both units. -/
def obufCells (lenw : Nat) : Nat := 2 ^ (lenw + 1)

/-! ## Fields of the host transaction word HTW64 (R99) -/

def htwRw (w : BitVec 64) : BitVec 1 := w.extractLsb' 63 1
def htwUnit (w : BitVec 64) : BitVec 1 := w.extractLsb' 62 1
def htwSpace (w : BitVec 64) : BitVec 2 := w.extractLsb' 60 2
def htwAddr (w : BitVec 64) : BitVec 28 := w.extractLsb' 32 28
def htwData (w : BitVec 64) : BitVec 32 := w.extractLsb' 0 32

/-- `unit`: 0 = ENC, 1 = DEC. -/
def unitOfBit (b : BitVec 1) : UnitId := if b = 0 then .enc else .dec

def bitOfUnit : UnitId → BitVec 1
  | .enc => 0
  | .dec => 1

/-- The word with these fields. -/
def mkHtw (rw unit : BitVec 1) (space : BitVec 2) (addr : BitVec 28) (data : BitVec 32) :
    BitVec 64 :=
  rw ++ unit ++ space ++ addr ++ data

/-! ## Class codes of QCW9 (R98) -/

def klsCode : Kls → BitVec 2
  | .D => 0b00
  | .P => 0b01
  | .X => 0b10

/-- `0b11` is no class code. -/
def klsOfCode (k : BitVec 2) : Option Kls :=
  if k = 0b00 then some .D else if k = 0b01 then some .P else if k = 0b10 then some .X else none

/-! ## Decoding -/

/-- Why a word is no instruction. Only the two internal selector formats have such words, and the
sequencer forms none of them (R104, 93_implementation_defined.md U5). -/
inductive DecodeReject where
  /-- An EGD26 word with `cnt = 0b00`. -/
  | groupCountZero
  /-- A QCW9 word that holds the class code `0b11`. -/
  | classCodeReserved
deriving DecidableEq, Repr

/-- A write, `rw = 1`. -/
def decodeWrite (lenw : Nat) (w : BitVec 64) : Instr :=
  if htwSpace w = 0b00 then
    if htwAddr w = 0 then
      if (htwData w).getLsbD 0 then
        match unitOfBit (htwUnit w) with
        | .enc => .encStart
        | .dec => .decStart
      else .ctrlNop (unitOfBit (htwUnit w))
    else if htwAddr w = 2 then .wrIlen (unitOfBit (htwUnit w)) (htwData w)
    else .htRsvd w
  else if htwSpace w = 0b01 then
    if (htwAddr w).toNat < ibufCells lenw (unitOfBit (htwUnit w)) then
      .wrIbuf (unitOfBit (htwUnit w)) (htwAddr w) (htwData w)
    else .htRsvd w
  else .htRsvd w

/-- A read, `rw = 0`. -/
def decodeRead (lenw : Nat) (w : BitVec 64) : Instr :=
  if htwSpace w = 0b00 then
    if htwAddr w = 0 then .rdCtrl (unitOfBit (htwUnit w))
    else if htwAddr w = 1 then .rdStatus (unitOfBit (htwUnit w))
    else if htwAddr w = 2 then .rdIlen (unitOfBit (htwUnit w))
    else if htwAddr w = 3 then .rdOlen (unitOfBit (htwUnit w))
    else if htwAddr w = 4 then .rdGp (unitOfBit (htwUnit w))
    else .htRsvd w
  else if htwSpace w = 0b01 then
    if (htwAddr w).toNat < ibufCells lenw (unitOfBit (htwUnit w)) then
      .rdIbuf (unitOfBit (htwUnit w)) (htwAddr w)
    else .htRsvd w
  else if htwSpace w = 0b10 then
    if (htwAddr w).toNat < obufCells lenw then .rdObuf (unitOfBit (htwUnit w)) (htwAddr w)
    else .htRsvd w
  else .htRsvd w

/-- Every HTW64 word is a transaction (R100): what no other row matches is HT.RSVD. -/
def decodeHtw (lenw : Nat) (w : BitVec 64) : Instr :=
  if htwRw w = 1 then decodeWrite lenw w else decodeRead lenw w

/-- The encoder's selection by `cnt` (R97). -/
def decodeEgd (w : BitVec 26) : Except DecodeReject Instr :=
  let cnt := w.extractLsb' 24 2
  let b0 := w.extractLsb' 16 8
  let b1 := w.extractLsb' 8 8
  let b2 := w.extractLsb' 0 8
  if cnt = 0b11 then .ok (.encG3 b0 b1 b2)
  else if cnt = 0b10 then .ok (.encG2 b0 b1)
  else if cnt = 0b01 then .ok (.encG1 b0)
  else .error .groupCountZero

/-- The decoder's selection by `fin` and the classes, first match wins (R98). -/
def selectQuadOp (fin : Bool) (k0 k1 k2 k3 : Kls) : Instr :=
  match k0, k1, k2, k3, fin with
  | .D, .D, .D, .D, fin => .decQ4 fin
  | .D, .D, .D, .P, true => .decQ3
  | .D, .D, .P, .P, true => .decQ2
  | k0, k1, k2, k3, fin => .decRej fin k0 k1 k2 k3

def decodeQcw (w : BitVec 9) : Except DecodeReject Instr :=
  match klsOfCode (w.extractLsb' 6 2), klsOfCode (w.extractLsb' 4 2),
      klsOfCode (w.extractLsb' 2 2), klsOfCode (w.extractLsb' 0 2) with
  | some k0, some k1, some k2, some k3 => .ok (selectQuadOp (w.getLsbD 8) k0 k1 k2 k3)
  | _, _, _, _ => .error .classCodeReserved

/-- The decoder, total on every word of the three formats. `lenw` enters only in the range
condition of the three buffer rows (R100). -/
def decode (lenw : Nat) : Encoded → Except DecodeReject Instr
  | .htw w => .ok (decodeHtw lenw w)
  | .egd w => decodeEgd w
  | .qcw w => decodeQcw w

/-! ## Encoding -/

def mkEgd (cnt : BitVec 2) (b0 b1 b2 : Byte) : BitVec 26 := cnt ++ b0 ++ b1 ++ b2

def mkQcw (fin : Bool) (k0 k1 k2 k3 : Kls) : BitVec 9 :=
  BitVec.ofBool fin ++ klsCode k0 ++ klsCode k1 ++ klsCode k2 ++ klsCode k3

/-- The encoder. Ignored fields are written 0 (R99: "ignored (write it as 0) in a read"; R97: the
grouper loads 0). -/
def encode : Instr → Encoded
  | .encStart => .htw (mkHtw 1 0 0b00 0 1)
  | .decStart => .htw (mkHtw 1 1 0b00 0 1)
  | .ctrlNop u => .htw (mkHtw 1 (bitOfUnit u) 0b00 0 0)
  | .wrIlen u v => .htw (mkHtw 1 (bitOfUnit u) 0b00 2 v)
  | .wrIbuf u a v => .htw (mkHtw 1 (bitOfUnit u) 0b01 a v)
  | .rdCtrl u => .htw (mkHtw 0 (bitOfUnit u) 0b00 0 0)
  | .rdStatus u => .htw (mkHtw 0 (bitOfUnit u) 0b00 1 0)
  | .rdIlen u => .htw (mkHtw 0 (bitOfUnit u) 0b00 2 0)
  | .rdOlen u => .htw (mkHtw 0 (bitOfUnit u) 0b00 3 0)
  | .rdGp u => .htw (mkHtw 0 (bitOfUnit u) 0b00 4 0)
  | .rdIbuf u a => .htw (mkHtw 0 (bitOfUnit u) 0b01 a 0)
  | .rdObuf u a => .htw (mkHtw 0 (bitOfUnit u) 0b10 a 0)
  | .htRsvd w => .htw w
  | .encG3 b0 b1 b2 => .egd (mkEgd 0b11 b0 b1 b2)
  | .encG2 b0 b1 => .egd (mkEgd 0b10 b0 b1 0)
  | .encG1 b0 => .egd (mkEgd 0b01 b0 0 0)
  | .decQ4 fin => .qcw (mkQcw fin .D .D .D .D)
  | .decQ3 => .qcw (mkQcw true .D .D .D .P)
  | .decQ2 => .qcw (mkQcw true .D .D .P .P)
  | .decRej fin k0 k1 k2 k3 => .qcw (mkQcw fin k0 k1 k2 k3)

/-! ## The opcode table as data -/

/-- The rows of spec/opcode_table.json. -/
inductive Row where
  | encStart | decStart | ctrlNop | wrIlen | wrIbuf | rdCtrl | rdStatus | rdIlen | rdOlen | rdGp
  | rdIbuf | rdObuf | htRsvd | encG3 | encG2 | encG1 | decQ4 | decQ3 | decQ2 | decRej
deriving DecidableEq, Repr

/-- The row an instruction belongs to. -/
def Instr.row : Instr → Row
  | .encStart => .encStart
  | .decStart => .decStart
  | .ctrlNop _ => .ctrlNop
  | .wrIlen _ _ => .wrIlen
  | .wrIbuf _ _ _ => .wrIbuf
  | .rdCtrl _ => .rdCtrl
  | .rdStatus _ => .rdStatus
  | .rdIlen _ => .rdIlen
  | .rdOlen _ => .rdOlen
  | .rdGp _ => .rdGp
  | .rdIbuf _ _ => .rdIbuf
  | .rdObuf _ _ => .rdObuf
  | .htRsvd _ => .htRsvd
  | .encG3 _ _ _ => .encG3
  | .encG2 _ _ => .encG2
  | .encG1 _ => .encG1
  | .decQ4 _ => .decQ4
  | .decQ3 => .decQ3
  | .decQ2 => .decQ2
  | .decRej _ _ _ _ _ => .decRej

/-- The HTW64 rows in the table's order: row, match, mask. -/
def htwTable : List (Row × BitVec 64 × BitVec 64) :=
  [ (.encStart, 0x8000000000000001, 0xFFFFFFFF00000001),
    (.decStart, 0xC000000000000001, 0xFFFFFFFF00000001),
    (.ctrlNop, 0x8000000000000000, 0xBFFFFFFF00000001),
    (.wrIlen, 0x8000000200000000, 0xBFFFFFFF00000000),
    (.wrIbuf, 0x9000000000000000, 0xB000000000000000),
    (.rdCtrl, 0x0000000000000000, 0xBFFFFFFF00000000),
    (.rdStatus, 0x0000000100000000, 0xBFFFFFFF00000000),
    (.rdIlen, 0x0000000200000000, 0xBFFFFFFF00000000),
    (.rdOlen, 0x0000000300000000, 0xBFFFFFFF00000000),
    (.rdGp, 0x0000000400000000, 0xBFFFFFFF00000000),
    (.rdIbuf, 0x1000000000000000, 0xB000000000000000),
    (.rdObuf, 0x2000000000000000, 0xB000000000000000),
    (.htRsvd, 0x0000000000000000, 0x0000000000000000) ]

/-- The EGD26 rows. -/
def egdTable : List (Row × BitVec 26 × BitVec 26) :=
  [ (.encG3, 0x3000000, 0x3000000), (.encG2, 0x2000000, 0x3000000),
    (.encG1, 0x1000000, 0x3000000) ]

/-- The QCW9 rows in the table's order. -/
def qcwTable : List (Row × BitVec 9 × BitVec 9) :=
  [ (.decQ4, 0x000, 0x0FF), (.decQ3, 0x101, 0x1FF), (.decQ2, 0x105, 0x1FF),
    (.decRej, 0x000, 0x000) ]

/-- The range condition that stands beside the mask of the three buffer rows ("addr_constraint"
in the table); every other row has none. -/
def rowInRange (lenw : Nat) (r : Row) (w : BitVec 64) : Bool :=
  match r with
  | .wrIbuf | .rdIbuf => decide ((htwAddr w).toNat < ibufCells lenw (unitOfBit (htwUnit w)))
  | .rdObuf => decide ((htwAddr w).toNat < obufCells lenw)
  | _ => true

/-- The first row of a table whose `(word & mask) = match` (30_encoding.md, opening text). -/
def firstRow {n : Nat} (table : List (Row × BitVec n × BitVec n)) (ok : Row → Bool)
    (w : BitVec n) : Option Row :=
  (table.find? fun r => decide (w &&& r.2.2 = r.2.1) && ok r.1).map (·.1)

/-- The row the table gives a word. -/
def tableRow (lenw : Nat) : Encoded → Option Row
  | .htw w => firstRow htwTable (fun r => rowInRange lenw r w) w
  | .egd w => firstRow egdTable (fun _ => true) w
  | .qcw w => firstRow qcwTable (fun _ => true) w

/-! ## The host's reading of one table word -/

/-- The word of a table row of `nbits` bits: QCW9 rows have at most 16 bits in whole bytes, EGD26
rows 32, HTW64 rows 64. `none` if the number has a bit the format lacks. -/
def encodedOfTable (nbits w : Nat) : Option Encoded :=
  if nbits ≤ 16 then
    if w < 2 ^ 9 then some (.qcw (BitVec.ofNat 9 w)) else none
  else if nbits ≤ 32 then
    if w < 2 ^ 26 then some (.egd (BitVec.ofNat 26 w)) else none
  else if w < 2 ^ 64 then some (.htw (BitVec.ofNat 64 w))
  else none

/-- The instruction the decoder reads from a table word, at the LENW that `State.reset` carries. -/
def decodeTableWord (nbits w : Nat) : Option Instr :=
  match encodedOfTable nbits w with
  | none => none
  | some e =>
    match decode Config.resetLenw e with
    | .ok i => some i
    | .error _ => none

end Sys2Proof
end

