-- ==== Sys2Proof/Machine/State.lean ====
section
/-! DEFINITION. The state of the block (10_state.md R20, R45), the reasons a step can stop, and
the state right after reset. -/

namespace Sys2Proof.Machine

/-- A buffer: its cells that hold a value, addresses strictly rising. An address that is not
listed holds no value (10_state.md R46). -/
abbrev Memory := List Host.Cell

/-- The canonical form: addresses strictly rising, so each is listed once. An unlisted address
reads as no value, so no entry can repeat that. -/
abbrev Memory.wf (m : Memory) : Prop := m.Pairwise fun c d => c.1 < d.1

/-- Unit ENC (10_state.md R20). The lengths and the pointer are counts; their widths are the
invariant `EncWidths` of Safety.lean (20_memory.md R71, 40_encoder.md R133: no computation of the
unit leaves them). -/
structure EncUnit where
  /-- Input buffer, R23. -/
  ibuf : Memory
  /-- Output buffer, R23. -/
  obuf : Memory
  /-- Input length, LENW bits, R24. -/
  ilen : Nat
  /-- Output length, LENW+1 bits, R25. -/
  olen : Nat
  /-- Group pointer, LENW+1 bits, R26. -/
  gp : Nat
  /-- Run state, R27. -/
  st : RunState
  /-- The group being mapped, R37. -/
  grp : BitVec 24
  /-- How many message bytes the group holds, R37. -/
  cnt : BitVec 2
deriving DecidableEq, Repr

/-- Unit DEC (10_state.md R20). -/
structure DecUnit where
  /-- Input buffer, R23. -/
  ibuf : Memory
  /-- Output buffer, R23. -/
  obuf : Memory
  /-- Input length, LENW+1 bits, R24. -/
  ilen : Nat
  /-- Output length, LENW+1 bits, R25. -/
  olen : Nat
  /-- Group pointer, LENW+1 bits, R26. -/
  gp : Nat
  /-- Run state, R27. -/
  st : RunState
  /-- R28. -/
  phase : Phase
  /-- 1 exactly when the last operation ended in a FormatError, R29. -/
  err : Bool
  /-- R29, codes in 60_exceptions.md R221. -/
  cause : Cause
  /-- The four characters of the quad, R38. -/
  quad : BitVec 32
  /-- Their four class codes, R38. -/
  kls : BitVec 8
  /-- This is the final quad, R38. -/
  fin : BitVec 1
deriving DecidableEq, Repr

/-- One coming transition of the block (42_sequencer_and_host.md R191): a host transaction, a
turn of a unit, or a reset (70_reset_and_hazards.md R250). -/
inductive Event where
  | host (w : BitVec 64)
  | encTurn
  | decTurn
  | reset
deriving DecidableEq, Repr

/-- The whole state. `enc` and `dec` are the block's (10_state.md R20); the other fields are the
model's own: see INVENTORY.md. -/
structure State where
  /-- The implementation parameter LENW (00_scope.md R5), which no transition changes. -/
  lenw : Nat
  /-- The block has been reset since power-up (70_reset_and_hazards.md R252). -/
  ready : Bool
  enc : EncUnit
  dec : DecUnit
  /-- What the latest host transaction returned: a value for a read, nothing for a write
  (42_sequencer_and_host.md R200). -/
  resp : Option HostWord
  /-- The coming transitions, oldest first (42_sequencer_and_host.md R191). -/
  inbox : List Event
  /-- The index of the next free value. -/
  free : Nat
deriving DecidableEq, Repr

/-- Why the machine stops with a fault. -/
inductive Fault where
  /-- Raised by ENC.STEP, DEC.VSTEP and DEC.DSTEP, in the grouper's read: cell `a` of the unit's
  IBUF holds no value, so the step has no specified result (10_state.md R46,
  93_implementation_defined.md U3, 95_test_vectors.md P7). Safe: the model stops. -/
  | cellHoldsNoValue (u : UnitId) (a : Nat)
deriving DecidableEq, Repr

/-- Why an instruction has no meaning in a state. -/
inductive Refusal where
  /-- Raised by the arm of an instruction that has no meaning yet. Safe. -/
  | notModelled (mnemonic : String)
  /-- Raised by a group or quad operation in a state in which the sequencer does not issue it
  (30_encoding.md R107: "a host cannot issue them, the sequencer does"). Safe; no run meets it. -/
  | notIssued
  /-- Raised by a quad operation that rejects in the DECODE phase, which
  42_sequencer_and_host.md R197 says cannot happen. Safe; no run meets it. -/
  | rejectWhileDecoding
  /-- Raised by `step` on a selector word that is no instruction (30_encoding.md R104,
  93_implementation_defined.md U5). Safe; no run meets it. -/
  | reservedSelector (r : DecodeReject)
  /-- Raised by `step` on any transition but a reset before the first reset
  (70_reset_and_hazards.md R252, 93_implementation_defined.md U11). Safe. -/
  | beforeFirstReset
deriving DecidableEq, Repr

/-- What a transition answers. -/
abbrev Result := Host.Outcome State Fault Refusal

/-- ENC right after the first reset (10_state.md R45). GRP and CNT: DESIGN CHOICE, log entry 4. -/
def EncUnit.reset : EncUnit :=
  { ibuf := [], obuf := [], ilen := 0, olen := 0, gp := 0, st := .idle, grp := 0, cnt := 0 }

/-- DEC right after the first reset (10_state.md R45). PHASE, QUAD, KLS and FIN: DESIGN CHOICE,
log entry 4. -/
def DecUnit.reset : DecUnit :=
  { ibuf := [], obuf := [], ilen := 0, olen := 0, gp := 0, st := .idle, phase := .lenchk,
    err := false, cause := .none, quad := 0, kls := 0, fin := 0 }

/-- The machine right after the first reset (70_reset_and_hazards.md R250, R252, R253). -/
def State.reset : State :=
  { lenw := Config.resetLenw, ready := true, enc := EncUnit.reset, dec := DecUnit.reset,
    resp := none, inbox := [], free := 0 }

end Sys2Proof.Machine
end

