-- ==== Sys2Proof/Machine/Ops.lean ====
section
/-! DEFINITION. The shared operations over buffers and registers: reading and writing cells, the
host's view of a unit, answering a transaction, starting a unit, and the one exception entry. -/

namespace Sys2Proof.Machine

/-! ## Buffers (20_memory.md R61, R62) -/

/-- The value of cell `a`; `none` where it holds no value. -/
def Memory.read (m : Memory) (a : Nat) : Option Byte :=
  match m with
  | [] => none
  | c :: m => if c.1 = a then some c.2 else Memory.read m a

/-- Cell `a` written with `v`, in canonical form. -/
def Memory.write (m : Memory) (a : Nat) (v : Byte) : Memory :=
  match m with
  | [] => [(a, v)]
  | c :: m =>
    if c.1 < a then c :: Memory.write m a v
    else if c.1 = a then (a, v) :: m
    else (a, v) :: c :: m

/-- `MemRead(S, a, n)` (00_scope.md R8) as the list of its cells, lowest address first: the
error is the first cell that holds no value. -/
def Memory.readCells (m : Memory) (a : Nat) : Nat → Except Nat (List Byte)
  | 0 => .ok []
  | n + 1 =>
    match m.read a with
    | none => .error a
    | some b =>
      match Memory.readCells m (a + 1) n with
      | .error e => .error e
      | .ok bs => .ok (b :: bs)

/-- `MemWrite(S, a, n, v)` (00_scope.md R8), the value given as its cells, lowest address first. -/
def Memory.writeCells (m : Memory) (a : Nat) : List Byte → Memory
  | [] => m
  | b :: bs => Memory.writeCells (m.write a b) (a + 1) bs

/-! ## The state, unit by unit -/

def stOf (u : UnitId) (s : State) : RunState :=
  match u with
  | .enc => s.enc.st
  | .dec => s.dec.st

def ilenOf (u : UnitId) (s : State) : Nat :=
  match u with
  | .enc => s.enc.ilen
  | .dec => s.dec.ilen

def olenOf (u : UnitId) (s : State) : Nat :=
  match u with
  | .enc => s.enc.olen
  | .dec => s.dec.olen

def gpOf (u : UnitId) (s : State) : Nat :=
  match u with
  | .enc => s.enc.gp
  | .dec => s.dec.gp

def ibufOf (u : UnitId) (s : State) : Memory :=
  match u with
  | .enc => s.enc.ibuf
  | .dec => s.dec.ibuf

def obufOf (u : UnitId) (s : State) : Memory :=
  match u with
  | .enc => s.enc.obuf
  | .dec => s.dec.obuf

def State.withEnc (s : State) (e : EncUnit) : State := { s with enc := e }
def State.withDec (s : State) (d : DecUnit) : State := { s with dec := d }
def State.withInbox (s : State) (es : List Event) : State := { s with inbox := es }
def State.withResp (s : State) (r : Option HostWord) : State := { s with resp := r }

def setIlen (u : UnitId) (n : Nat) (s : State) : State :=
  match u with
  | .enc => s.withEnc { s.enc with ilen := n }
  | .dec => s.withDec { s.dec with ilen := n }

def setIbuf (u : UnitId) (m : Memory) (s : State) : State :=
  match u with
  | .enc => s.withEnc { s.enc with ibuf := m }
  | .dec => s.withDec { s.dec with ibuf := m }

/-! ## Answers to the host (42_sequencer_and_host.md R200) -/

/-- `zext_32` of a length or pointer (10_state.md R30). -/
def zext32 (n : Nat) : HostWord := BitVec.ofNat 32 n

/-- A write: it returns nothing. -/
def ackWrite (s : State) : State := s.withResp none

/-- A read that returns `v`. -/
def answer (v : HostWord) (s : State) : State := s.withResp (some v)

/-- A read whose value the spec leaves unspecified (93_implementation_defined.md U2, U3). -/
def answerFree (s : State) : State :=
  { s with resp := some (Config.freeRead s.free), free := s.free + 1 }

/-- A read that is exact while the unit is not BUSY and unspecified while it is
(20_memory.md R76). -/
def answerUnlessBusy (u : UnitId) (v : HostWord) (s : State) : State :=
  if stOf u s = .busy then answerFree s else answer v s

/-- A host read of a buffer cell: unspecified while BUSY or if the cell holds no value
(42_sequencer_and_host.md R206, R207). -/
def answerCell (u : UnitId) (m : Memory) (a : Nat) (s : State) : State :=
  match m.read a with
  | some b => answerUnlessBusy u (b.setWidth 32) s
  | none => answerFree s

/-- A host write that a BUSY unit ignores (20_memory.md R76). -/
def writeUnlessBusy (u : UnitId) (f : State → State) (s : State) : State :=
  if stOf u s = .busy then ackWrite s else ackWrite (f s)

/-- A reserved transaction (42_sequencer_and_host.md R215): a read returns 0, a write changes
nothing. -/
def reserved (isWrite : Bool) (s : State) : State :=
  if isWrite then ackWrite s else answer 0 s

/-! ## Taking the exception, and leaving the error state -/

/-- `raise FormatError(c)` (60_exceptions.md R226): ERR, CAUSE, OLEN and ST are written and GP
stays at the offending quad. What PHASE and the holding registers hold afterwards the spec leaves
open (42_sequencer_and_host.md R217, 93_implementation_defined.md U10): they stay as they are.
DESIGN CHOICE, log entry 7. -/
def raiseFormatError (c : Cause) (s : State) : State :=
  s.withDec { s.dec with err := true, cause := c, olen := 0, st := .done }

/-- An accepted ENC.START (42_sequencer_and_host.md R201). -/
def startEnc (s : State) : State :=
  s.withEnc { s.enc with olen := 0, gp := 0, st := .busy }

/-- An accepted DEC.START (42_sequencer_and_host.md R202). The block has no return instruction:
this and reset are how an error state is left (60_exceptions.md R229). -/
def startDec (s : State) : State :=
  s.withDec { s.dec with
    olen := 0, gp := 0, err := false, cause := .none, phase := .lenchk, st := .busy }

end Sys2Proof.Machine
end

