-- ==== Sys2Proof/Machine/Operands.lean ====
section
/-! DEFINITION. The two look-up tables (30_encoding.md R92 to R95) and the assembly of groups and
quads from cells and back (R90, R91, R96). -/

namespace Sys2Proof.Machine

/-! ## The alphabet LUT and the reverse LUT -/

/-- `=`, 30_encoding.md R94. -/
def padChar : Byte := 0x3D

/-- `A : Idx -> Char`, 30_encoding.md R92 ("As arithmetic"). -/
def alphabet (i : Idx) : Byte :=
  if i.toNat ≤ 25 then BitVec.ofNat 8 (0x41 + i.toNat)
  else if i.toNat ≤ 51 then BitVec.ofNat 8 (0x61 + (i.toNat - 26))
  else if i.toNat ≤ 61 then BitVec.ofNat 8 (0x30 + (i.toNat - 52))
  else if i.toNat = 62 then 0x2B
  else 0x2F

/-- The class of a character (00_scope.md R7). -/
inductive Class where
  | D (v : Idx)
  | P
  | X
deriving DecidableEq, Repr

/-- `Rev : Char -> Class`, by the ranges of 30_encoding.md R95. -/
def rev (c : Byte) : Class :=
  if c = 0x2B then .D 62
  else if c = 0x2F then .D 63
  else if 0x30 ≤ c.toNat ∧ c.toNat ≤ 0x39 then .D (BitVec.ofNat 6 (c.toNat - 0x30 + 52))
  else if c = 0x3D then .P
  else if 0x41 ≤ c.toNat ∧ c.toNat ≤ 0x5A then .D (BitVec.ofNat 6 (c.toNat - 0x41))
  else if 0x61 ≤ c.toNat ∧ c.toNat ≤ 0x7A then .D (BitVec.ofNat 6 (c.toNat - 0x61 + 26))
  else .X

/-- The class without the index, as QCW9 carries it (30_encoding.md R98). -/
def Class.kls : Class → Kls
  | .D _ => .D
  | .P => .P
  | .X => .X

/-! ## The 3-byte grouper -/

/-- The number of groups of a message of `n` bytes, `ceil(n/3)` (40_encoder.md R125). -/
def groupCount (n : Nat) : Nat := (n + 2) / 3

/-- The message bytes in group `g`, `min(3, n - 3g)` (20_memory.md R66). -/
def groupSize (n g : Nat) : Nat := min 3 (n - 3 * g)

/-- The 24-bit group G24 (30_encoding.md R90), zeros for the bytes a partial group lacks (R91). -/
def assembleGroup : List Byte → BitVec 24
  | [] => 0
  | [b0] => b0 ++ (0 : Byte) ++ (0 : Byte)
  | [b0, b1] => b0 ++ b1 ++ (0 : Byte)
  | b0 :: b1 :: b2 :: _ => b0 ++ b1 ++ b2

/-! ## The 4-character grouper -/

/-- The number of quads of a text of `m` characters (41_decoder.md R156). -/
def quadCount (m : Nat) : Nat := m / 4

/-- Q32 (30_encoding.md R96). -/
def assembleQuad (c0 c1 c2 c3 : Byte) : BitVec 32 := c0 ++ c1 ++ c2 ++ c3

/-- Character `j` of a quad: `c0` is bits 31:24 (30_encoding.md R96). -/
def quadChar (q : BitVec 32) (j : Nat) : Byte := q.extractLsb' (24 - 8 * j) 8

/-- The four class codes side by side, `k0` most significant (30_encoding.md R98). -/
def assembleKls (k0 k1 k2 k3 : Kls) : BitVec 8 := klsCode k0 ++ klsCode k1 ++ klsCode k2 ++ klsCode k3

end Sys2Proof.Machine
end

