-- ==== Sys2Proof/Machine/Codec.lean ====
section
/-! DEFINITION. The function level (00_scope.md R9): the group function, the quad function, and
`encode` and `decode` of whole messages (40_encoder.md, 41_decoder.md). -/

namespace Sys2Proof.Machine

/-! ## The encoder's group function (40_encoder.md R120) -/

/-- ENC.G3 (R121). -/
def groupChars3 (b0 b1 b2 : Byte) : List Byte :=
  let g : BitVec 24 := b0 ++ b1 ++ b2
  [alphabet (g.extractLsb' 18 6), alphabet (g.extractLsb' 12 6), alphabet (g.extractLsb' 6 6),
    alphabet (g.extractLsb' 0 6)]

/-- ENC.G2 (R122). -/
def groupChars2 (b0 b1 : Byte) : List Byte :=
  [alphabet (b0.extractLsb' 2 6), alphabet (b0.extractLsb' 0 2 ++ b1.extractLsb' 4 4),
    alphabet (b1.extractLsb' 0 4 ++ 0b00#2), padChar]

/-- ENC.G1 (R123). -/
def groupChars1 (b0 : Byte) : List Byte :=
  [alphabet (b0.extractLsb' 2 6), alphabet (b0.extractLsb' 0 2 ++ 0b0000#4), padChar, padChar]

/-- `EncGroup` on the one to three bytes of a group: `cnt` is their number (R120). -/
def encGroup : List Byte → List Byte
  | [] => []
  | [b0] => groupChars1 b0
  | [b0, b1] => groupChars2 b0 b1
  | b0 :: b1 :: b2 :: _ => groupChars3 b0 b1 b2

/-- `encode` of a message (R125). -/
def b64Encode : List Byte → List Byte
  | [] => []
  | [b0] => groupChars1 b0
  | [b0, b1] => groupChars2 b0 b1
  | b0 :: b1 :: b2 :: rest => groupChars3 b0 b1 b2 ++ b64Encode rest

/-! ## The decoder's quad function (41_decoder.md R150) -/

/-- `Ok(bytes)` or `Reject(cause)`. -/
inductive QuadResult where
  | ok (bytes : List Byte)
  | reject (c : Cause)
deriving DecidableEq, Repr

/-- DEC.Q4 (R151). -/
def quadBytes4 (v0 v1 v2 v3 : Idx) : QuadResult :=
  let w : BitVec 24 := v0 ++ v1 ++ v2 ++ v3
  .ok [w.extractLsb' 16 8, w.extractLsb' 8 8, w.extractLsb' 0 8]

/-- DEC.Q3 (R152). -/
def quadBytes3 (v0 v1 v2 : Idx) : QuadResult :=
  let w : BitVec 18 := v0 ++ v1 ++ v2
  if w.extractLsb' 0 2 = 0 then .ok [w.extractLsb' 10 8, w.extractLsb' 2 8]
  else .reject .nonCanon

/-- DEC.Q2 (R153). -/
def quadBytes2 (v0 v1 : Idx) : QuadResult :=
  let w : BitVec 12 := v0 ++ v1
  if w.extractLsb' 0 4 = 0 then .ok [w.extractLsb' 4 8] else .reject .nonCanon

/-- DEC.REJ (R154). -/
def quadReject (k0 k1 k2 k3 : Kls) : QuadResult :=
  if k0 = .X ∨ k1 = .X ∨ k2 = .X ∨ k3 = .X then .reject .badChar else .reject .badPad

/-- `DecQuad(final, c0, c1, c2, c3)` (R150). -/
def decQuad (final : Bool) (c0 c1 c2 c3 : Byte) : QuadResult :=
  match rev c0, rev c1, rev c2, rev c3, final with
  | .D v0, .D v1, .D v2, .D v3, _ => quadBytes4 v0 v1 v2 v3
  | .D v0, .D v1, .D v2, .P, true => quadBytes3 v0 v1 v2
  | .D v0, .D v1, .P, .P, true => quadBytes2 v0 v1
  | k0, k1, k2, k3, _ => quadReject k0.kls k1.kls k2.kls k3.kls

/-- `DecQuad` of quad `q` of a text (R156): the final quad is the last one. -/
def quadOfText (t : List Byte) (q : Nat) : QuadResult :=
  decQuad (decide (q = quadCount t.length - 1)) (t.getD (4 * q) 0) (t.getD (4 * q + 1) 0)
    (t.getD (4 * q + 2) 0) (t.getD (4 * q + 3) 0)

/-- `decode` of a text: the bytes, or FormatError with its cause and the quad it was found at
(60_exceptions.md R221: GP). -/
inductive DecodeResult where
  | bytes (b : List Byte)
  | formatError (c : Cause) (quad : Nat)
deriving DecidableEq, Repr

/-- The walk over the quads in address order, `q` the number of the first (R156). A rest of one
to three characters cannot remain once the length has been checked. -/
def decodeQuads (q : Nat) : List Byte → DecodeResult
  | [] => .bytes []
  | c0 :: c1 :: c2 :: c3 :: rest =>
    match decQuad rest.isEmpty c0 c1 c2 c3 with
    | .reject c => .formatError c q
    | .ok bs =>
      match decodeQuads (q + 1) rest with
      | .formatError c q' => .formatError c q'
      | .bytes bs' => .bytes (bs ++ bs')
  | _ => .formatError .badLen 0

/-- `decode` (R156): the length first, then the quads. -/
def b64Decode (t : List Byte) : DecodeResult :=
  if t.length % 4 ≠ 0 then .formatError .badLen 0 else decodeQuads 0 t

end Sys2Proof.Machine
end

