-- ==== Sys2Proof/Machine/DecOps.lean ====
section
/-! DEFINITION. The meanings of the four quad operations: the part of DEC.VSTEP and DEC.DSTEP that
follows the grouper (42_sequencer_and_host.md R196, R197). The characters stand in DEC.QUAD. -/

namespace Sys2Proof.Machine

/-- The common precondition of DEC.VSTEP and DEC.DSTEP (R196, R197). -/
abbrev decStepPre (d : DecUnit) : Prop :=
  d.st = .busy ∧ d.phase ≠ .lenchk ∧ d.gp < quadCount d.ilen

/-- DEC.VSTEP from the result of the quad operation on (R196): nothing is written to OBUF or OLEN. -/
def finishValidate (r : QuadResult) (s : State) : Result :=
  match r with
  | .reject c => .next (raiseFormatError c s)
  | .ok _ => .next (s.withDec { s.dec with gp := s.dec.gp + 1 })

/-- DEC.DSTEP from the result of the quad operation on (R197). -/
def finishDecode (r : QuadResult) (s : State) : Result :=
  match r with
  | .reject _ => .refused .rejectWhileDecoding
  | .ok bs =>
    .next (s.withDec { s.dec with
      obuf := s.dec.obuf.writeCells (3 * s.dec.gp) bs
      olen := 3 * s.dec.gp + bs.length
      gp := s.dec.gp + 1 })

/-- The quad step from the result of the quad operation on. -/
def finishQuad (r : QuadResult) (s : State) : Result :=
  if decStepPre s.dec then
    match s.dec.phase with
    | .decode => finishDecode r s
    | _ => finishValidate r s
  else .refused .notIssued

/-- DEC.Q4 (41_decoder.md R151): four data characters. -/
def execDecQ4 (_fin : Bool) (s : State) : Result :=
  match rev (quadChar s.dec.quad 0), rev (quadChar s.dec.quad 1), rev (quadChar s.dec.quad 2),
      rev (quadChar s.dec.quad 3) with
  | .D v0, .D v1, .D v2, .D v3 => finishQuad (quadBytes4 v0 v1 v2 v3) s
  | _, _, _, _ => .refused .notIssued

/-- DEC.Q3 (41_decoder.md R152): three data characters and one pad. -/
def execDecQ3 (s : State) : Result :=
  match rev (quadChar s.dec.quad 0), rev (quadChar s.dec.quad 1), rev (quadChar s.dec.quad 2),
      rev (quadChar s.dec.quad 3) with
  | .D v0, .D v1, .D v2, .P => finishQuad (quadBytes3 v0 v1 v2) s
  | _, _, _, _ => .refused .notIssued

/-- DEC.Q2 (41_decoder.md R153): two data characters and two pads. -/
def execDecQ2 (s : State) : Result :=
  match rev (quadChar s.dec.quad 0), rev (quadChar s.dec.quad 1), rev (quadChar s.dec.quad 2),
      rev (quadChar s.dec.quad 3) with
  | .D v0, .D v1, .P, .P => finishQuad (quadBytes2 v0 v1) s
  | _, _, _, _ => .refused .notIssued

/-- DEC.REJ (41_decoder.md R154): the cause depends on the classes alone. -/
def execDecRej (_fin : Bool) (k0 k1 k2 k3 : Kls) (s : State) : Result :=
  finishQuad (quadReject k0 k1 k2 k3) s

end Sys2Proof.Machine
end

