-- ==== Sys2Proof/Machine/EncOps.lean ====
section
/-! DEFINITION. The meanings of the three group operations: the part of ENC.STEP that follows the
grouper (42_sequencer_and_host.md R193). -/

namespace Sys2Proof.Machine

/-- The precondition of ENC.STEP (R193). -/
abbrev encStepPre (e : EncUnit) : Prop := e.st = .busy ∧ e.gp < groupCount e.ilen

/-- ENC.STEP from the group's characters on: four cells of OBUF, OLEN and GP. -/
def finishGroup (chars : List Byte) (s : State) : Result :=
  if encStepPre s.enc then
    .next (s.withEnc { s.enc with
      obuf := s.enc.obuf.writeCells (4 * s.enc.gp) chars
      olen := s.enc.olen + 4
      gp := s.enc.gp + 1 })
  else .refused .notIssued

/-- ENC.G3 (40_encoder.md R121). -/
def execEncG3 (b0 b1 b2 : Byte) (s : State) : Result := finishGroup (groupChars3 b0 b1 b2) s

/-- ENC.G2 (40_encoder.md R122). -/
def execEncG2 (b0 b1 : Byte) (s : State) : Result := finishGroup (groupChars2 b0 b1) s

/-- ENC.G1 (40_encoder.md R123). -/
def execEncG1 (b0 : Byte) (s : State) : Result := finishGroup (groupChars1 b0) s

end Sys2Proof.Machine
end

