-- ==== Sys2Proof/Machine/Flags.lean ====
section
/-! DEFINITION. The status flags as the host sees them (10_state.md R32, R43). -/

namespace Sys2Proof.Machine

/-- The code of a cause (60_exceptions.md R221). -/
def causeCode : Cause → BitVec 3
  | .none => 0
  | .badLen => 1
  | .badChar => 2
  | .badPad => 3
  | .nonCanon => 4

/-- STATUS: BUSY 0, DONE 1, ERR 2, reserved 3, CAUSE 6:4, reserved 31:7 (10_state.md R32). -/
def statusWord (st : RunState) (err : Bool) (c : Cause) : HostWord :=
  (0 : BitVec 25) ++ causeCode c ++ (0 : BitVec 1) ++ BitVec.ofBool err
    ++ BitVec.ofBool (decide (st = .done)) ++ BitVec.ofBool (decide (st = .busy))

/-- The STATUS register of a unit. ENC has no ERR and no CAUSE: they read as 0
(10_state.md R29, R32; 60_exceptions.md R231). -/
def statusOf (u : UnitId) (s : State) : HostWord :=
  match u with
  | .enc => statusWord s.enc.st false .none
  | .dec => statusWord s.dec.st s.dec.err s.dec.cause

end Sys2Proof.Machine
end

