-- ==== Sys2Proof/Machine/HostTx.lean ====
section
/-! DEFINITION. The meanings of the thirteen host transactions (42_sequencer_and_host.md section
4). A buffer address out of range is a reserved transaction (20_memory.md R71) wherever it comes
from. -/

namespace Sys2Proof.Machine

/-- ENC.START (R201): ignored while BUSY. -/
def execEncStart (s : State) : Result := .next (writeUnlessBusy .enc startEnc s)

/-- DEC.START (R202): ignored while BUSY. -/
def execDecStart (s : State) : Result := .next (writeUnlessBusy .dec startDec s)

/-- CTRL.NOP (R204): no effect in every state of the unit. -/
def execCtrlNop (_u : UnitId) (s : State) : Result := .next (ackWrite s)

/-- The width of ILEN in bits (10_state.md R24). -/
def ilenWidth (lenw : Nat) : UnitId → Nat
  | .enc => lenw
  | .dec => lenw + 1

/-- WR.ILEN (R203): the value is cut to the register's width (10_state.md R33). -/
def execWrIlen (u : UnitId) (v : HostWord) (s : State) : Result :=
  .next (writeUnlessBusy u (setIlen u (v.toNat % 2 ^ ilenWidth s.lenw u)) s)

/-- WR.IBUF (R205): bits 7:0 are stored (20_memory.md R65). -/
def execWrIbuf (u : UnitId) (a : BitVec 28) (v : HostWord) (s : State) : Result :=
  if a.toNat < ibufCells s.lenw u then
    .next (writeUnlessBusy u
      (setIbuf u ((ibufOf u s).write a.toNat (v.extractLsb' 0 8))) s)
  else .next (reserved true s)

/-- RD.CTRL (R214): 0 in every state. -/
def execRdCtrl (_u : UnitId) (s : State) : Result := .next (answer 0 s)

/-- RD.STATUS (R208): exact in every state. -/
def execRdStatus (u : UnitId) (s : State) : Result := .next (answer (statusOf u s) s)

/-- RD.ILEN (R209): exact in every state. -/
def execRdIlen (u : UnitId) (s : State) : Result := .next (answer (zext32 (ilenOf u s)) s)

/-- RD.OLEN (R210). -/
def execRdOlen (u : UnitId) (s : State) : Result :=
  .next (answerUnlessBusy u (zext32 (olenOf u s)) s)

/-- RD.GP (R211). -/
def execRdGp (u : UnitId) (s : State) : Result :=
  .next (answerUnlessBusy u (zext32 (gpOf u s)) s)

/-- RD.IBUF (R206). -/
def execRdIbuf (u : UnitId) (a : BitVec 28) (s : State) : Result :=
  if a.toNat < ibufCells s.lenw u then .next (answerCell u (ibufOf u s) a.toNat s)
  else .next (reserved false s)

/-- RD.OBUF (R207). -/
def execRdObuf (u : UnitId) (a : BitVec 28) (s : State) : Result :=
  if a.toNat < obufCells s.lenw then .next (answerCell u (obufOf u s) a.toNat s)
  else .next (reserved false s)

/-- HT.RSVD (R215): a read returns 0, a write changes nothing, nothing is signalled. -/
def execHtRsvd (w : BitVec 64) (s : State) : Result :=
  .next (reserved (decide (htwRw w = 1)) s)

end Sys2Proof.Machine
end

