-- ==== Sys2Proof/Machine/Dispatch.lean ====
section
/-! DEFINITION. One arm per constructor of Instr. -/

namespace Sys2Proof.Machine

def exec (i : Instr) (s : State) : Host.Outcome State Fault Refusal :=
  match i with
  | .encStart => Sys2Proof.Machine.execEncStart s
  | .decStart => Sys2Proof.Machine.execDecStart s
  | .ctrlNop u => Sys2Proof.Machine.execCtrlNop u s
  | .wrIlen u v => Sys2Proof.Machine.execWrIlen u v s
  | .wrIbuf u a v => Sys2Proof.Machine.execWrIbuf u a v s
  | .rdCtrl u => Sys2Proof.Machine.execRdCtrl u s
  | .rdStatus u => Sys2Proof.Machine.execRdStatus u s
  | .rdIlen u => Sys2Proof.Machine.execRdIlen u s
  | .rdOlen u => Sys2Proof.Machine.execRdOlen u s
  | .rdGp u => Sys2Proof.Machine.execRdGp u s
  | .rdIbuf u a => Sys2Proof.Machine.execRdIbuf u a s
  | .rdObuf u a => Sys2Proof.Machine.execRdObuf u a s
  | .htRsvd w => Sys2Proof.Machine.execHtRsvd w s
  | .encG3 b0 b1 b2 => Sys2Proof.Machine.execEncG3 b0 b1 b2 s
  | .encG2 b0 b1 => Sys2Proof.Machine.execEncG2 b0 b1 s
  | .encG1 b0 => Sys2Proof.Machine.execEncG1 b0 s
  | .decQ4 fin => Sys2Proof.Machine.execDecQ4 fin s
  | .decQ3 => Sys2Proof.Machine.execDecQ3 s
  | .decQ2 => Sys2Proof.Machine.execDecQ2 s
  | .decRej fin k0 k1 k2 k3 => Sys2Proof.Machine.execDecRej fin k0 k1 k2 k3 s

end Sys2Proof.Machine
end

