-- ==== Sys2Proof/Machine/Sequencer.lean ====
section
/-! DEFINITION. How the block moves (42_sequencer_and_host.md sections 1 to 3): the groupers that
form a unit's next word, the steps selected by state alone, reset, and the choice of the next
transition. `run` is what runs a word: Step.lean gives the decoder and `exec`. -/

namespace Sys2Proof.Machine

/-! ## Unit ENC -/

/-- The 3-byte grouper of ENC.STEP (R193): CNT and GRP are loaded from the group's cells. -/
def encGroupLatch (s : State) : Except Fault State :=
  match s.enc.ibuf.readCells (3 * s.enc.gp) (groupSize s.enc.ilen s.enc.gp) with
  | .error a => .error (.cellHoldsNoValue .enc a)
  | .ok bs =>
    .ok (s.withEnc { s.enc with
      cnt := BitVec.ofNat 2 (groupSize s.enc.ilen s.enc.gp)
      grp := assembleGroup bs })

/-- The descriptor EGD26 = CNT ++ GRP (30_encoding.md R97). -/
def encDescriptor (e : EncUnit) : BitVec 26 := e.cnt ++ e.grp

/-- ENC.END (R194). -/
def encEnd (s : State) : State := s.withEnc { s.enc with st := .done }

/-- One turn of ENC (R192). A unit that is not BUSY takes no step (R190). -/
def encTurn (run : Encoded → State → Result) (s : State) : Result :=
  if s.enc.st = .busy then
    if s.enc.gp < groupCount s.enc.ilen then
      match encGroupLatch s with
      | .error f => .fault f
      | .ok t => run (.egd (encDescriptor t.enc)) t
    else .next (encEnd s)
  else .next s

/-! ## Unit DEC -/

/-- The 4-character grouper and the class codes of DEC.VSTEP and DEC.DSTEP (R196, 41_decoder.md
R155): QUAD, FIN and KLS are loaded. -/
def decQuadLatch (s : State) : Except Fault State :=
  match s.dec.ibuf.readCells (4 * s.dec.gp) 4 with
  | .error a => .error (.cellHoldsNoValue .dec a)
  | .ok [c0, c1, c2, c3] =>
    .ok (s.withDec { s.dec with
      quad := assembleQuad c0 c1 c2 c3
      fin := BitVec.ofBool (decide (s.dec.gp = quadCount s.dec.ilen - 1))
      kls := assembleKls (rev c0).kls (rev c1).kls (rev c2).kls (rev c3).kls })
  | .ok _ => .ok s

/-- The class word QCW9 = FIN ++ KLS (30_encoding.md R98). -/
def decClassWord (d : DecUnit) : BitVec 9 := d.fin ++ d.kls

/-- DEC.LCHK (R195): `ILEN[1:0]` is `ILEN mod 4` (41_decoder.md R158). -/
def decLchk (s : State) : State :=
  if s.dec.ilen % 4 ≠ 0 then raiseFormatError .badLen s
  else s.withDec { s.dec with phase := .validate }

/-- DEC.VEND (R198). -/
def decVend (s : State) : State := s.withDec { s.dec with phase := .decode, gp := 0 }

/-- DEC.DEND (R199). -/
def decDend (s : State) : State := s.withDec { s.dec with st := .done }

/-- DEC.VSTEP or DEC.DSTEP (R196, R197): load the quad, run the operation its class word selects. -/
def decQuadStep (run : Encoded → State → Result) (s : State) : Result :=
  match decQuadLatch s with
  | .error f => .fault f
  | .ok t => run (.qcw (decClassWord t.dec)) t

/-- One turn of DEC, the table of R219. -/
def decTurn (run : Encoded → State → Result) (s : State) : Result :=
  if s.dec.st = .busy then
    match s.dec.phase with
    | .lenchk => .next (decLchk s)
    | .validate =>
      if s.dec.gp < quadCount s.dec.ilen then decQuadStep run s else .next (decVend s)
    | .decode =>
      if s.dec.gp < quadCount s.dec.ilen then decQuadStep run s else .next (decDend s)
  else .next s

/-! ## Reset (70_reset_and_hazards.md R250, R251) -/

/-- A buffer after a reset event: kept, unless no reset has happened since power-up; then every
cell still holds no value (R252). -/
def bufferAfterReset (ready : Bool) (m : Memory) : Memory := if ready then m else []

/-- OBUF after a reset event: as R251 has it, every cell without a value also if an operation was
in progress. -/
def obufAfterReset (ready : Bool) (st : RunState) (m : Memory) : Memory :=
  if st = .busy then [] else bufferAfterReset ready m

/-- ENC after a reset event; `ready` says whether one has happened before. The holding registers
are unspecified (10_state.md R45), log entry 7. -/
def resetEnc (ready : Bool) (n : Nat) (e : EncUnit) : EncUnit :=
  { ibuf := bufferAfterReset ready e.ibuf
    obuf := obufAfterReset ready e.st e.obuf
    ilen := 0, olen := 0, gp := 0, st := .idle
    grp := Config.freeGrp n, cnt := Config.freeCnt n }

/-- DEC after a reset event. -/
def resetDec (ready : Bool) (n : Nat) (d : DecUnit) : DecUnit :=
  { ibuf := bufferAfterReset ready d.ibuf
    obuf := obufAfterReset ready d.st d.obuf
    ilen := 0, olen := 0, gp := 0, st := .idle
    phase := Config.freePhase n, err := false, cause := .none
    quad := Config.freeQuad n, kls := Config.freeKls n, fin := Config.freeFin n }

/-- The reset event: both units at once. It also ends the time before the first reset (R252). -/
def resetEvent (s : State) : State :=
  { s with
    ready := true
    enc := resetEnc s.ready s.free s.enc
    dec := resetDec s.ready s.free s.dec
    free := s.free + 1 }

/-! ## The next transition (R191) -/

/-- The next transition and the state without it. With nothing listed, a BUSY unit goes on, ENC
first: weak fairness (R191, 70_reset_and_hazards.md R267; log entry 3). -/
def nextEvent (s : State) : Event × State :=
  match s.inbox with
  | e :: es => (e, s.withInbox es)
  | [] => (if s.enc.st = .busy then .encTurn else .decTurn, s)

/-- One transition. Before the first reset nothing but a reset has an effect (R252). -/
def transition (run : Encoded → State → Result) (e : Event) (s : State) : Result :=
  match e with
  | .reset => .next (resetEvent s)
  | .host w => if s.ready then run (.htw w) s else .refused .beforeFirstReset
  | .encTurn => if s.ready then encTurn run s else .refused .beforeFirstReset
  | .decTurn => if s.ready then decTurn run s else .refused .beforeFirstReset

/-- One step. -/
def stepWith (run : Encoded → State → Result) (s : State) : Result :=
  transition run (nextEvent s).1 (nextEvent s).2

/-! ## Placing a word where the next step runs it -/

/-- ENC made BUSY on group 0 of a message that ends in the group the descriptor `w` describes. -/
def placeGroup (w : BitVec 26) (s : State) : State :=
  s.withEnc { s.enc with
    ibuf := s.enc.ibuf.writeCells 0
      ([w.extractLsb' 16 8, w.extractLsb' 8 8, w.extractLsb' 0 8].take (w.extractLsb' 24 2).toNat)
    ilen := (w.extractLsb' 24 2).toNat
    gp := 0
    st := .busy }

/-- A character of the class with this code: `A`, `=` or `!`. `placeWord` never asks for the
reserved code `0b11`. -/
def charOfCode (k : BitVec 2) : Byte :=
  if k = 0b00 then 0x41 else if k = 0b01 then padChar else 0x21

/-- DEC made BUSY in the VALIDATE phase on quad 0, four characters of the classes of `w`; the
text ends there if FIN is set, else one quad later. -/
def placeQuad (w : BitVec 9) (s : State) : State :=
  s.withDec { s.dec with
    ibuf := s.dec.ibuf.writeCells 0
      [charOfCode (w.extractLsb' 6 2), charOfCode (w.extractLsb' 4 2),
        charOfCode (w.extractLsb' 2 2), charOfCode (w.extractLsb' 0 2)]
    ilen := if w.getLsbD 8 then 4 else 8
    gp := 0
    phase := .validate
    st := .busy }

/-- A word placed so that the next step runs it: a transaction at the head of the inbox, a
selector word as the group or quad from which the unit's grouper forms it. A reserved selector
word (30_encoding.md R104) is no instruction and is not placed: the state stays as it is. Once a
word is placed the block counts as reset, without a reset event (R252). DESIGN CHOICE, log
entry 2. -/
def placeWord (e : Encoded) (s : State) : State :=
  match decode s.lenw e with
  | .error _ => s
  | .ok _ =>
    match e with
    | .htw w => (({ s with ready := true } : State)).withInbox (.host w :: s.inbox)
    | .egd w => (placeGroup w { s with ready := true }).withInbox (.encTurn :: s.inbox)
    | .qcw w => (placeQuad w { s with ready := true }).withInbox (.decTurn :: s.inbox)

end Sys2Proof.Machine
end

