-- ==== Sys2Proof/Machine/Step.lean ====
section
/-! DEFINITION. The step: one transition of the block (42_sequencer_and_host.md R191). -/

namespace Sys2Proof.Machine

/-- Decode a word and run it. -/
def runWord (e : Encoded) (s : State) : Result :=
  match decode s.lenw e with
  | .ok i => exec i s
  | .error r => .refused (.reservedSelector r)

/-- One transition. -/
def step (s : State) : Host.Outcome State Fault Refusal := stepWith runWord s

/-- `s` with a table word placed where the next step runs it; `s` itself for a number that is no
word of its format (log entry 13) or a reserved selector word. DESIGN CHOICE, log entry 2. -/
def State.withFetchWord (s : State) (nbits w : Nat) : State :=
  match encodedOfTable nbits w with
  | some e => placeWord e s
  | none => s

end Sys2Proof.Machine
end

