-- ==== Sys2Proof/Machine/HostProgram.lean ====
section
/-! DEFINITION. The host's syntax (30_encoding.md R107) and its pseudo-instructions
(42_sequencer_and_host.md R216), which expand to transactions and add no behaviour. -/

namespace Sys2Proof.Machine

/-- One line of a host program (R107). -/
inductive HostLine where
  | wrCtrl (u : UnitId) (v : HostWord)
  | wrIlen (u : UnitId) (v : HostWord)
  | wrIbuf (u : UnitId) (a : BitVec 28) (v : HostWord)
  | rdCtrl (u : UnitId)
  | rdStatus (u : UnitId)
  | rdIlen (u : UnitId)
  | rdOlen (u : UnitId)
  | rdGp (u : UnitId)
  | rdIbuf (u : UnitId) (a : BitVec 28)
  | rdObuf (u : UnitId) (a : BitVec 28)
deriving DecidableEq, Repr

/-- The HTW64 word of a line (R107); the data of a read is written 0 (R99). -/
def HostLine.word : HostLine → BitVec 64
  | .wrCtrl u v => mkHtw 1 (bitOfUnit u) 0b00 0 v
  | .wrIlen u v => mkHtw 1 (bitOfUnit u) 0b00 2 v
  | .wrIbuf u a v => mkHtw 1 (bitOfUnit u) 0b01 a v
  | .rdCtrl u => mkHtw 0 (bitOfUnit u) 0b00 0 0
  | .rdStatus u => mkHtw 0 (bitOfUnit u) 0b00 1 0
  | .rdIlen u => mkHtw 0 (bitOfUnit u) 0b00 2 0
  | .rdOlen u => mkHtw 0 (bitOfUnit u) 0b00 3 0
  | .rdGp u => mkHtw 0 (bitOfUnit u) 0b00 4 0
  | .rdIbuf u a => mkHtw 0 (bitOfUnit u) 0b01 a 0
  | .rdObuf u a => mkHtw 0 (bitOfUnit u) 0b10 a 0

/-- The next transition is `e`, before whatever else is to come. -/
def stepEvent (e : Event) (s : State) : Result := step (s.withInbox (e :: s.inbox))

/-- The host issues one line. -/
def issue (l : HostLine) (s : State) : Result := stepEvent (.host l.word) s

/-- One turn of a unit. -/
def turnOf : UnitId → Event
  | .enc => .encTurn
  | .dec => .decTurn

/-- `k` turns of one unit, nothing between them. -/
def runTurns (u : UnitId) : Nat → State → Result
  | 0, s => .next s
  | k + 1, s =>
    match stepEvent (turnOf u) s with
    | .next t => runTurns u k t
    | .fault f => .fault f
    | .refused r => .refused r

/-- Lines issued one after the other. Which transitions fall between two lines the spec leaves
open (42_sequencer_and_host.md R191, 20_memory.md R73); here none do. DESIGN CHOICE, log entry
16. -/
def issueAll : List HostLine → State → Result
  | [], s => .next s
  | l :: ls, s =>
    match issue l s with
    | .next t => issueAll ls t
    | .fault f => .fault f
    | .refused r => .refused r

/-- The expansion of `LOAD U, m` from cell `a` on: the cells in ascending order. -/
def loadCells (u : UnitId) (a : Nat) : List Byte → List HostLine
  | [] => []
  | b :: bs => .wrIbuf u (BitVec.ofNat 28 a) (b.setWidth 32) :: loadCells u (a + 1) bs

/-- `LOAD U, m`. -/
def macroLoad (u : UnitId) (m : List Byte) : List HostLine :=
  loadCells u 0 m ++ [.wrIlen u (zext32 m.length)]

/-- `START U`. -/
def macroStart (u : UnitId) : List HostLine := [.wrCtrl u 1]

/-- A read whose answer the host uses. -/
def issueRead (l : HostLine) (s : State) : Option (HostWord × State) :=
  match issue l s with
  | .next t => t.resp.map fun v => (v, t)
  | _ => none

/-- `WAIT U -> s`: poll STATUS until bit 1 is set, at most `fuel` times. Between two polls the
unit takes one turn and the other unit none; the spec leaves open which transitions fall there
(42_sequencer_and_host.md R191). DESIGN CHOICE, log entry 16. -/
def macroWait (u : UnitId) : Nat → State → Option (HostWord × State)
  | 0, _ => none
  | fuel + 1, s =>
    match issueRead (.rdStatus u) s with
    | none => none
    | some (v, t) =>
      if v.getLsbD 1 then some (v, t)
      else
        match stepEvent (turnOf u) t with
        | .next t' => macroWait u fuel t'
        | _ => none

/-- `n` cells of OBUF from cell `a` on, no transition between two reads. DESIGN CHOICE, log entry
16. -/
def fetchCells (u : UnitId) (a : Nat) : Nat → State → Option (List Byte × State)
  | 0, s => some ([], s)
  | n + 1, s =>
    match issueRead (.rdObuf u (BitVec.ofNat 28 a)) s with
    | none => none
    | some (v, t) =>
      match fetchCells u (a + 1) n t with
      | none => none
      | some (bs, t') => some (v.setWidth 8 :: bs, t')

/-- `FETCH U -> r`: OLEN, then that many cells, no transition between two reads. DESIGN CHOICE,
log entry 16. -/
def macroFetch (u : UnitId) (s : State) : Option (List Byte × State) :=
  match issueRead (.rdOlen u) s with
  | none => none
  | some (n, t) => fetchCells u 0 n.toNat t

/-- `ENCODE b -> t`. DEC takes no turn meanwhile. DESIGN CHOICE, log entry 16. -/
def macroEncode (fuel : Nat) (b : List Byte) (s : State) : Option (List Byte × State) :=
  match issueAll (macroLoad .enc b ++ macroStart .enc) s with
  | .next s1 =>
    match macroWait .enc fuel s1 with
    | none => none
    | some (_, s2) => macroFetch .enc s2
  | _ => none

/-- What `DECODE` returns: the bytes, or FormatError with its cause code, STATUS bits 6:4. -/
inductive HostDecoded where
  | bytes (b : List Byte)
  | formatError (code : BitVec 3)
deriving DecidableEq, Repr

/-- `DECODE t -> r`. ENC takes no turn meanwhile. DESIGN CHOICE, log entry 16. -/
def macroDecode (fuel : Nat) (t : List Byte) (s : State) : Option (HostDecoded × State) :=
  match issueAll (macroLoad .dec t ++ macroStart .dec) s with
  | .next s1 =>
    match macroWait .dec fuel s1 with
    | none => none
    | some (v, s2) =>
      if v.getLsbD 2 then some (.formatError (v.extractLsb' 4 3), s2)
      else
        match macroFetch .dec s2 with
        | none => none
        | some (bs, s3) => some (.bytes bs, s3)
  | _ => none

end Sys2Proof.Machine
end

