-- ==== Sys2Proof/WellFormed.lean ====
section
/-! DEFINITION. Which terms of `Instr` are instructions of the block: the side conditions that
the types of the fields do not already say. -/

namespace Sys2Proof

/-- The words R215 (42_sequencer_and_host.md) lists as reserved: space 11; space 00 with
`addr >= 5`; a buffer address out of range; a write to STATUS, OLEN or GP; a write to an OBUF. -/
def reservedHtw (lenw : Nat) (w : BitVec 64) : Bool :=
  let u := unitOfBit (htwUnit w)
  let a := (htwAddr w).toNat
  decide (htwSpace w = 0b11)
    || decide (htwSpace w = 0b00 ∧ 5 ≤ a)
    || decide (htwSpace w = 0b01 ∧ ibufCells lenw u ≤ a)
    || decide (htwSpace w = 0b10 ∧ obufCells lenw ≤ a)
    || decide (htwRw w = 1 ∧ htwSpace w = 0b00 ∧ (a = 1 ∨ a = 3 ∨ a = 4))
    || decide (htwRw w = 1 ∧ htwSpace w = 0b10)

/-- The class words an earlier row of R98 (30_encoding.md) takes from DEC.REJ. -/
def acceptedShape (fin : Bool) (k0 k1 k2 k3 : Kls) : Bool :=
  decide ((k0, k1, k2, k3) = (.D, .D, .D, .D))
    || (fin && decide ((k0, k1, k2, k3) = (.D, .D, .D, .P)))
    || (fin && decide ((k0, k1, k2, k3) = (.D, .D, .P, .P)))

/-- Well-formed on an implementation with this LENW. -/
def Instr.WellFormed (lenw : Nat) : Instr → Bool
  | .wrIbuf u a _ => decide (a.toNat < ibufCells lenw u)
  | .rdIbuf u a => decide (a.toNat < ibufCells lenw u)
  | .rdObuf _ a => decide (a.toNat < obufCells lenw)
  | .htRsvd w => reservedHtw lenw w
  | .decRej fin k0 k1 k2 k3 => !acceptedShape fin k0 k1 k2 k3
  | .encStart => true
  | .decStart => true
  | .ctrlNop _ => true
  | .wrIlen _ _ => true
  | .rdCtrl _ => true
  | .rdStatus _ => true
  | .rdIlen _ => true
  | .rdOlen _ => true
  | .rdGp _ => true
  | .encG3 _ _ _ => true
  | .encG2 _ _ => true
  | .encG1 _ => true
  | .decQ4 _ => true
  | .decQ3 => true
  | .decQ2 => true

end Sys2Proof
end

