-- ==== Sys2Proof/Safety.lean ====
section
/-! DEFINITION. What is true of every state a run reaches (10_state.md R47 with the widths and
ranges of R23 to R26), and the terms the statements use. -/

namespace Sys2Proof

/-- A host transaction, not a group or quad operation (30_encoding.md R100). -/
def Instr.isTransaction : Instr → Bool
  | .encStart => true
  | .decStart => true
  | .ctrlNop _ => true
  | .wrIlen _ _ => true
  | .wrIbuf _ _ _ => true
  | .rdCtrl _ => true
  | .rdStatus _ => true
  | .rdIlen _ => true
  | .rdOlen _ => true
  | .rdGp _ => true
  | .rdIbuf _ _ => true
  | .rdObuf _ _ => true
  | .htRsvd _ => true
  | .encG3 _ _ _ => false
  | .encG2 _ _ => false
  | .encG1 _ => false
  | .decQ4 _ => false
  | .decQ3 => false
  | .decQ2 => false
  | .decRej _ _ _ _ _ => false

/-- A read transaction, HT.RSVD with `rw = 0` among them. -/
def Instr.isRead : Instr → Bool
  | .encStart => false
  | .decStart => false
  | .ctrlNop _ => false
  | .wrIlen _ _ => false
  | .wrIbuf _ _ _ => false
  | .rdCtrl _ => true
  | .rdStatus _ => true
  | .rdIlen _ => true
  | .rdOlen _ => true
  | .rdGp _ => true
  | .rdIbuf _ _ => true
  | .rdObuf _ _ => true
  | .htRsvd w => decide (htwRw w = 0)
  | .encG3 _ _ _ => false
  | .encG2 _ _ => false
  | .encG1 _ => false
  | .decQ4 _ => false
  | .decQ3 => false
  | .decQ2 => false
  | .decRej _ _ _ _ _ => false

/-- The unit a transaction is addressed to (30_encoding.md R99). -/
def Instr.unit : Instr → UnitId
  | .encStart => .enc
  | .decStart => .dec
  | .ctrlNop u => u
  | .wrIlen u _ => u
  | .wrIbuf u _ _ => u
  | .rdCtrl u => u
  | .rdStatus u => u
  | .rdIlen u => u
  | .rdOlen u => u
  | .rdGp u => u
  | .rdIbuf u _ => u
  | .rdObuf u _ => u
  | .htRsvd w => unitOfBit (htwUnit w)
  | .encG3 _ _ _ => .enc
  | .encG2 _ _ => .enc
  | .encG1 _ => .enc
  | .decQ4 _ => .dec
  | .decQ3 => .dec
  | .decQ2 => .dec
  | .decRej _ _ _ _ _ => .dec

end Sys2Proof

namespace Sys2Proof.Machine

/-- Every cell that holds a value has an address below `n` (20_memory.md R71). -/
abbrev Memory.below (m : Memory) (n : Nat) : Prop := ∀ c ∈ m, c.1 < n

/-- The registers of ENC fit their widths and its buffers their capacities, in canonical form
(10_state.md R23 to R26). -/
structure EncWidths (lenw : Nat) (e : EncUnit) : Prop where
  ibuf_wf : e.ibuf.wf
  obuf_wf : e.obuf.wf
  ibuf_below : e.ibuf.below (ibufCells lenw .enc)
  obuf_below : e.obuf.below (obufCells lenw)
  ilen_lt : e.ilen < 2 ^ lenw
  olen_lt : e.olen < 2 ^ (lenw + 1)
  gp_lt : e.gp < 2 ^ (lenw + 1)

/-- The same for DEC. -/
structure DecWidths (lenw : Nat) (d : DecUnit) : Prop where
  ibuf_wf : d.ibuf.wf
  obuf_wf : d.obuf.wf
  ibuf_below : d.ibuf.below (ibufCells lenw .dec)
  obuf_below : d.obuf.below (obufCells lenw)
  ilen_lt : d.ilen < 2 ^ (lenw + 1)
  olen_lt : d.olen < 2 ^ (lenw + 1)
  gp_lt : d.gp < 2 ^ (lenw + 1)

/-- Quad `q` of the text in `d`'s IBUF holds values and `DecQuad` accepts it. -/
def quadAccepted (d : DecUnit) (q : Nat) : Bool :=
  match d.ibuf.readCells (4 * q) 4 with
  | .ok [c0, c1, c2, c3] =>
    match decQuad (decide (q = quadCount d.ilen - 1)) c0 c1 c2 c3 with
    | .ok _ => true
    | .reject _ => false
  | _ => false

/-- 10_state.md R47, items 1 and 3, of ENC. -/
structure EncInv (e : EncUnit) : Prop where
  idle : e.st = .idle → e.olen = 0 ∧ e.gp = 0
  busy : e.st = .busy → e.olen = 4 * e.gp ∧ e.gp ≤ groupCount e.ilen

/-- 10_state.md R47, items 1, 2, 4 and 5, of DEC. In the VALIDATE phase the quads before GP are
accepted and in the DECODE phase all are, which is item 5's "`decode` of the message is not a
FormatError" quad by quad. -/
structure DecInv (d : DecUnit) : Prop where
  idle : d.st = .idle → d.olen = 0 ∧ d.gp = 0 ∧ d.err = false ∧ d.cause = .none
  errCause : d.err = false ↔ d.cause = .none
  errDone : d.err = true → d.st = .done ∧ d.olen = 0
  lenchk : d.st = .busy → d.phase = .lenchk → d.olen = 0 ∧ d.gp = 0
  validate : d.st = .busy → d.phase = .validate →
    d.olen = 0 ∧ d.ilen % 4 = 0 ∧ d.gp ≤ quadCount d.ilen ∧ ∀ q < d.gp, quadAccepted d q = true
  decode : d.st = .busy → d.phase = .decode →
    d.ilen % 4 = 0 ∧ d.gp ≤ quadCount d.ilen ∧
      (∀ q < quadCount d.ilen, quadAccepted d q = true) ∧
      (d.gp < quadCount d.ilen → d.olen = 3 * d.gp) ∧ d.olen ≤ 3 * d.gp

/-- The invariant of the machine. R47 is about the time after the first reset; before it the
registers hold anything their widths hold (70_reset_and_hazards.md R252). -/
structure Inv (s : State) : Prop where
  legal : Config.legalLenw s.lenw
  encWidths : EncWidths s.lenw s.enc
  decWidths : DecWidths s.lenw s.dec
  enc : s.ready = true → EncInv s.enc
  dec : s.ready = true → DecInv s.dec
  /-- Before the first reset no buffer cell holds a value (70_reset_and_hazards.md R252). -/
  powerUp : s.ready = false →
    s.enc.ibuf = [] ∧ s.enc.obuf = [] ∧ s.dec.ibuf = [] ∧ s.dec.obuf = []

/-- The next transition is a turn of ENC: one is listed, or nothing is listed and ENC goes
on (log entry 3). -/
abbrev encTurnNext (s : State) : Prop :=
  s.inbox.head? = some .encTurn ∨ (s.inbox = [] ∧ s.enc.st = .busy)

/-- The next transition is a turn of DEC: one is listed, or nothing is listed and ENC is not
BUSY (log entry 3). -/
abbrev decTurnNext (s : State) : Prop :=
  s.inbox.head? = some .decTurn ∨ (s.inbox = [] ∧ s.enc.st ≠ .busy)

/-- The message in cells `0 .. n-1` of a buffer, if every one holds a value. -/
def messageIs (m : Memory) (n : Nat) (b : List Byte) : Prop := m.readCells 0 n = .ok b

/-- Every byte outside the `k` cells from `a` on reads as before. -/
def sameOutside (a k : Nat) (m m' : Memory) : Prop :=
  ∀ x, x < a ∨ a + k ≤ x → m'.read x = m.read x

/-- The two states differ at most in what the latest transaction returned and in the index of the
next free value: nothing of the block changed. -/
def onlyAnswered (s t : State) : Prop :=
  t.lenw = s.lenw ∧ t.ready = s.ready ∧ t.enc = s.enc ∧ t.dec = s.dec ∧ t.inbox = s.inbox

end Sys2Proof.Machine
end

