-- ==== Sys2Proof/Certificates/Slice0/Obligations.lean ====
section
/-! DEFINITION. The statements about the model. Each docstring names the rule of spec/ it
formalises. `t = s.withEnc { s.enc with … }` is a frame: every field not named is as before. -/

open Sys2Proof Sys2Proof.Machine

/-! ## Encodings (30_encoding.md) -/

/-- Words the spec writes out (30_encoding.md R100, 95_test_vectors.md V10 to V12, V20 to V23,
V50) decode to the instructions it says they are. -/
def Obligations.DecodesTheSpecsOwnWords : Prop :=
  decode 8 (.htw 0x8000000000000001) = .ok .encStart ∧
  decode 8 (.htw 0x80000000FFFFFFFF) = .ok .encStart ∧
  decode 8 (.htw 0xC000000000000001) = .ok .decStart ∧
  decode 8 (.htw 0x80000000FFFFFFFE) = .ok (.ctrlNop .enc) ∧
  decode 8 (.htw 0xC000000200000010) = .ok (.wrIlen .dec 16) ∧
  decode 8 (.htw 0xD000000600000141) = .ok (.wrIbuf .dec 6 0x141) ∧
  decode 8 (.htw 0x0000000000000000) = .ok (.rdCtrl .enc) ∧
  decode 8 (.htw 0x4000000100000000) = .ok (.rdStatus .dec) ∧
  decode 8 (.htw 0x0000000200000000) = .ok (.rdIlen .enc) ∧
  decode 8 (.htw 0x0000000300000000) = .ok (.rdOlen .enc) ∧
  decode 8 (.htw 0x4000000400000000) = .ok (.rdGp .dec) ∧
  decode 8 (.htw 0x1000000A00000000) = .ok (.rdIbuf .enc 10) ∧
  decode 8 (.htw 0x2000000F00000000) = .ok (.rdObuf .enc 15) ∧
  decode 8 (.htw 0x1000010000000000) = .ok (.htRsvd 0x1000010000000000) ∧
  decode 8 (.egd 0x368656C) = .ok (.encG3 0x68 0x65 0x6C) ∧
  decode 8 (.egd 0x26C6400) = .ok (.encG2 0x6C 0x64) ∧
  decode 8 (.egd 0x14D0000) = .ok (.encG1 0x4D) ∧
  decode 8 (.qcw 0x100) = .ok (.decQ4 true) ∧
  decode 8 (.qcw 0x101) = .ok .decQ3 ∧
  decode 8 (.qcw 0x105) = .ok .decQ2 ∧
  decode 8 (.qcw 0x018) = .ok (.decRej false .D .P .X .D)

/-- Decoding the encoding of a well-formed instruction gives it back, every operand at every
value, at every LENW. -/
def Obligations.DecodeEncodeRoundTrip : Prop :=
  ∀ (lenw : Nat) (i : Instr), i.WellFormed lenw = true → decode lenw (encode i) = .ok i

/-- R100, R104, U5: every 64-bit word is exactly one host transaction, well-formed at this LENW,
and encoding what it decodes to keeps its fields rw, unit, space and addr. The selector words that
are no instruction are exactly those with `cnt = 0b00` or a class code `0b11`; that they are
refused is the model's choice (log entry 8). -/
def Obligations.EveryHostWordIsATransaction : Prop :=
  ∀ lenw : Nat,
    (∀ w : BitVec 64, ∃ i v, decode lenw (.htw w) = .ok i ∧
      i.WellFormed lenw = true ∧ i.isTransaction = true ∧ i.unit = unitOfBit (htwUnit w) ∧
      i.isRead = decide (htwRw w = 0) ∧ encode i = .htw v ∧ htwRw v = htwRw w ∧
      htwUnit v = htwUnit w ∧ htwSpace v = htwSpace w ∧ htwAddr v = htwAddr w) ∧
    (∀ w : BitVec 26, decode lenw (.egd w) = .error .groupCountZero ↔ w.toNat / 2 ^ 24 = 0) ∧
    (∀ w : BitVec 9, decode lenw (.qcw w) = .error .classCodeReserved ↔
      ∃ j < 4, w.toNat / 4 ^ j % 4 = 3)

/-- R100: the first row of the opcode table that matches decides; likewise for the rows of EGD26
(R97) and QCW9 (R98). -/
def Obligations.DecoderFollowsTheOpcodeTable : Prop :=
  ∀ (lenw : Nat) (e : Encoded) (i : Instr), decode lenw e = .ok i →
    tableRow lenw e = some i.row

/-- R95: `Rev(c) = D(i)` when `c = A[i]`, `Rev('=') = P`, and `X` for each of the other 191 codes.
-/
def Obligations.ReverseTableInvertsTheAlphabet : Prop :=
  (∀ i : Idx, rev (alphabet i) = .D i) ∧
  rev 0x3D = .P ∧
  (∀ c : Byte, c ≠ 0x3D → (∀ i : Idx, c ≠ alphabet i) → rev c = .X) ∧
  ((List.range 256).filter fun n => rev (BitVec.ofNat 8 n) = .X).length = 191

/-! ## The functions `encode` and `decode` (40_encoder.md, 41_decoder.md) -/

/-- R125, R127: group `g` of the output is EncGroup of group `g` of the input, and the output is
these groups and nothing more (the length law). -/
def Obligations.EncodeIsGroupByGroup : Prop :=
  ∀ b : List Byte, (b64Encode b).length = 4 * ((b.length + 2) / 3) ∧
    ∀ g < (b.length + 2) / 3,
      ((b64Encode b).drop (4 * g)).take 4 = encGroup ((b.drop (3 * g)).take 3)

/-- R128: the padding law; the last clause says no `=` occurs anywhere else. -/
def Obligations.PaddingLaw : Prop :=
  ∀ b : List Byte,
    (b.length % 3 = 1 ↔ [padChar, padChar] <:+ b64Encode b) ∧
    (b.length % 3 = 2 ↔ [padChar] <:+ b64Encode b ∧ ¬ [padChar, padChar] <:+ b64Encode b) ∧
    (b.length % 3 = 0 ↔ ¬ [padChar] <:+ b64Encode b) ∧
    (b64Encode b).count padChar = (3 - b.length % 3) % 3

/-- R129: closure of the output alphabet; every output cell has bit 7 clear. -/
def Obligations.OutputAlphabetClosure : Prop :=
  ∀ b : List Byte, ∀ c ∈ b64Encode b,
    ((∃ i : Idx, c = alphabet i) ∨ c = 0x3D) ∧ c.getLsbD 7 = false

/-- R132: `decode(encode(b)) = b` for every byte sequence, hence `encode` is injective. -/
def Obligations.DecodeOfEncodeIsIdentity : Prop :=
  (∀ b : List Byte, b64Decode (b64Encode b) = .bytes b) ∧ Function.Injective b64Encode

/-- R166 (the spec's own inference): `encode(decode(t)) = t`, so the accepted texts are exactly
the outputs of `encode`, and `decode` is injective on them. -/
def Obligations.AcceptedTextsAreTheEncodings : Prop :=
  (∀ t b : List Byte, b64Decode t = .bytes b ↔ t = b64Encode b) ∧
  (∀ t t' b : List Byte, b64Decode t = .bytes b → b64Decode t' = .bytes b → t = t')

/-- R134 (the spec's own inference): concatenation at a multiple of three bytes; without the
premise the equation fails, and the text may not even be valid. -/
def Obligations.EncodeOfConcatenation : Prop :=
  (∀ x y : List Byte, x.length % 3 = 0 → b64Encode (x ++ y) = b64Encode x ++ b64Encode y) ∧
  b64Encode ([0] ++ [0]) ≠ b64Encode [0] ++ b64Encode [0] ∧
  ∀ b : List Byte, b64Decode (b64Encode [0] ++ b64Encode [0]) ≠ .bytes b

/-- R168 (the spec's own inference): the length of the decoded bytes, with `p` pad characters. -/
def Obligations.DecodedLengthLaw : Prop :=
  ∀ t b : List Byte, b64Decode t = .bytes b →
    t.count padChar ≤ 2 ∧ b.length = 3 * (t.length / 4) - t.count padChar

/-- R157 (the spec's own inference): the quad-by-quad `decode` accepts exactly the texts XM's
whole-text conditions accept: the length, the characters, the padding at the very end, the
discarded bits. -/
def Obligations.WholeTextValidation : Prop :=
  ∀ t : List Byte, (∃ b, b64Decode t = .bytes b) ↔
    t.length % 4 = 0 ∧
    ∃ body k, k ≤ 2 ∧ t = body ++ List.replicate k padChar ∧
      (∀ c ∈ body, ∃ v, rev c = .D v) ∧
      (∀ c v, body.getLast? = some c → rev c = .D v →
        (k = 1 → v.extractLsb' 0 2 = 0) ∧ (k = 2 → v.extractLsb' 0 4 = 0))

/-- R170: which cause a rejected text reports, in its three steps: BADLEN by the length alone;
else the first rejected quad; in it BADCHAR before BADPAD before NONCANON. -/
def Obligations.FirstCauseFoundIsReported : Prop :=
  (∀ t : List Byte, t.length % 4 ≠ 0 → b64Decode t = .formatError .badLen 0) ∧
  (∀ (t : List Byte) (q : Nat) (c : Cause), t.length % 4 = 0 → q < t.length / 4 →
    (∀ q' < q, ∃ bs, quadOfText t q' = .ok bs) → quadOfText t q = .reject c →
    b64Decode t = .formatError c q) ∧
  (∀ (final : Bool) (c0 c1 c2 c3 : Byte) (c : Cause), decQuad final c0 c1 c2 c3 = .reject c →
    c = if rev c0 = .X ∨ rev c1 = .X ∨ rev c2 = .X ∨ rev c3 = .X then .badChar
      else if acceptedShape final (rev c0).kls (rev c1).kls (rev c2).kls (rev c3).kls then .nonCanon
      else .badPad)

/-! ## Host transactions (42_sequencer_and_host.md section 4) -/

/-- R200, R69: no transaction ever fails; a write returns nothing, a read returns 32 bits and
changes nothing of the block; the other unit is not changed and what is returned does not depend
on it. That an unspecified answer too does not depend on the other unit rests on how the model
indexes its free values (log entry 7). -/
def Obligations.TransactionsNeverFail : Prop :=
  ∀ (i : Instr) (s : State), i.isTransaction = true →
    ∃ t, exec i s = .next t ∧ (t.resp.isSome ↔ i.isRead = true) ∧
      (i.isRead = true → onlyAnswered s t) ∧
      t.lenw = s.lenw ∧ t.ready = s.ready ∧ t.inbox = s.inbox ∧
      (i.unit = .enc → t.dec = s.dec ∧ ∀ d, ∃ t', exec i (s.withDec d) = .next t' ∧
        t'.resp = t.resp ∧ t'.enc = t.enc) ∧
      (i.unit = .dec → t.enc = s.enc ∧ ∀ e, ∃ t', exec i (s.withEnc e) = .next t' ∧
        t'.resp = t.resp ∧ t'.dec = t.dec)

/-- R32 and R208: RD.STATUS bit by bit, exact in every state, BUSY included. -/
def Obligations.StatusReadBitByBit : Prop :=
  ∀ (u : UnitId) (s : State), ∃ w, exec (.rdStatus u) s = .next (s.withResp (some w)) ∧
    w.getLsbD 0 = decide (stOf u s = .busy) ∧
    w.getLsbD 1 = decide (stOf u s = .done) ∧
    w.getLsbD 2 = (decide (u = .dec) && s.dec.err) ∧
    w.getLsbD 3 = false ∧
    w.extractLsb' 4 3 = (match u, s.dec.cause with
      | .enc, _ => 0
      | .dec, .none => 0
      | .dec, .badLen => 1
      | .dec, .badChar => 2
      | .dec, .badPad => 3
      | .dec, .nonCanon => 4) ∧
    w.extractLsb' 7 25 = 0

/-- R32: the values STATUS can take, once the block has been reset, in every state that meets the
invariant. -/
def Obligations.StatusTakesOnlyTheListedValues : Prop :=
  ∀ s : State, Inv s → s.ready = true →
    statusOf .enc s ∈ [0x00, 0x01, 0x02] ∧
    statusOf .dec s ∈ [0x00, 0x01, 0x02, 0x16, 0x26, 0x36, 0x46]

/-- R209, R210, R211, R214: RD.CTRL returns 0 and RD.ILEN is exact in every state; RD.OLEN and
RD.GP are exact while the unit is not BUSY and return some 32-bit value while it is; nothing of
the block changes. -/
def Obligations.RegisterReads : Prop :=
  ∀ (u : UnitId) (s : State),
    exec (.rdCtrl u) s = .next (s.withResp (some 0)) ∧
    (∃ v, exec (.rdIlen u) s = .next (s.withResp (some v)) ∧
      (ilenOf u s < 2 ^ 32 → v.toNat = ilenOf u s)) ∧
    (stOf u s ≠ .busy →
      (∃ v, exec (.rdOlen u) s = .next (s.withResp (some v)) ∧
        (olenOf u s < 2 ^ 32 → v.toNat = olenOf u s)) ∧
      (∃ v, exec (.rdGp u) s = .next (s.withResp (some v)) ∧
        (gpOf u s < 2 ^ 32 → v.toNat = gpOf u s))) ∧
    (stOf u s = .busy →
      (∃ t v, exec (.rdOlen u) s = .next t ∧ t.resp = some v ∧ onlyAnswered s t) ∧
      (∃ t v, exec (.rdGp u) s = .next t ∧ t.resp = some v ∧ onlyAnswered s t))

/-- R206, R207, R71: a cell read returns the cell zero-extended while the unit is not BUSY and the
cell holds a value, else some 32-bit value; out of range it returns 0. -/
def Obligations.CellReads : Prop :=
  ∀ (u : UnitId) (a : BitVec 28) (s : State),
    (a.toNat < ibufCells s.lenw u → ∃ t v, exec (.rdIbuf u a) s = .next t ∧ t.resp = some v ∧
      onlyAnswered s t ∧
      ∀ b, stOf u s ≠ .busy → (ibufOf u s).read a.toNat = some b → v.toNat = b.toNat) ∧
    (a.toNat < obufCells s.lenw → ∃ t v, exec (.rdObuf u a) s = .next t ∧ t.resp = some v ∧
      onlyAnswered s t ∧
      ∀ b, stOf u s ≠ .busy → (obufOf u s).read a.toNat = some b → v.toNat = b.toNat) ∧
    (ibufCells s.lenw u ≤ a.toNat → exec (.rdIbuf u a) s = .next (s.withResp (some 0))) ∧
    (obufCells s.lenw ≤ a.toNat → exec (.rdObuf u a) s = .next (s.withResp (some 0)))

/-- R201, R202: ENC.START and DEC.START, accepted and (while BUSY) ignored, with everything they
leave alone. -/
def Obligations.StartCommands : Prop :=
  ∀ s : State,
    (s.enc.st = .busy → exec .encStart s = .next (s.withResp none)) ∧
    (s.enc.st ≠ .busy → exec .encStart s =
      .next ((s.withEnc { s.enc with olen := 0, gp := 0, st := .busy }).withResp none)) ∧
    (s.dec.st = .busy → exec .decStart s = .next (s.withResp none)) ∧
    (s.dec.st ≠ .busy → exec .decStart s =
      .next ((s.withDec { s.dec with
        olen := 0, gp := 0, err := false, cause := .none
        phase := .lenchk, st := .busy }).withResp none))

/-- R204, R215: CTRL.NOP and a reserved write change nothing in any state; a reserved read returns
0. -/
def Obligations.NopAndReservedChangeNothing : Prop :=
  ∀ (u : UnitId) (w : BitVec 64) (s : State),
    exec (.ctrlNop u) s = .next (s.withResp none) ∧
    (htwRw w = 1 → exec (.htRsvd w) s = .next (s.withResp none)) ∧
    (htwRw w = 0 → exec (.htRsvd w) s = .next (s.withResp (some 0)))

/-- R203: WR.ILEN, cut to LENW bits in ENC and LENW+1 in DEC, ignored while BUSY. -/
def Obligations.WriteIlenCutsToTheRegister : Prop :=
  ∀ (v : HostWord) (s : State),
    exec (.wrIlen .enc v) s = .next (if s.enc.st = .busy then s.withResp none
      else (s.withEnc { s.enc with ilen := v.toNat % 2 ^ s.lenw }).withResp none) ∧
    exec (.wrIlen .dec v) s = .next (if s.dec.st = .busy then s.withResp none
      else (s.withDec { s.dec with ilen := v.toNat % 2 ^ (s.lenw + 1) }).withResp none)

/-- R205, R65: WR.IBUF stores bits 7:0 in the one cell and leaves every other alone; ignored while
BUSY and (R71) out of range. -/
def Obligations.WriteIbufStoresOneCell : Prop :=
  ∀ (u : UnitId) (a : BitVec 28) (v : HostWord) (s : State),
    (stOf u s = .busy ∨ ibufCells s.lenw u ≤ a.toNat →
      exec (.wrIbuf u a v) s = .next (s.withResp none)) ∧
    (stOf u s ≠ .busy → a.toNat < ibufCells s.lenw u →
      ∃ t, exec (.wrIbuf u a v) s = .next t ∧
        t = (setIbuf u (ibufOf u t) s).withResp none ∧
        (ibufOf u t).read a.toNat = some (BitVec.ofNat 8 (v.toNat % 256)) ∧
        sameOutside a.toNat 1 (ibufOf u s) (ibufOf u t))

/-- R76: while a unit is BUSY no transaction to it changes anything of the block. -/
def Obligations.BusyUnitIsLockedOut : Prop :=
  ∀ (i : Instr) (s : State), i.isTransaction = true → stOf i.unit s = .busy →
    ∃ t, exec i s = .next t ∧ onlyAnswered s t

/-- R213, R44: no transaction tells one BUSY state of a unit from another with the same ILEN:
buffers, OLEN, GP, PHASE and the holding registers are not observable. U2 allows any value for
the inexact reads; that both states answer the same one rests on the model's free values being
indexed by the counter `free` alone (log entry 7, DESIGN CHOICE). -/
def Obligations.BusyStatesAreIndistinguishable : Prop :=
  ∀ (i : Instr) (s : State), i.isTransaction = true →
    (∀ e : EncUnit, s.enc.st = .busy → e.st = .busy → e.ilen = s.enc.ilen →
      ∃ t t', exec i s = .next t ∧ exec i (s.withEnc e) = .next t' ∧ t.resp = t'.resp ∧
        t.dec = t'.dec ∧ t.free = t'.free) ∧
    (∀ d : DecUnit, s.dec.st = .busy → d.st = .busy → d.ilen = s.dec.ilen → d.err = s.dec.err →
      d.cause = s.dec.cause →
      ∃ t t', exec i s = .next t ∧ exec i (s.withDec d) = .next t' ∧ t.resp = t'.resp ∧
        t.enc = t'.enc ∧ t.free = t'.free)

/-! ## Group operations (40_encoder.md) -/

/-- R121 with R90's byte view: ENC.G3 writes four data characters to cells `4g .. 4g+3` of OBUF,
and nothing else but OLEN and GP changes. -/
def Obligations.FullGroup : Prop :=
  ∀ (s : State) (b0 b1 b2 : Byte), s.enc.st = .busy → s.enc.gp < (s.enc.ilen + 2) / 3 →
    ∃ t, exec (.encG3 b0 b1 b2) s = .next t ∧
      t = s.withEnc { s.enc with
        obuf := t.enc.obuf, olen := s.enc.olen + 4, gp := s.enc.gp + 1 } ∧
      t.enc.obuf.read (4 * s.enc.gp) = some (alphabet (b0.extractLsb' 2 6)) ∧
      t.enc.obuf.read (4 * s.enc.gp + 1) =
        some (alphabet (b0.extractLsb' 0 2 ++ b1.extractLsb' 4 4)) ∧
      t.enc.obuf.read (4 * s.enc.gp + 2) =
        some (alphabet (b1.extractLsb' 0 4 ++ b2.extractLsb' 6 2)) ∧
      t.enc.obuf.read (4 * s.enc.gp + 3) = some (alphabet (b2.extractLsb' 0 6)) ∧
      sameOutside (4 * s.enc.gp) 4 s.enc.obuf t.enc.obuf

/-- R122, R123: ENC.G2 writes three data characters and one `=`, its third index a multiple of 4;
ENC.G1 writes two and `==`, its second index a multiple of 16. -/
def Obligations.PartialGroups : Prop :=
  ∀ (s : State) (b0 b1 : Byte), s.enc.st = .busy → s.enc.gp < (s.enc.ilen + 2) / 3 →
    (∃ t, exec (.encG2 b0 b1) s = .next t ∧
      t = s.withEnc { s.enc with
        obuf := t.enc.obuf, olen := s.enc.olen + 4, gp := s.enc.gp + 1 } ∧
      t.enc.obuf.read (4 * s.enc.gp) = some (alphabet (BitVec.ofNat 6 (b0.toNat / 4))) ∧
      t.enc.obuf.read (4 * s.enc.gp + 1) =
        some (alphabet (BitVec.ofNat 6 (b0.toNat % 4 * 16 + b1.toNat / 16))) ∧
      t.enc.obuf.read (4 * s.enc.gp + 2) =
        some (alphabet (BitVec.ofNat 6 (b1.toNat % 16 * 4))) ∧
      t.enc.obuf.read (4 * s.enc.gp + 3) = some 0x3D ∧
      sameOutside (4 * s.enc.gp) 4 s.enc.obuf t.enc.obuf) ∧
    (∃ t, exec (.encG1 b0) s = .next t ∧
      t = s.withEnc { s.enc with
        obuf := t.enc.obuf, olen := s.enc.olen + 4, gp := s.enc.gp + 1 } ∧
      t.enc.obuf.read (4 * s.enc.gp) = some (alphabet (BitVec.ofNat 6 (b0.toNat / 4))) ∧
      t.enc.obuf.read (4 * s.enc.gp + 1) =
        some (alphabet (BitVec.ofNat 6 (b0.toNat % 4 * 16))) ∧
      t.enc.obuf.read (4 * s.enc.gp + 2) = some 0x3D ∧
      t.enc.obuf.read (4 * s.enc.gp + 3) = some 0x3D ∧
      sameOutside (4 * s.enc.gp) 4 s.enc.obuf t.enc.obuf)

/-! ## Quad operations (41_decoder.md) -/

/-- R151: DEC.Q4 is accepted in the VALIDATE phase, where only GP moves, and writes the three
bytes of `v0 ++ v1 ++ v2 ++ v3` in the DECODE phase (R196, R197). -/
def Obligations.FourDataQuad : Prop :=
  ∀ (s : State) (fin : Bool) (c0 c1 c2 c3 : Byte) (v0 v1 v2 v3 : Idx),
    s.dec.st = .busy → s.dec.gp < s.dec.ilen / 4 → s.dec.quad = c0 ++ c1 ++ c2 ++ c3 →
    rev c0 = .D v0 → rev c1 = .D v1 → rev c2 = .D v2 → rev c3 = .D v3 →
    (s.dec.phase = .validate → exec (.decQ4 fin) s =
      .next (s.withDec { s.dec with gp := s.dec.gp + 1 })) ∧
    (s.dec.phase = .decode → ∃ t, exec (.decQ4 fin) s = .next t ∧
      t = s.withDec { s.dec with
        obuf := t.dec.obuf, olen := 3 * s.dec.gp + 3, gp := s.dec.gp + 1 } ∧
      t.dec.obuf.read (3 * s.dec.gp) =
        some (BitVec.ofNat 8 (v0.toNat * 4 + v1.toNat / 16)) ∧
      t.dec.obuf.read (3 * s.dec.gp + 1) =
        some (BitVec.ofNat 8 (v1.toNat % 16 * 16 + v2.toNat / 4)) ∧
      t.dec.obuf.read (3 * s.dec.gp + 2) =
        some (BitVec.ofNat 8 (v2.toNat % 4 * 64 + v3.toNat)) ∧
      sameOutside (3 * s.dec.gp) 3 s.dec.obuf t.dec.obuf)

/-- R152: DEC.Q3 with its two discarded bits 0 is accepted and writes two bytes; with a discarded
bit set it is rejected as NONCANON in the VALIDATE phase (R162: no permissive mode). That PHASE
and the holding registers keep their values when the exception is raised is the model's choice
(log entry 7). -/
def Obligations.ThreeDataQuad : Prop :=
  ∀ (s : State) (c0 c1 c2 : Byte) (v0 v1 v2 : Idx),
    s.dec.st = .busy → s.dec.gp < s.dec.ilen / 4 → s.dec.quad = c0 ++ c1 ++ c2 ++ 0x3D#8 →
    rev c0 = .D v0 → rev c1 = .D v1 → rev c2 = .D v2 →
    (s.dec.phase = .validate → v2.toNat % 4 = 0 →
      exec .decQ3 s = .next (s.withDec { s.dec with gp := s.dec.gp + 1 })) ∧
    (s.dec.phase = .validate → v2.toNat % 4 ≠ 0 →
      exec .decQ3 s = .next (s.withDec { s.dec with
        err := true, cause := .nonCanon, olen := 0, st := .done })) ∧
    (s.dec.phase = .decode → v2.toNat % 4 = 0 → ∃ t, exec .decQ3 s = .next t ∧
      t = s.withDec { s.dec with
        obuf := t.dec.obuf, olen := 3 * s.dec.gp + 2, gp := s.dec.gp + 1 } ∧
      t.dec.obuf.read (3 * s.dec.gp) =
        some (BitVec.ofNat 8 (v0.toNat * 4 + v1.toNat / 16)) ∧
      t.dec.obuf.read (3 * s.dec.gp + 1) =
        some (BitVec.ofNat 8 (v1.toNat % 16 * 16 + v2.toNat / 4)) ∧
      sameOutside (3 * s.dec.gp) 2 s.dec.obuf t.dec.obuf)

/-- R153: DEC.Q2 with its four discarded bits 0 is accepted and writes one byte; with a discarded
bit set it is rejected as NONCANON in the VALIDATE phase. That PHASE and the holding registers
keep their values when the exception is raised is the model's choice (log entry 7). -/
def Obligations.TwoDataQuad : Prop :=
  ∀ (s : State) (c0 c1 : Byte) (v0 v1 : Idx),
    s.dec.st = .busy → s.dec.gp < s.dec.ilen / 4 →
    s.dec.quad = c0 ++ c1 ++ 0x3D#8 ++ 0x3D#8 → rev c0 = .D v0 → rev c1 = .D v1 →
    (s.dec.phase = .validate → v1.toNat % 16 = 0 →
      exec .decQ2 s = .next (s.withDec { s.dec with gp := s.dec.gp + 1 })) ∧
    (s.dec.phase = .validate → v1.toNat % 16 ≠ 0 →
      exec .decQ2 s = .next (s.withDec { s.dec with
        err := true, cause := .nonCanon, olen := 0, st := .done })) ∧
    (s.dec.phase = .decode → v1.toNat % 16 = 0 → ∃ t, exec .decQ2 s = .next t ∧
      t = s.withDec { s.dec with
        obuf := t.dec.obuf, olen := 3 * s.dec.gp + 1, gp := s.dec.gp + 1 } ∧
      t.dec.obuf.read (3 * s.dec.gp) =
        some (BitVec.ofNat 8 (v0.toNat * 4 + v1.toNat / 16)) ∧
      sameOutside (3 * s.dec.gp) 1 s.dec.obuf t.dec.obuf)

/-- R154, R226: DEC.REJ raises FormatError in the VALIDATE phase, BADCHAR if any class is X and
else BADPAD; nothing but ERR, CAUSE, OLEN and ST changes. That PHASE and the holding registers
keep their values when the exception is raised is the model's choice (log entry 7). -/
def Obligations.RejectedQuadRaises : Prop :=
  ∀ (s : State) (fin : Bool) (k0 k1 k2 k3 : Kls),
    s.dec.st = .busy → s.dec.phase = .validate → s.dec.gp < s.dec.ilen / 4 →
    exec (.decRej fin k0 k1 k2 k3) s = .next (s.withDec { s.dec with
      err := true, cause := if Kls.X ∈ [k0, k1, k2, k3] then .badChar else .badPad,
      olen := 0, st := .done })

/-- R107, R190: outside the step that issues them, the group and quad operations have no meaning:
they are refused by name. The refusal is the model's (log entry 9). -/
def Obligations.GroupAndQuadOpsAreNotTheHosts : Prop :=
  ∀ (i : Instr) (s : State), i.isTransaction = false →
    (i.unit = .enc → s.enc.st ≠ .busy → exec i s = .refused .notIssued) ∧
    (i.unit = .dec → s.dec.st ≠ .busy → exec i s = .refused .notIssued)

/-! ## One step of the block (42_sequencer_and_host.md sections 1 to 3) -/

/-- A step runs the decoded transaction (R191, R200): the word at the head of the inbox is taken
off and `exec` of what it decodes to is the step. -/
def Obligations.StepRunsTheTransaction : Prop :=
  ∀ (s : State) (w : BitVec 64) (es : List Event) (i : Instr), s.ready = true →
    s.inbox = .host w :: es → decode s.lenw (.htw w) = .ok i →
    step s = exec i (s.withInbox es)

/-- A turn of ENC runs the group operation its descriptor selects (R193, R97), with CNT and GRP
loaded from the group's cells and zeros for the bytes a partial group lacks. The turn stands in
the model's list of coming transitions (log entry 3). -/
def Obligations.EncTurnRunsTheGroupOperation : Prop :=
  ∀ (s : State) (es : List Event), s.ready = true → s.inbox = .encTurn :: es →
    s.enc.st = .busy → s.enc.gp < (s.enc.ilen + 2) / 3 →
    (∀ b0 b1 b2 : Byte, 3 ≤ s.enc.ilen - 3 * s.enc.gp →
      s.enc.ibuf.readCells (3 * s.enc.gp) 3 = .ok [b0, b1, b2] →
      step s = exec (.encG3 b0 b1 b2) ((s.withInbox es).withEnc { s.enc with
        cnt := 3, grp := b0 ++ b1 ++ b2 })) ∧
    (∀ b0 b1 : Byte, s.enc.ilen - 3 * s.enc.gp = 2 →
      s.enc.ibuf.readCells (3 * s.enc.gp) 2 = .ok [b0, b1] →
      step s = exec (.encG2 b0 b1) ((s.withInbox es).withEnc { s.enc with
        cnt := 2, grp := b0 ++ b1 ++ 0#8 })) ∧
    (∀ b0 : Byte, s.enc.ilen - 3 * s.enc.gp = 1 →
      s.enc.ibuf.readCells (3 * s.enc.gp) 1 = .ok [b0] →
      step s = exec (.encG1 b0) ((s.withInbox es).withEnc { s.enc with
        cnt := 1, grp := b0 ++ 0#8 ++ 0#8 }))

/-- A turn of DEC with a quad to do runs the quad operation its class word selects (R196, R197,
R98), with QUAD, FIN and KLS loaded. The turn stands in the model's list of coming transitions
(log entry 3). -/
def Obligations.DecTurnRunsTheQuadOperation : Prop :=
  ∀ (s : State) (es : List Event) (c0 c1 c2 c3 : Byte), s.ready = true →
    s.inbox = .decTurn :: es → s.dec.st = .busy → s.dec.phase ≠ .lenchk →
    s.dec.gp < s.dec.ilen / 4 →
    s.dec.ibuf.readCells (4 * s.dec.gp) 4 = .ok [c0, c1, c2, c3] →
    step s = exec
      (selectQuadOp (decide (s.dec.gp = s.dec.ilen / 4 - 1)) (rev c0).kls (rev c1).kls (rev c2).kls
        (rev c3).kls)
      ((s.withInbox es).withDec { s.dec with
        quad := c0 ++ c1 ++ c2 ++ c3
        fin := if s.dec.gp = s.dec.ilen / 4 - 1 then 1 else 0
        kls := klsCode (rev c0).kls ++ klsCode (rev c1).kls ++ klsCode (rev c2).kls
          ++ klsCode (rev c3).kls })

/-- R193: ENC.STEP from start to end: the group's cells become EncGroup's characters, and only CNT,
GRP, four cells of OBUF, OLEN and GP change. The turn stands in the model's list of coming
transitions (log entry 3). -/
def Obligations.EncStepEncodesOneGroup : Prop :=
  ∀ (s : State) (es : List Event) (bs : List Byte), s.ready = true →
    s.inbox = .encTurn :: es → s.enc.st = .busy → s.enc.gp < (s.enc.ilen + 2) / 3 →
    s.enc.ibuf.readCells (3 * s.enc.gp) (min 3 (s.enc.ilen - 3 * s.enc.gp)) = .ok bs →
    ∃ t, step s = .next t ∧
      t = (s.withInbox es).withEnc { s.enc with
        cnt := t.enc.cnt, grp := t.enc.grp, obuf := t.enc.obuf
        olen := s.enc.olen + 4, gp := s.enc.gp + 1 } ∧
      t.enc.cnt.toNat = bs.length ∧
      t.enc.grp.toNat = (bs.getD 0 0).toNat * 2 ^ 16 + (bs.getD 1 0).toNat * 2 ^ 8
        + (bs.getD 2 0).toNat ∧
      t.enc.obuf.readCells (4 * s.enc.gp) 4 = .ok (encGroup bs) ∧
      sameOutside (4 * s.enc.gp) 4 s.enc.obuf t.enc.obuf

/-- R196: DEC.VSTEP follows DecQuad: an accepted quad moves GP, a rejected one raises with its
cause and leaves GP; nothing is written to OBUF or OLEN but OLEN's clearing by the exception.
The turn stands in the model's list of coming transitions (log entry 3). That PHASE and the
holding registers keep their values when the exception is raised is the model's choice (log
entry 7). -/
def Obligations.ValidateStepFollowsDecQuad : Prop :=
  ∀ (s : State) (es : List Event) (c0 c1 c2 c3 : Byte), s.ready = true →
    s.inbox = .decTurn :: es → s.dec.st = .busy → s.dec.phase = .validate →
    s.dec.gp < s.dec.ilen / 4 →
    s.dec.ibuf.readCells (4 * s.dec.gp) 4 = .ok [c0, c1, c2, c3] →
    ∃ t, step s = .next t ∧
      t.dec.quad = c0 ++ c1 ++ c2 ++ c3 ∧
      t.dec.fin = BitVec.ofBool (decide (s.dec.gp = s.dec.ilen / 4 - 1)) ∧
      t.dec.kls = klsCode (rev c0).kls ++ klsCode (rev c1).kls ++ klsCode (rev c2).kls
        ++ klsCode (rev c3).kls ∧
      match decQuad (decide (s.dec.gp = s.dec.ilen / 4 - 1)) c0 c1 c2 c3 with
      | .ok _ => t = (s.withInbox es).withDec { s.dec with
          quad := t.dec.quad, fin := t.dec.fin, kls := t.dec.kls, gp := s.dec.gp + 1 }
      | .reject c => t = (s.withInbox es).withDec { s.dec with
          quad := t.dec.quad, fin := t.dec.fin, kls := t.dec.kls
          err := true, cause := c, olen := 0, st := .done }

/-- R197: DEC.DSTEP loads the quad and writes the `k` bytes of an accepted one to cells `3q ..
3q+k-1` of OBUF; `k < 3` only for the final quad. The turn stands in the model's list of coming
transitions (log entry 3). -/
def Obligations.DecodeStepWritesTheBytes : Prop :=
  ∀ (s : State) (es : List Event) (c0 c1 c2 c3 : Byte) (bs : List Byte), s.ready = true →
    s.inbox = .decTurn :: es → s.dec.st = .busy → s.dec.phase = .decode →
    s.dec.gp < s.dec.ilen / 4 →
    s.dec.ibuf.readCells (4 * s.dec.gp) 4 = .ok [c0, c1, c2, c3] →
    decQuad (decide (s.dec.gp = s.dec.ilen / 4 - 1)) c0 c1 c2 c3 = .ok bs →
    1 ≤ bs.length ∧ bs.length ≤ 3 ∧ (bs.length < 3 → s.dec.gp = s.dec.ilen / 4 - 1) ∧
    ∃ t, step s = .next t ∧
      t = (s.withInbox es).withDec { s.dec with
        quad := t.dec.quad, fin := t.dec.fin, kls := t.dec.kls, obuf := t.dec.obuf
        olen := 3 * s.dec.gp + bs.length, gp := s.dec.gp + 1 } ∧
      t.dec.quad = c0 ++ c1 ++ c2 ++ c3 ∧
      t.dec.fin = BitVec.ofBool (decide (s.dec.gp = s.dec.ilen / 4 - 1)) ∧
      t.dec.kls = klsCode (rev c0).kls ++ klsCode (rev c1).kls ++ klsCode (rev c2).kls
        ++ klsCode (rev c3).kls ∧
      t.dec.obuf.readCells (3 * s.dec.gp) bs.length = .ok bs ∧
      sameOutside (3 * s.dec.gp) bs.length s.dec.obuf t.dec.obuf

/-- R194, R195, R198, R199: the steps that run no word: ENC.END, DEC.LCHK (BADLEN depends on the
length alone: no cell is read), DEC.VEND and DEC.DEND, each with all it leaves alone. The turn
stands in the model's list of coming transitions (log entry 3). That PHASE and the holding
registers keep their values when the exception is raised is the model's choice (log entry 7). -/
def Obligations.StepsSelectedByStateAlone : Prop :=
  ∀ (s : State) (es : List Event), s.ready = true →
    (s.inbox = .encTurn :: es → s.enc.st = .busy → s.enc.gp = (s.enc.ilen + 2) / 3 →
      step s = .next ((s.withInbox es).withEnc { s.enc with st := .done })) ∧
    (s.inbox = .decTurn :: es → s.dec.st = .busy →
      (s.dec.phase = .lenchk → s.dec.ilen % 4 ≠ 0 →
        step s = .next ((s.withInbox es).withDec { s.dec with
          err := true, cause := .badLen, olen := 0, st := .done })) ∧
      (s.dec.phase = .lenchk → s.dec.ilen % 4 = 0 →
        step s = .next ((s.withInbox es).withDec { s.dec with phase := .validate })) ∧
      (s.dec.phase = .validate → s.dec.gp = s.dec.ilen / 4 →
        step s = .next ((s.withInbox es).withDec { s.dec with phase := .decode, gp := 0 })) ∧
      (s.dec.phase = .decode → s.dec.gp = s.dec.ilen / 4 →
        step s = .next ((s.withInbox es).withDec { s.dec with st := .done })))

/-- R190: a unit that is not BUSY takes no step: its turn changes nothing. With nothing listed and
no unit BUSY the state stays; a BUSY unit goes on (log entry 3: ENC first). -/
def Obligations.OnlyBusyUnitsStep : Prop :=
  ∀ (s : State) (es : List Event), s.ready = true →
    (s.inbox = .encTurn :: es → s.enc.st ≠ .busy → step s = .next (s.withInbox es)) ∧
    (s.inbox = .decTurn :: es → s.dec.st ≠ .busy → step s = .next (s.withInbox es)) ∧
    (s.inbox = [] → s.enc.st ≠ .busy → s.dec.st ≠ .busy → step s = .next s) ∧
    (s.inbox = [] → s.enc.st = .busy → step s = step (s.withInbox [.encTurn])) ∧
    (s.inbox = [] → s.enc.st ≠ .busy → s.dec.st = .busy → step s = step (s.withInbox [.decTurn]))

/-- R46, U3: a step that reads a cell holding no value has no result: the model stops, naming a cell
of the group or quad that holds none. The stop is the model's (log entry 10). -/
def Obligations.ValuelessCellStopsTheStep : Prop :=
  ∀ (s : State) (es : List Event) (a : Nat), s.ready = true →
    (s.inbox = .encTurn :: es → s.enc.st = .busy → s.enc.gp < (s.enc.ilen + 2) / 3 →
      3 * s.enc.gp ≤ a → a < 3 * s.enc.gp + 3 → a < s.enc.ilen → s.enc.ibuf.read a = none →
      ∃ x, step s = .fault (.cellHoldsNoValue .enc x) ∧ 3 * s.enc.gp ≤ x ∧
        x < 3 * s.enc.gp + 3 ∧ x < s.enc.ilen ∧ s.enc.ibuf.read x = none) ∧
    (s.inbox = .decTurn :: es → s.dec.st = .busy → s.dec.phase ≠ .lenchk →
      s.dec.gp < s.dec.ilen / 4 → 4 * s.dec.gp ≤ a → a < 4 * s.dec.gp + 4 →
      s.dec.ibuf.read a = none →
      ∃ x, step s = .fault (.cellHoldsNoValue .dec x) ∧ 4 * s.dec.gp ≤ x ∧
        x < 4 * s.dec.gp + 4 ∧ x < s.dec.ilen ∧ s.dec.ibuf.read x = none)

/-! ## Reset (70_reset_and_hazards.md) -/

/-- R45, R250, R252, R253: right after reset both units are IDLE with ILEN = OLEN = GP = 0, no
error, every buffer cell without a value, and STATUS reads 0 in both. That State.reset counts as
reset (log entry 5) and that it lists no transition, so that a step leaves it as it is (log
entries 2 and 3), is the model's choice. -/
def Obligations.ResetStateValues : Prop :=
  let r := State.reset
  r.ready = true ∧ r.enc.st = .idle ∧ r.dec.st = .idle ∧ r.enc.ilen = 0 ∧ r.dec.ilen = 0 ∧
  r.enc.olen = 0 ∧ r.dec.olen = 0 ∧ r.enc.gp = 0 ∧ r.dec.gp = 0 ∧ r.dec.err = false ∧
  r.dec.cause = .none ∧
  (∀ a, r.enc.ibuf.read a = none ∧ r.enc.obuf.read a = none ∧ r.dec.ibuf.read a = none ∧
    r.dec.obuf.read a = none) ∧
  statusOf .enc r = 0 ∧ statusOf .dec r = 0 ∧
  step r = .next r

/-- R250, R251: a reset from any state, also before the first reset, gives R45's values. If the
block has been reset before, IBUF is kept, and OBUF is kept unless the unit was BUSY, then no
cell of it holds a value. After the first reset no buffer cell holds a value (R252). The list of
coming transitions and the field `ready` are the model's (log entries 3 and 5). -/
def Obligations.ResetFromAnyState : Prop :=
  ∀ (s : State) (es : List Event), s.inbox = .reset :: es →
    ∃ t, step s = .next t ∧ t.ready = true ∧ t.lenw = s.lenw ∧ t.inbox = es ∧
      t.enc.st = .idle ∧ t.enc.ilen = 0 ∧ t.enc.olen = 0 ∧ t.enc.gp = 0 ∧
      t.dec.st = .idle ∧ t.dec.ilen = 0 ∧ t.dec.olen = 0 ∧ t.dec.gp = 0 ∧
      t.dec.err = false ∧ t.dec.cause = .none ∧
      (s.ready = true → t.enc.ibuf = s.enc.ibuf ∧ t.dec.ibuf = s.dec.ibuf ∧
        (s.enc.st ≠ .busy → t.enc.obuf = s.enc.obuf) ∧
        (s.dec.st ≠ .busy → t.dec.obuf = s.dec.obuf)) ∧
      (s.enc.st = .busy → ∀ a, t.enc.obuf.read a = none) ∧
      (s.dec.st = .busy → ∀ a, t.dec.obuf.read a = none) ∧
      (s.ready = false → ∀ a, t.enc.ibuf.read a = none ∧ t.enc.obuf.read a = none ∧
        t.dec.ibuf.read a = none ∧ t.dec.obuf.read a = none)

/-- R252, U11: before the first reset no transaction and no turn has an effect: the step is refused
by name, and the refusal is the model's (log entry 5). After the first reset every buffer cell
still holds no value. -/
def Obligations.NothingRunsBeforeTheFirstReset : Prop :=
  (∀ s : State, s.ready = false → s.inbox.head? ≠ some .reset →
    step s = .refused .beforeFirstReset) ∧
  (∀ (s : State) (es : List Event), s.ready = false → s.inbox = .reset :: es →
    ∃ t, step s = .next t ∧ t.ready = true ∧
      ∀ a, t.enc.ibuf.read a = none ∧ t.enc.obuf.read a = none ∧ t.dec.ibuf.read a = none ∧
        t.dec.obuf.read a = none)

/-! ## Invariants and whole-machine rules -/

/-- The invariant holds right after reset, at the LENW that State.reset carries (log entry 1). -/
def Obligations.InvariantHoldsAtReset : Prop := Inv State.reset

/-- R47: every step keeps the invariant, with widths, ranges and canonical buffers. -/
def Obligations.StepKeepsInvariant : Prop :=
  ∀ s t : State, Inv s → step s = .next t → Inv t

/-- R191: a BUSY unit is never blocked. From a state that meets the invariant, once the block has
been reset, a step never ends in a refusal, and its only fault is a message cell of a BUSY unit
that holds no value (R46; the fault is the model's, log entry 10). -/
def Obligations.OnlyStopIsAValuelessCell : Prop :=
  ∀ s : State, Inv s → s.ready = true →
    (∃ t, step s = .next t) ∨
    (∃ a, step s = .fault (.cellHoldsNoValue .enc a) ∧ s.enc.st = .busy ∧ a < s.enc.ilen ∧
      s.enc.ibuf.read a = none) ∨
    (∃ a, step s = .fault (.cellHoldsNoValue .dec a) ∧ s.dec.st = .busy ∧ a < s.dec.ilen ∧
      s.dec.ibuf.read a = none)

/-- R23, R47 item 6: no step but a reset changes IBUF or ILEN of a BUSY unit, and no turn of a
unit changes its IBUF or ILEN in any state. -/
def Obligations.InputIsImmutable : Prop :=
  ∀ s t : State, step s = .next t →
    (s.enc.st = .busy → s.inbox.head? ≠ some .reset →
      t.enc.ibuf = s.enc.ibuf ∧ t.enc.ilen = s.enc.ilen) ∧
    (s.dec.st = .busy → s.inbox.head? ≠ some .reset →
      t.dec.ibuf = s.dec.ibuf ∧ t.dec.ilen = s.dec.ilen) ∧
    (s.inbox.head? = some .encTurn ∨ s.inbox.head? = some .decTurn ∨ s.inbox = [] →
      t.enc.ibuf = s.enc.ibuf ∧ t.enc.ilen = s.enc.ilen ∧
      t.dec.ibuf = s.dec.ibuf ∧ t.dec.ilen = s.dec.ilen)

/-- R27: the only transitions of the run state: reset to IDLE; an accepted START to BUSY; the unit's
own step from BUSY to DONE. With nothing listed the turn is the model's choice (log entry 3). -/
def Obligations.RunStateTransitions : Prop :=
  ∀ s t : State, step s = .next t →
    (t.enc.st ≠ s.enc.st →
      (s.inbox.head? = some .reset ∧ t.enc.st = .idle) ∨
      (s.enc.st ≠ .busy ∧ t.enc.st = .busy ∧
        ∃ w, s.inbox.head? = some (.host w) ∧ decode s.lenw (.htw w) = .ok .encStart) ∨
      (s.enc.st = .busy ∧ t.enc.st = .done ∧ encTurnNext s)) ∧
    (t.dec.st ≠ s.dec.st →
      (s.inbox.head? = some .reset ∧ t.dec.st = .idle) ∨
      (s.dec.st ≠ .busy ∧ t.dec.st = .busy ∧
        ∃ w, s.inbox.head? = some (.host w) ∧ decode s.lenw (.htw w) = .ok .decStart) ∨
      (s.dec.st = .busy ∧ t.dec.st = .done ∧ decTurnNext s))

/-- R220, R229: ERR is set only by a turn of a BUSY DEC, and cleared only by a reset or an accepted
DEC.START; CAUSE changes only with it. With nothing listed the turn is the model's choice (log
entry 3). -/
def Obligations.OnlyDecStepsRaise : Prop :=
  ∀ s t : State, step s = .next t → (t.dec.err ≠ s.dec.err ∨ t.dec.cause ≠ s.dec.cause) →
    (decTurnNext s ∧ s.dec.st = .busy ∧ t.dec.st = .done ∧ t.dec.err = true ∧ t.dec.olen = 0 ∧
      t.dec.gp = s.dec.gp ∧ t.dec.obuf = s.dec.obuf) ∨
    (t.dec.err = false ∧ t.dec.cause = .none ∧
      (s.inbox.head? = some .reset ∨
        (s.dec.st ≠ .busy ∧
          ∃ w, s.inbox.head? = some (.host w) ∧ decode s.lenw (.htw w) = .ok .decStart)))

/-- R75 (the spec's own inference), R259: a result stands: from DONE, every step but a reset and
an accepted START of the same unit leaves ST, OLEN, GP, OBUF and (DEC) ERR and CAUSE as they are.
-/
def Obligations.ResultStandsUntilTheNextStart : Prop :=
  ∀ s t : State, step s = .next t → s.inbox.head? ≠ some .reset →
    (s.enc.st = .done →
      (∀ w, s.inbox.head? = some (.host w) → decode s.lenw (.htw w) ≠ .ok .encStart) →
      t.enc.st = .done ∧ t.enc.olen = s.enc.olen ∧ t.enc.gp = s.enc.gp ∧
        t.enc.obuf = s.enc.obuf) ∧
    (s.dec.st = .done →
      (∀ w, s.inbox.head? = some (.host w) → decode s.lenw (.htw w) ≠ .ok .decStart) →
      t.dec.st = .done ∧ t.dec.olen = s.dec.olen ∧ t.dec.gp = s.dec.gp ∧
        t.dec.obuf = s.dec.obuf ∧ t.dec.err = s.dec.err ∧ t.dec.cause = s.dec.cause)

/-- R191, R41: a unit's step is a function of that unit's state alone: whether it completes, what
the unit is then, and where and why it stops are the same in any two reset states that agree on
the unit; and it changes nothing of the other unit. With nothing listed the turn is the model's
choice (log entry 3). -/
def Obligations.UnitStepDependsOnItsUnitAlone : Prop :=
  ∀ s s' : State, s.ready = true → s'.ready = true →
    (encTurnNext s → encTurnNext s' → s'.enc = s.enc →
      (∀ t, step s = .next t →
        t.dec = s.dec ∧ ∃ t', step s' = .next t' ∧ t'.enc = t.enc ∧ t'.dec = s'.dec) ∧
      (∀ f, step s = .fault f → step s' = .fault f) ∧
      (∀ r, step s = .refused r → step s' = .refused r)) ∧
    (decTurnNext s → decTurnNext s' → s'.dec = s.dec →
      (∀ t, step s = .next t →
        t.enc = s.enc ∧ ∃ t', step s' = .next t' ∧ t'.dec = t.dec ∧ t'.enc = s'.enc) ∧
      (∀ f, step s = .fault f → step s' = .fault f) ∧
      (∀ r, step s = .refused r → step s' = .refused r))

/-- R41: the two units may step in either order with the same result. -/
def Obligations.UnitTurnsCommute : Prop :=
  ∀ (s t : State) (es : List Event),
    Host.Core.run core 2 (s.withInbox (.encTurn :: .decTurn :: es)) = .next t ↔
    Host.Core.run core 2 (s.withInbox (.decTurn :: .encTurn :: es)) = .next t

/-! ## Whole operations (42_sequencer_and_host.md section 6) -/

/-- R212 and R218 (the spec's own inferences) for ENC: after an accepted START the unit is BUSY
for exactly `ceil(n/3)` steps and the next step ends in DONE with `encode` of the message in OBUF,
OLEN and GP as stated, and every cell at or beyond OLEN, IBUF and ILEN as at START. -/
def Obligations.EncodeOperation : Prop :=
  ∀ (s : State) (m : List Byte), s.ready = true → s.enc.st ≠ .busy →
    messageIs s.enc.ibuf s.enc.ilen m →
    ∃ s0, exec .encStart s = .next s0 ∧
      (∀ k ≤ (s.enc.ilen + 2) / 3, ∃ t, runTurns .enc k s0 = .next t ∧ t.enc.st = .busy) ∧
      ∃ t, runTurns .enc ((s.enc.ilen + 2) / 3 + 1) s0 = .next t ∧
        t.enc.st = .done ∧ t.enc.ibuf = s.enc.ibuf ∧ t.enc.ilen = s.enc.ilen ∧
        t.enc.olen = 4 * ((s.enc.ilen + 2) / 3) ∧ t.enc.gp = (s.enc.ilen + 2) / 3 ∧
        (∀ i < t.enc.olen, t.enc.obuf.read i = (b64Encode m)[i]?) ∧
        (∀ i, t.enc.olen ≤ i → t.enc.obuf.read i = s.enc.obuf.read i) ∧ t.dec = s.dec

/-- R212 and R218 (the spec's own inferences) for DEC: a valid text ends in DONE after exactly `2
* (m div 4) + 3` steps with its bytes in OBUF; a bad length after 1 step and a rejected quad `q`
after `q + 2` steps end in DONE with the FormatError, OLEN 0, GP at the quad and OBUF as at START.
-/
def Obligations.DecodeOperation : Prop :=
  ∀ (s : State) (m : List Byte), s.ready = true → s.dec.st ≠ .busy →
    messageIs s.dec.ibuf s.dec.ilen m →
    ∃ s0, exec .decStart s = .next s0 ∧
      match b64Decode m with
      | .bytes b =>
        (∀ k ≤ 2 * (s.dec.ilen / 4) + 2, ∃ t, runTurns .dec k s0 = .next t ∧
          t.dec.st = .busy) ∧
        ∃ t, runTurns .dec (2 * (s.dec.ilen / 4) + 3) s0 = .next t ∧
          t.dec.st = .done ∧ t.dec.err = false ∧ t.dec.cause = .none ∧
          t.dec.ibuf = s.dec.ibuf ∧ t.dec.ilen = s.dec.ilen ∧
          t.dec.olen = b.length ∧ t.dec.gp = s.dec.ilen / 4 ∧
          (∀ i < b.length, t.dec.obuf.read i = b[i]?) ∧
          (∀ i, b.length ≤ i → t.dec.obuf.read i = s.dec.obuf.read i) ∧ t.enc = s.enc
      | .formatError c q =>
        (∀ k < (if c = .badLen then 1 else q + 2), ∃ t, runTurns .dec k s0 = .next t ∧
          t.dec.st = .busy) ∧
        ∃ t, runTurns .dec (if c = .badLen then 1 else q + 2) s0 = .next t ∧
          t.dec.st = .done ∧ t.dec.err = true ∧ t.dec.cause = c ∧
          t.dec.ibuf = s.dec.ibuf ∧ t.dec.ilen = s.dec.ilen ∧
          t.dec.olen = 0 ∧ t.dec.gp = q ∧ t.dec.obuf = s.dec.obuf ∧ t.enc = s.enc

/-- R212 (the spec's own inference): "whatever the host and the other unit do meanwhile": after an
accepted ENC.START, any mix of host transactions and turns without a reset in which ENC takes its
last step last ends with `encode` of the message that stood there at START. -/
def Obligations.EncodeUnderAnyInterleaving : Prop :=
  ∀ (s t : State) (m : List Byte) (w : BitVec 64) (es rest : List Event), s.ready = true →
    s.enc.st ≠ .busy → messageIs s.enc.ibuf s.enc.ilen m →
    decode s.lenw (.htw w) = .ok .encStart → .reset ∉ es →
    es.count .encTurn = (s.enc.ilen + 2) / 3 →
    s.inbox = .host w :: (es ++ .encTurn :: rest) →
    Host.Core.run core (es.length + 2) s = .next t →
    t.enc.st = .done ∧ t.enc.ibuf = s.enc.ibuf ∧ t.enc.ilen = s.enc.ilen ∧
      t.enc.olen = (b64Encode m).length ∧ t.enc.gp = (s.enc.ilen + 2) / 3 ∧
      (∀ i < t.enc.olen, t.enc.obuf.read i = (b64Encode m)[i]?) ∧
      (∀ i, t.enc.olen ≤ i → t.enc.obuf.read i = s.enc.obuf.read i)

/-- R212 (the spec's own inference) for DEC, whatever the host and ENC do meanwhile: any mix of
host transactions and turns without a reset that ends with DEC's last step. -/
def Obligations.DecodeUnderAnyInterleaving : Prop :=
  ∀ (s t : State) (m : List Byte) (w : BitVec 64) (es rest : List Event), s.ready = true →
    s.dec.st ≠ .busy → messageIs s.dec.ibuf s.dec.ilen m →
    decode s.lenw (.htw w) = .ok .decStart → .reset ∉ es →
    es.count .decTurn + 1 = (match b64Decode m with
      | .bytes _ => 2 * (s.dec.ilen / 4) + 3
      | .formatError c q => if c = .badLen then 1 else q + 2) →
    s.inbox = .host w :: (es ++ .decTurn :: rest) →
    Host.Core.run core (es.length + 2) s = .next t →
    t.dec.st = .done ∧ t.dec.ibuf = s.dec.ibuf ∧ t.dec.ilen = s.dec.ilen ∧
      match b64Decode m with
      | .bytes b => t.dec.err = false ∧ t.dec.cause = .none ∧ t.dec.olen = b.length ∧
        t.dec.gp = s.dec.ilen / 4 ∧ (∀ i < b.length, t.dec.obuf.read i = b[i]?) ∧
        (∀ i, b.length ≤ i → t.dec.obuf.read i = s.dec.obuf.read i)
      | .formatError c q => t.dec.err = true ∧ t.dec.cause = c ∧ t.dec.olen = 0 ∧
        t.dec.gp = q ∧ t.dec.obuf = s.dec.obuf

/-- R216: LOAD puts the message in IBUF and its length in ILEN, in a unit that is not BUSY. No
transition falls between its lines (log entry 16). -/
def Obligations.LoadPlacesTheMessage : Prop :=
  ∀ (u : UnitId) (m : List Byte) (s : State), Config.legalLenw s.lenw → s.ready = true →
    stOf u s ≠ .busy → m.length < ibufCells s.lenw u →
    ∃ t, issueAll (macroLoad u m) s = .next t ∧
      messageIs (ibufOf u t) (ilenOf u t) m ∧ ilenOf u t = m.length ∧ stOf u t = stOf u s ∧
      obufOf u t = obufOf u s ∧ olenOf u t = olenOf u s ∧ gpOf u t = gpOf u s ∧
      t.inbox = s.inbox

/-- R216: the host program ENCODE returns `encode` of its bytes, from any state in which ENC is not
BUSY, and leaves DEC alone. Which transitions fall between its lines, and that DEC takes no
turn, is the model's choice (log entry 16). -/
def Obligations.EncodeMacroReturnsEncode : Prop :=
  ∀ (s : State) (b : List Byte) (fuel : Nat), Config.legalLenw s.lenw → s.ready = true →
    s.enc.st ≠ .busy → b.length < 2 ^ s.lenw → (b.length + 2) / 3 + 2 ≤ fuel →
    ∃ t, macroEncode fuel b s = some (b64Encode b, t) ∧ t.enc.st = .done ∧ t.dec = s.dec ∧
      t.inbox = s.inbox

/-- R216: the host program DECODE returns the bytes of a valid text and FormatError with its cause
for any other, from any state in which DEC is not BUSY, and leaves ENC alone. Which transitions
fall between its lines, and that ENC takes no turn, is the model's choice (log entry 16). -/
def Obligations.DecodeMacroReturnsDecode : Prop :=
  ∀ (s : State) (m : List Byte) (fuel : Nat), Config.legalLenw s.lenw → s.ready = true →
    s.dec.st ≠ .busy → m.length < 2 ^ (s.lenw + 1) → 2 * (m.length / 4) + 4 ≤ fuel →
    ∃ t, macroDecode fuel m s = some (match b64Decode m with
        | .bytes b => HostDecoded.bytes b
        | .formatError c _ => HostDecoded.formatError (causeCode c), t) ∧
      t.dec.st = .done ∧ t.enc = s.enc ∧ t.inbox = s.inbox
end

