-- ==== Sys2Proof/Laws/Decode.lean ====
section
/-! SUPPORT. The fields of a word built from fields, for the three formats, and masking of one. -/

namespace Sys2Proof

section
variable (rw unit : BitVec 1) (space : BitVec 2) (addr : BitVec 28) (data : BitVec 32)

@[simp] theorem htwRw_mkHtw : htwRw (mkHtw rw unit space addr data) = rw := by
  unfold htwRw mkHtw
  rw [BitVec.extractLsb'_append_eq_of_le (by decide), BitVec.extractLsb'_append_eq_of_le (by decide),
    BitVec.extractLsb'_append_eq_of_le (by decide)]
  exact BitVec.extractLsb'_append_eq_left

@[simp] theorem htwUnit_mkHtw : htwUnit (mkHtw rw unit space addr data) = unit := by
  unfold htwUnit mkHtw
  rw [BitVec.extractLsb'_append_eq_of_le (by decide), BitVec.extractLsb'_append_eq_of_le (by decide),
    BitVec.extractLsb'_append_eq_of_le (by decide)]
  exact BitVec.extractLsb'_append_eq_right

@[simp] theorem htwSpace_mkHtw : htwSpace (mkHtw rw unit space addr data) = space := by
  unfold htwSpace mkHtw
  rw [BitVec.extractLsb'_append_eq_of_le (by decide), BitVec.extractLsb'_append_eq_of_le (by decide)]
  exact BitVec.extractLsb'_append_eq_right

@[simp] theorem htwAddr_mkHtw : htwAddr (mkHtw rw unit space addr data) = addr := by
  unfold htwAddr mkHtw
  rw [BitVec.extractLsb'_append_eq_of_le (by decide)]
  exact BitVec.extractLsb'_append_eq_right

@[simp] theorem htwData_mkHtw : htwData (mkHtw rw unit space addr data) = data :=
  BitVec.extractLsb'_append_eq_right

/-- Masking field by field. -/
theorem mkHtw_and (rw' unit' : BitVec 1) (space' : BitVec 2) (addr' : BitVec 28)
    (data' : BitVec 32) :
    mkHtw rw unit space addr data &&& mkHtw rw' unit' space' addr' data' =
      mkHtw (rw &&& rw') (unit &&& unit') (space &&& space') (addr &&& addr') (data &&& data') := by
  show (rw ++ unit ++ space ++ addr ++ data : BitVec (1 + 1 + 2 + 28 + 32)) &&&
    (rw' ++ unit' ++ space' ++ addr' ++ data' : BitVec (1 + 1 + 2 + 28 + 32)) = _
  rw [BitVec.and_append, BitVec.and_append, BitVec.and_append, BitVec.and_append]
  rfl

end

@[simp] theorem unitOfBit_bitOfUnit (u : UnitId) : unitOfBit (bitOfUnit u) = u := by
  cases u <;> rfl

@[simp] theorem bitOfUnit_unitOfBit (b : BitVec 1) : bitOfUnit (unitOfBit b) = b := by
  revert b; decide

@[simp] theorem klsOfCode_klsCode (k : Kls) : klsOfCode (klsCode k) = some k := by
  cases k <;> rfl

section
variable (cnt : BitVec 2) (b0 b1 b2 : Byte)

@[simp] theorem egdCnt_mkEgd : (mkEgd cnt b0 b1 b2).extractLsb' 24 2 = cnt := by
  unfold mkEgd
  rw [BitVec.extractLsb'_append_eq_of_le (by decide), BitVec.extractLsb'_append_eq_of_le (by decide)]
  exact BitVec.extractLsb'_append_eq_left

@[simp] theorem egdB0_mkEgd : (mkEgd cnt b0 b1 b2).extractLsb' 16 8 = b0 := by
  unfold mkEgd
  rw [BitVec.extractLsb'_append_eq_of_le (by decide), BitVec.extractLsb'_append_eq_of_le (by decide)]
  exact BitVec.extractLsb'_append_eq_right

@[simp] theorem egdB1_mkEgd : (mkEgd cnt b0 b1 b2).extractLsb' 8 8 = b1 := by
  unfold mkEgd
  rw [BitVec.extractLsb'_append_eq_of_le (by decide)]
  exact BitVec.extractLsb'_append_eq_right

@[simp] theorem egdB2_mkEgd : (mkEgd cnt b0 b1 b2).extractLsb' 0 8 = b2 :=
  BitVec.extractLsb'_append_eq_right

theorem mkEgd_and (cnt' : BitVec 2) (b0' b1' b2' : Byte) :
    mkEgd cnt b0 b1 b2 &&& mkEgd cnt' b0' b1' b2' =
      mkEgd (cnt &&& cnt') (b0 &&& b0') (b1 &&& b1') (b2 &&& b2') := by
  show (cnt ++ b0 ++ b1 ++ b2 : BitVec (2 + 8 + 8 + 8)) &&&
    (cnt' ++ b0' ++ b1' ++ b2' : BitVec (2 + 8 + 8 + 8)) = _
  rw [BitVec.and_append, BitVec.and_append, BitVec.and_append]
  rfl

end

end Sys2Proof
end

