-- ==== Sys2Proof/Laws/Memory.lean ====
section
/-! SUPPORT. The laws of a buffer: read after write, and that every operation keeps the canonical
form and the range of addresses. -/

namespace Sys2Proof.Machine

@[simp] theorem Memory.read_nil (a : Nat) : Memory.read [] a = none := rfl

@[simp] theorem Memory.read_cons (c : Host.Cell) (m : Memory) (a : Nat) :
    Memory.read (c :: m) a = if c.1 = a then some c.2 else Memory.read m a := rfl

@[simp] theorem Memory.write_nil (a : Nat) (v : Byte) : Memory.write [] a v = [(a, v)] := rfl

@[simp] theorem Memory.write_cons (c : Host.Cell) (m : Memory) (a : Nat) (v : Byte) :
    Memory.write (c :: m) a v =
      if c.1 < a then c :: Memory.write m a v
      else if c.1 = a then (a, v) :: m else (a, v) :: c :: m := rfl

/-- A read after a write to the same cell gives the value written. -/
@[simp] theorem Memory.read_write_same (m : Memory) (a : Nat) (v : Byte) :
    (m.write a v).read a = some v := by
  induction m with
  | nil => simp
  | cons c m ih =>
    rw [Memory.write_cons]
    split_ifs with h1 h2
    · simp [ih, Nat.ne_of_lt h1]
    · simp
    · simp

/-- A write leaves every other cell alone. -/
theorem Memory.read_write_other (m : Memory) {a x : Nat} (v : Byte) (h : x ≠ a) :
    (m.write a v).read x = m.read x := by
  induction m with
  | nil => simp [Ne.symm h]
  | cons c m ih =>
    rw [Memory.write_cons]
    split_ifs with h1 h2
    · simp [ih]
    · have : c.1 ≠ x := by omega
      simp [this, Ne.symm h]
    · simp [Ne.symm h]

/-- The cells of a written buffer are the written cell and old ones. -/
theorem Memory.mem_write {m : Memory} {a : Nat} {v : Byte} {c : Host.Cell}
    (h : c ∈ m.write a v) : c = (a, v) ∨ c ∈ m := by
  induction m with
  | nil => simpa using h
  | cons d m ih =>
    rw [Memory.write_cons] at h
    split_ifs at h
    · rcases List.mem_cons.1 h with h | h
      · exact .inr (by simp [h])
      · exact (ih h).imp_right (List.mem_cons_of_mem _)
    · exact (List.mem_cons.1 h).imp_right (List.mem_cons_of_mem _)
    · exact List.mem_cons.1 h

theorem Memory.write_wf {m : Memory} (h : m.wf) (a : Nat) (v : Byte) : (m.write a v).wf := by
  induction m with
  | nil => simp [Memory.wf]
  | cons c m ih =>
    obtain ⟨hc, hm⟩ := List.pairwise_cons.1 h
    rw [Memory.write_cons]
    split_ifs with h1 h2
    · refine List.pairwise_cons.2 ⟨fun d hd => ?_, ih hm⟩
      rcases Memory.mem_write hd with rfl | hd
      · exact h1
      · exact hc d hd
    · exact List.pairwise_cons.2 ⟨fun d hd => by have := hc d hd; simp only; omega, hm⟩
    · refine List.pairwise_cons.2 ⟨fun d hd => ?_, h⟩
      rcases List.mem_cons.1 hd with rfl | hd
      · simp only; omega
      · have := hc d hd; simp only; omega

theorem Memory.write_below {m : Memory} {n : Nat} (h : m.below n) {a : Nat} (ha : a < n)
    (v : Byte) : (m.write a v).below n := by
  intro c hc
  rcases Memory.mem_write hc with rfl | hc
  · exact ha
  · exact h c hc

@[simp] theorem Memory.writeCells_nil (m : Memory) (a : Nat) : m.writeCells a [] = m := rfl

@[simp] theorem Memory.writeCells_cons (m : Memory) (a : Nat) (b : Byte) (bs : List Byte) :
    m.writeCells a (b :: bs) = (m.write a b).writeCells (a + 1) bs := rfl

theorem Memory.writeCells_wf {m : Memory} (h : m.wf) (a : Nat) (bs : List Byte) :
    (m.writeCells a bs).wf := by
  induction bs generalizing m a with
  | nil => exact h
  | cons b bs ih => exact ih (Memory.write_wf h a b) _

theorem Memory.writeCells_below {m : Memory} {n : Nat} (h : m.below n) {a : Nat} {bs : List Byte}
    (ha : a + bs.length ≤ n) : (m.writeCells a bs).below n := by
  induction bs generalizing m a with
  | nil => exact h
  | cons b bs ih =>
    simp only [List.length_cons] at ha
    exact ih (Memory.write_below h (by omega) b) (by omega)

/-- `MemWrite` leaves every cell outside its own alone. -/
theorem Memory.read_writeCells_outside (m : Memory) {a x : Nat} (bs : List Byte)
    (h : x < a ∨ a + bs.length ≤ x) : (m.writeCells a bs).read x = m.read x := by
  induction bs generalizing m a with
  | nil => rfl
  | cons b bs ih =>
    simp only [List.length_cons] at h
    rw [Memory.writeCells_cons, ih _ (by omega), Memory.read_write_other _ _ (by omega)]

/-- `MemWrite` puts the `i`-th value in the `i`-th cell. -/
theorem Memory.read_writeCells_inside (m : Memory) (a : Nat) (bs : List Byte) {i : Nat}
    (h : i < bs.length) : (m.writeCells a bs).read (a + i) = some bs[i] := by
  induction bs generalizing m a i with
  | nil => simp at h
  | cons b bs ih =>
    cases i with
    | zero =>
      rw [Memory.writeCells_cons, Memory.read_writeCells_outside _ _ (by omega)]
      simp
    | succ i =>
      rw [Memory.writeCells_cons, show a + (i + 1) = a + 1 + i by omega]
      simpa using ih (m.write a b) (a + 1) (by simpa using h)

theorem Memory.writeCells_sameOutside (m : Memory) (a : Nat) (bs : List Byte) :
    sameOutside a bs.length m (m.writeCells a bs) := fun _ h =>
  Memory.read_writeCells_outside m bs h

@[simp] theorem Memory.readCells_zero (m : Memory) (a : Nat) : m.readCells a 0 = .ok [] := rfl

/-- `MemRead` answers exactly when every cell holds a value, and with those values. -/
theorem Memory.readCells_eq_ok_iff {m : Memory} {a n : Nat} {bs : List Byte} :
    m.readCells a n = .ok bs ↔
      bs.length = n ∧ ∀ i, (h : i < bs.length) → m.read (a + i) = some bs[i] := by
  induction n generalizing a bs with
  | zero => cases bs <;> simp
  | succ n ih =>
    cases bs with
    | nil =>
      simp only [Memory.readCells, List.length_nil]
      cases m.read a with
      | none => simp
      | some b => cases m.readCells (a + 1) n <;> simp
    | cons b bs =>
      have key : (m.read a = some b ∧ m.readCells (a + 1) n = .ok bs) ↔
          m.readCells a (n + 1) = .ok (b :: bs) := by
        simp only [Memory.readCells]
        cases m.read a with
        | none => simp
        | some b' => cases m.readCells (a + 1) n <;> simp
      rw [← key, ih]
      constructor
      · rintro ⟨h0, hl, h⟩
        refine ⟨by simpa using hl, fun i hi => ?_⟩
        cases i with
        | zero => simpa using h0
        | succ i =>
          rw [show a + (i + 1) = a + 1 + i by omega]
          simpa using h i (by simpa using hi)
      · rintro ⟨hl, h⟩
        refine ⟨h 0 (Nat.succ_pos _), by simpa using hl, fun i hi => ?_⟩
        rw [show a + 1 + i = a + (i + 1) by omega]
        exact h (i + 1) (Nat.succ_lt_succ hi)

/-- `MemRead` names the first cell that holds no value. -/
theorem Memory.readCells_eq_error {m : Memory} {a n x : Nat} (h : m.readCells a n = .error x) :
    a ≤ x ∧ x < a + n ∧ m.read x = none := by
  induction n generalizing a with
  | zero => simp at h
  | succ n ih =>
    simp only [Memory.readCells] at h
    cases hr : m.read a with
    | none =>
      simp only [hr, Except.error.injEq] at h
      exact ⟨by omega, by omega, h ▸ hr⟩
    | some b =>
      simp only [hr] at h
      cases hc : m.readCells (a + 1) n with
      | error y =>
        simp only [hc, Except.error.injEq] at h
        obtain ⟨h1, h2, h3⟩ := ih (h ▸ hc)
        exact ⟨by omega, by omega, h3⟩
      | ok bs => simp [hc] at h

/-- In canonical form an unlisted address and only that reads as no value. -/
theorem Memory.read_eq_none_iff {m : Memory} {a : Nat} :
    m.read a = none ↔ ∀ c ∈ m, c.1 ≠ a := by
  induction m with
  | nil => simp
  | cons c m ih => by_cases h : c.1 = a <;> simp [h, ih]

/-- Two buffers in canonical form that read alike everywhere are equal. -/
theorem Memory.ext_of_wf {m m' : Memory} (h : m.wf) (h' : m'.wf)
    (hr : ∀ a, m.read a = m'.read a) : m = m' := by
  induction m generalizing m' with
  | nil =>
    cases m' with
    | nil => rfl
    | cons c m' => simpa using hr c.1
  | cons c m ih =>
    cases m' with
    | nil => simpa using (hr c.1).symm
    | cons d m' =>
      obtain ⟨hc, hm⟩ := List.pairwise_cons.1 h
      obtain ⟨hd, hm'⟩ := List.pairwise_cons.1 h'
      have hcd : c = d := by
        have h1 := hr c.1
        have h2 := hr d.1
        rcases Nat.lt_trichotomy c.1 d.1 with hlt | heq | hgt
        · have : Memory.read (d :: m') c.1 = none :=
            Memory.read_eq_none_iff.2 fun x hx => by
              rcases List.mem_cons.1 hx with rfl | hx
              · omega
              · have := hd x hx; omega
          rw [this] at h1; simp at h1
        · have : c.2 = d.2 := by simpa [heq] using h1
          exact Prod.ext heq this
        · have : Memory.read (c :: m) d.1 = none :=
            Memory.read_eq_none_iff.2 fun x hx => by
              rcases List.mem_cons.1 hx with rfl | hx
              · omega
              · have := hc x hx; omega
          rw [this] at h2; simp at h2
      subst hcd
      congr 1
      refine ih hm hm' fun a => ?_
      have := hr a
      by_cases ha : c.1 = a
      · subst ha
        rw [Memory.read_eq_none_iff.2 fun x hx => by have := hc x hx; omega,
          Memory.read_eq_none_iff.2 fun x hx => by have := hd x hx; omega]
      · simpa [ha] using this

end Sys2Proof.Machine
end

