-- ==== Sys2Proof/Laws/State.lean ====
section
/-! SUPPORT. One lemma per field and update of the state, so that no later proof unfolds a record
update. -/

namespace Sys2Proof.Machine

@[simp] theorem State.withEnc_lenw (s : State) (e : EncUnit) : (s.withEnc e).lenw = s.lenw := rfl
@[simp] theorem State.withEnc_ready (s : State) (e : EncUnit) : (s.withEnc e).ready = s.ready := rfl
@[simp] theorem State.withEnc_enc (s : State) (e : EncUnit) : (s.withEnc e).enc = e := rfl
@[simp] theorem State.withEnc_dec (s : State) (e : EncUnit) : (s.withEnc e).dec = s.dec := rfl
@[simp] theorem State.withEnc_resp (s : State) (e : EncUnit) : (s.withEnc e).resp = s.resp := rfl
@[simp] theorem State.withEnc_inbox (s : State) (e : EncUnit) : (s.withEnc e).inbox = s.inbox := rfl
@[simp] theorem State.withEnc_free (s : State) (e : EncUnit) : (s.withEnc e).free = s.free := rfl

@[simp] theorem State.withDec_lenw (s : State) (d : DecUnit) : (s.withDec d).lenw = s.lenw := rfl
@[simp] theorem State.withDec_ready (s : State) (d : DecUnit) : (s.withDec d).ready = s.ready := rfl
@[simp] theorem State.withDec_enc (s : State) (d : DecUnit) : (s.withDec d).enc = s.enc := rfl
@[simp] theorem State.withDec_dec (s : State) (d : DecUnit) : (s.withDec d).dec = d := rfl
@[simp] theorem State.withDec_resp (s : State) (d : DecUnit) : (s.withDec d).resp = s.resp := rfl
@[simp] theorem State.withDec_inbox (s : State) (d : DecUnit) : (s.withDec d).inbox = s.inbox := rfl
@[simp] theorem State.withDec_free (s : State) (d : DecUnit) : (s.withDec d).free = s.free := rfl

@[simp] theorem State.withInbox_lenw (s : State) (es : List Event) : (s.withInbox es).lenw = s.lenw := rfl
@[simp] theorem State.withInbox_ready (s : State) (es : List Event) : (s.withInbox es).ready = s.ready := rfl
@[simp] theorem State.withInbox_enc (s : State) (es : List Event) : (s.withInbox es).enc = s.enc := rfl
@[simp] theorem State.withInbox_dec (s : State) (es : List Event) : (s.withInbox es).dec = s.dec := rfl
@[simp] theorem State.withInbox_resp (s : State) (es : List Event) : (s.withInbox es).resp = s.resp := rfl
@[simp] theorem State.withInbox_inbox (s : State) (es : List Event) : (s.withInbox es).inbox = es := rfl
@[simp] theorem State.withInbox_free (s : State) (es : List Event) : (s.withInbox es).free = s.free := rfl

@[simp] theorem State.withResp_lenw (s : State) (r : Option HostWord) : (s.withResp r).lenw = s.lenw := rfl
@[simp] theorem State.withResp_ready (s : State) (r : Option HostWord) : (s.withResp r).ready = s.ready := rfl
@[simp] theorem State.withResp_enc (s : State) (r : Option HostWord) : (s.withResp r).enc = s.enc := rfl
@[simp] theorem State.withResp_dec (s : State) (r : Option HostWord) : (s.withResp r).dec = s.dec := rfl
@[simp] theorem State.withResp_resp (s : State) (r : Option HostWord) : (s.withResp r).resp = r := rfl
@[simp] theorem State.withResp_inbox (s : State) (r : Option HostWord) : (s.withResp r).inbox = s.inbox := rfl
@[simp] theorem State.withResp_free (s : State) (r : Option HostWord) : (s.withResp r).free = s.free := rfl

@[simp] theorem State.withEnc_self (s : State) : s.withEnc s.enc = s := rfl
@[simp] theorem State.withDec_self (s : State) : s.withDec s.dec = s := rfl
@[simp] theorem State.withInbox_self (s : State) : s.withInbox s.inbox = s := rfl

@[simp] theorem ackWrite_lenw (s : State) : (ackWrite s).lenw = s.lenw := rfl
@[simp] theorem ackWrite_ready (s : State) : (ackWrite s).ready = s.ready := rfl
@[simp] theorem ackWrite_enc (s : State) : (ackWrite s).enc = s.enc := rfl
@[simp] theorem ackWrite_dec (s : State) : (ackWrite s).dec = s.dec := rfl
@[simp] theorem ackWrite_resp (s : State) : (ackWrite s).resp = none := rfl
@[simp] theorem ackWrite_inbox (s : State) : (ackWrite s).inbox = s.inbox := rfl
@[simp] theorem ackWrite_free (s : State) : (ackWrite s).free = s.free := rfl

@[simp] theorem answer_lenw (v : HostWord) (s : State) : (answer v s).lenw = s.lenw := rfl
@[simp] theorem answer_ready (v : HostWord) (s : State) : (answer v s).ready = s.ready := rfl
@[simp] theorem answer_enc (v : HostWord) (s : State) : (answer v s).enc = s.enc := rfl
@[simp] theorem answer_dec (v : HostWord) (s : State) : (answer v s).dec = s.dec := rfl
@[simp] theorem answer_resp (v : HostWord) (s : State) : (answer v s).resp = some v := rfl
@[simp] theorem answer_inbox (v : HostWord) (s : State) : (answer v s).inbox = s.inbox := rfl
@[simp] theorem answer_free (v : HostWord) (s : State) : (answer v s).free = s.free := rfl

@[simp] theorem answerFree_lenw (s : State) : (answerFree s).lenw = s.lenw := rfl
@[simp] theorem answerFree_ready (s : State) : (answerFree s).ready = s.ready := rfl
@[simp] theorem answerFree_enc (s : State) : (answerFree s).enc = s.enc := rfl
@[simp] theorem answerFree_dec (s : State) : (answerFree s).dec = s.dec := rfl
@[simp] theorem answerFree_resp (s : State) : (answerFree s).resp = some (Config.freeRead s.free) := rfl
@[simp] theorem answerFree_inbox (s : State) : (answerFree s).inbox = s.inbox := rfl
@[simp] theorem answerFree_free (s : State) : (answerFree s).free = s.free + 1 := rfl

@[simp] theorem raiseFormatError_lenw (c : Cause) (s : State) : (raiseFormatError c s).lenw = s.lenw := rfl
@[simp] theorem raiseFormatError_ready (c : Cause) (s : State) : (raiseFormatError c s).ready = s.ready := rfl
@[simp] theorem raiseFormatError_enc (c : Cause) (s : State) : (raiseFormatError c s).enc = s.enc := rfl
@[simp] theorem raiseFormatError_dec (c : Cause) (s : State) : (raiseFormatError c s).dec =
    { s.dec with err := true, cause := c, olen := 0, st := .done } := rfl
@[simp] theorem raiseFormatError_resp (c : Cause) (s : State) : (raiseFormatError c s).resp = s.resp := rfl
@[simp] theorem raiseFormatError_inbox (c : Cause) (s : State) : (raiseFormatError c s).inbox = s.inbox := rfl
@[simp] theorem raiseFormatError_free (c : Cause) (s : State) : (raiseFormatError c s).free = s.free := rfl

@[simp] theorem startEnc_lenw (s : State) : (startEnc s).lenw = s.lenw := rfl
@[simp] theorem startEnc_ready (s : State) : (startEnc s).ready = s.ready := rfl
@[simp] theorem startEnc_enc (s : State) : (startEnc s).enc =
    { s.enc with olen := 0, gp := 0, st := .busy } := rfl
@[simp] theorem startEnc_dec (s : State) : (startEnc s).dec = s.dec := rfl
@[simp] theorem startEnc_resp (s : State) : (startEnc s).resp = s.resp := rfl
@[simp] theorem startEnc_inbox (s : State) : (startEnc s).inbox = s.inbox := rfl
@[simp] theorem startEnc_free (s : State) : (startEnc s).free = s.free := rfl

@[simp] theorem startDec_lenw (s : State) : (startDec s).lenw = s.lenw := rfl
@[simp] theorem startDec_ready (s : State) : (startDec s).ready = s.ready := rfl
@[simp] theorem startDec_enc (s : State) : (startDec s).enc = s.enc := rfl
@[simp] theorem startDec_dec (s : State) : (startDec s).dec =
    { s.dec with
      olen := 0, gp := 0, err := false, cause := .none, phase := .lenchk, st := .busy } := rfl
@[simp] theorem startDec_resp (s : State) : (startDec s).resp = s.resp := rfl
@[simp] theorem startDec_inbox (s : State) : (startDec s).inbox = s.inbox := rfl
@[simp] theorem startDec_free (s : State) : (startDec s).free = s.free := rfl

@[simp] theorem encEnd_lenw (s : State) : (encEnd s).lenw = s.lenw := rfl
@[simp] theorem encEnd_ready (s : State) : (encEnd s).ready = s.ready := rfl
@[simp] theorem encEnd_enc (s : State) : (encEnd s).enc =
    { s.enc with st := .done } := rfl
@[simp] theorem encEnd_dec (s : State) : (encEnd s).dec = s.dec := rfl
@[simp] theorem encEnd_resp (s : State) : (encEnd s).resp = s.resp := rfl
@[simp] theorem encEnd_inbox (s : State) : (encEnd s).inbox = s.inbox := rfl
@[simp] theorem encEnd_free (s : State) : (encEnd s).free = s.free := rfl

@[simp] theorem decVend_lenw (s : State) : (decVend s).lenw = s.lenw := rfl
@[simp] theorem decVend_ready (s : State) : (decVend s).ready = s.ready := rfl
@[simp] theorem decVend_enc (s : State) : (decVend s).enc = s.enc := rfl
@[simp] theorem decVend_dec (s : State) : (decVend s).dec =
    { s.dec with phase := .decode, gp := 0 } := rfl
@[simp] theorem decVend_resp (s : State) : (decVend s).resp = s.resp := rfl
@[simp] theorem decVend_inbox (s : State) : (decVend s).inbox = s.inbox := rfl
@[simp] theorem decVend_free (s : State) : (decVend s).free = s.free := rfl

@[simp] theorem decDend_lenw (s : State) : (decDend s).lenw = s.lenw := rfl
@[simp] theorem decDend_ready (s : State) : (decDend s).ready = s.ready := rfl
@[simp] theorem decDend_enc (s : State) : (decDend s).enc = s.enc := rfl
@[simp] theorem decDend_dec (s : State) : (decDend s).dec =
    { s.dec with st := .done } := rfl
@[simp] theorem decDend_resp (s : State) : (decDend s).resp = s.resp := rfl
@[simp] theorem decDend_inbox (s : State) : (decDend s).inbox = s.inbox := rfl
@[simp] theorem decDend_free (s : State) : (decDend s).free = s.free := rfl

@[simp] theorem resetEvent_lenw (s : State) : (resetEvent s).lenw = s.lenw := rfl
@[simp] theorem resetEvent_ready (s : State) : (resetEvent s).ready = true := rfl
@[simp] theorem resetEvent_enc (s : State) : (resetEvent s).enc = resetEnc s.ready s.free s.enc := rfl
@[simp] theorem resetEvent_dec (s : State) : (resetEvent s).dec = resetDec s.ready s.free s.dec := rfl
@[simp] theorem resetEvent_resp (s : State) : (resetEvent s).resp = s.resp := rfl
@[simp] theorem resetEvent_inbox (s : State) : (resetEvent s).inbox = s.inbox := rfl
@[simp] theorem resetEvent_free (s : State) : (resetEvent s).free = s.free + 1 := rfl

@[simp] theorem bufferAfterReset_true (m : Memory) : bufferAfterReset true m = m := rfl
@[simp] theorem bufferAfterReset_false (m : Memory) : bufferAfterReset false m = [] := rfl
@[simp] theorem obufAfterReset_busy (r : Bool) (m : Memory) : obufAfterReset r .busy m = [] := rfl

section
variable (r : Bool) (n : Nat)

@[simp] theorem resetEnc_ibuf (e : EncUnit) : (resetEnc r n e).ibuf = bufferAfterReset r e.ibuf := rfl
@[simp] theorem resetEnc_obuf (e : EncUnit) : (resetEnc r n e).obuf = obufAfterReset r e.st e.obuf := rfl
@[simp] theorem resetEnc_ilen (e : EncUnit) : (resetEnc r n e).ilen = 0 := rfl
@[simp] theorem resetEnc_olen (e : EncUnit) : (resetEnc r n e).olen = 0 := rfl
@[simp] theorem resetEnc_gp (e : EncUnit) : (resetEnc r n e).gp = 0 := rfl
@[simp] theorem resetEnc_st (e : EncUnit) : (resetEnc r n e).st = .idle := rfl
@[simp] theorem resetEnc_grp (e : EncUnit) : (resetEnc r n e).grp = Config.freeGrp n := rfl
@[simp] theorem resetEnc_cnt (e : EncUnit) : (resetEnc r n e).cnt = Config.freeCnt n := rfl

@[simp] theorem resetDec_ibuf (e : DecUnit) : (resetDec r n e).ibuf = bufferAfterReset r e.ibuf := rfl
@[simp] theorem resetDec_obuf (e : DecUnit) : (resetDec r n e).obuf = obufAfterReset r e.st e.obuf := rfl
@[simp] theorem resetDec_ilen (e : DecUnit) : (resetDec r n e).ilen = 0 := rfl
@[simp] theorem resetDec_olen (e : DecUnit) : (resetDec r n e).olen = 0 := rfl
@[simp] theorem resetDec_gp (e : DecUnit) : (resetDec r n e).gp = 0 := rfl
@[simp] theorem resetDec_st (e : DecUnit) : (resetDec r n e).st = .idle := rfl
@[simp] theorem resetDec_phase (e : DecUnit) : (resetDec r n e).phase = Config.freePhase n := rfl
@[simp] theorem resetDec_err (e : DecUnit) : (resetDec r n e).err = false := rfl
@[simp] theorem resetDec_cause (e : DecUnit) : (resetDec r n e).cause = .none := rfl
@[simp] theorem resetDec_quad (e : DecUnit) : (resetDec r n e).quad = Config.freeQuad n := rfl
@[simp] theorem resetDec_kls (e : DecUnit) : (resetDec r n e).kls = Config.freeKls n := rfl
@[simp] theorem resetDec_fin (e : DecUnit) : (resetDec r n e).fin = Config.freeFin n := rfl

end

/-! Reading one unit through its number. -/

@[simp] theorem stOf_enc (s : State) : stOf .enc s = s.enc.st := rfl
@[simp] theorem stOf_dec (s : State) : stOf .dec s = s.dec.st := rfl
@[simp] theorem ilenOf_enc (s : State) : ilenOf .enc s = s.enc.ilen := rfl
@[simp] theorem ilenOf_dec (s : State) : ilenOf .dec s = s.dec.ilen := rfl
@[simp] theorem olenOf_enc (s : State) : olenOf .enc s = s.enc.olen := rfl
@[simp] theorem olenOf_dec (s : State) : olenOf .dec s = s.dec.olen := rfl
@[simp] theorem gpOf_enc (s : State) : gpOf .enc s = s.enc.gp := rfl
@[simp] theorem gpOf_dec (s : State) : gpOf .dec s = s.dec.gp := rfl
@[simp] theorem ibufOf_enc (s : State) : ibufOf .enc s = s.enc.ibuf := rfl
@[simp] theorem ibufOf_dec (s : State) : ibufOf .dec s = s.dec.ibuf := rfl
@[simp] theorem obufOf_enc (s : State) : obufOf .enc s = s.enc.obuf := rfl
@[simp] theorem obufOf_dec (s : State) : obufOf .dec s = s.dec.obuf := rfl

@[simp] theorem setIlen_enc (n : Nat) (s : State) :
    setIlen .enc n s = s.withEnc { s.enc with ilen := n } := rfl
@[simp] theorem setIlen_dec (n : Nat) (s : State) :
    setIlen .dec n s = s.withDec { s.dec with ilen := n } := rfl
@[simp] theorem setIbuf_enc (m : Memory) (s : State) :
    setIbuf .enc m s = s.withEnc { s.enc with ibuf := m } := rfl
@[simp] theorem setIbuf_dec (m : Memory) (s : State) :
    setIbuf .dec m s = s.withDec { s.dec with ibuf := m } := rfl

end Sys2Proof.Machine
end

