-- ==== Sys2Proof/Laws/Ops.lean ====
section
/-! SUPPORT. What the shared operations and the host transactions can do, each said once. -/

namespace Sys2Proof.Machine

/-! ## Answers -/

theorem answerUnlessBusy_of_busy {u : UnitId} {s : State} (h : stOf u s = .busy) (v : HostWord) :
    answerUnlessBusy u v s = answerFree s := if_pos h

theorem answerUnlessBusy_of_not_busy {u : UnitId} {s : State} (h : stOf u s ≠ .busy)
    (v : HostWord) : answerUnlessBusy u v s = answer v s := if_neg h

/-- The answers change nothing of the block. -/
theorem onlyAnswered_answer (v : HostWord) (s : State) : onlyAnswered s (answer v s) :=
  ⟨rfl, rfl, rfl, rfl, rfl⟩

theorem onlyAnswered_answerFree (s : State) : onlyAnswered s (answerFree s) :=
  ⟨rfl, rfl, rfl, rfl, rfl⟩

theorem onlyAnswered_ackWrite (s : State) : onlyAnswered s (ackWrite s) :=
  ⟨rfl, rfl, rfl, rfl, rfl⟩

theorem onlyAnswered_answerUnlessBusy (u : UnitId) (v : HostWord) (s : State) :
    onlyAnswered s (answerUnlessBusy u v s) := by
  unfold answerUnlessBusy
  split
  · exact onlyAnswered_answerFree s
  · exact onlyAnswered_answer v s

theorem onlyAnswered_answerCell (u : UnitId) (m : Memory) (a : Nat) (s : State) :
    onlyAnswered s (answerCell u m a s) := by
  unfold answerCell
  split
  · exact onlyAnswered_answerUnlessBusy u _ s
  · exact onlyAnswered_answerFree s

theorem onlyAnswered_reserved (b : Bool) (s : State) : onlyAnswered s (reserved b s) := by
  cases b
  · exact onlyAnswered_answer 0 s
  · exact onlyAnswered_ackWrite s

/-! ## Host transactions, by what they do to each unit -/

/-- What a transaction can do to ENC. -/
inductive EncByHost (lenw : Nat) (e : EncUnit) : Instr → EncUnit → Prop where
  | same (i : Instr) : EncByHost lenw e i e
  | start : e.st ≠ .busy → EncByHost lenw e .encStart { e with olen := 0, gp := 0, st := .busy }
  | ilen (v : HostWord) : e.st ≠ .busy →
      EncByHost lenw e (.wrIlen .enc v) { e with ilen := v.toNat % 2 ^ lenw }
  | ibuf (a : BitVec 28) (v : HostWord) : e.st ≠ .busy → a.toNat < ibufCells lenw .enc →
      EncByHost lenw e (.wrIbuf .enc a v)
        { e with ibuf := e.ibuf.write a.toNat (v.extractLsb' 0 8) }

/-- What a transaction can do to DEC. -/
inductive DecByHost (lenw : Nat) (d : DecUnit) : Instr → DecUnit → Prop where
  | same (i : Instr) : DecByHost lenw d i d
  | start : d.st ≠ .busy → DecByHost lenw d .decStart { d with
      olen := 0, gp := 0, err := false, cause := .none, phase := .lenchk, st := .busy }
  | ilen (v : HostWord) : d.st ≠ .busy →
      DecByHost lenw d (.wrIlen .dec v) { d with ilen := v.toNat % 2 ^ (lenw + 1) }
  | ibuf (a : BitVec 28) (v : HostWord) : d.st ≠ .busy → a.toNat < ibufCells lenw .dec →
      DecByHost lenw d (.wrIbuf .dec a v)
        { d with ibuf := d.ibuf.write a.toNat (v.extractLsb' 0 8) }

theorem onlyAnswered.byHost {s t : State} (h : onlyAnswered s t) (i : Instr) :
    t.lenw = s.lenw ∧ t.ready = s.ready ∧ t.inbox = s.inbox ∧
      EncByHost s.lenw s.enc i t.enc ∧ DecByHost s.lenw s.dec i t.dec := by
  obtain ⟨h1, h2, h3, h4, h5⟩ := h
  exact ⟨h1, h2, h5, h3 ▸ .same i, h4 ▸ .same i⟩

/-- Everything a transaction can do (42_sequencer_and_host.md R200): it always answers a next
state, and on each unit one of the effects above. -/
theorem exec_transaction (i : Instr) (s : State) (h : i.isTransaction = true) :
    ∃ t, exec i s = .next t ∧ t.lenw = s.lenw ∧ t.ready = s.ready ∧ t.inbox = s.inbox ∧
      EncByHost s.lenw s.enc i t.enc ∧ DecByHost s.lenw s.dec i t.dec := by
  cases i with
  | encStart =>
    refine ⟨_, rfl, ?_⟩
    unfold writeUnlessBusy
    split
    · exact (onlyAnswered_ackWrite s).byHost _
    · next hb => exact ⟨rfl, rfl, rfl, .start hb, .same _⟩
  | decStart =>
    refine ⟨_, rfl, ?_⟩
    unfold writeUnlessBusy
    split
    · exact (onlyAnswered_ackWrite s).byHost _
    · next hb => exact ⟨rfl, rfl, rfl, .same _, .start hb⟩
  | ctrlNop u => exact ⟨_, rfl, (onlyAnswered_ackWrite s).byHost _⟩
  | wrIlen u v =>
    refine ⟨_, rfl, ?_⟩
    unfold writeUnlessBusy
    split
    · exact (onlyAnswered_ackWrite s).byHost _
    · next hb =>
      cases u
      · exact ⟨rfl, rfl, rfl, .ilen v hb, .same _⟩
      · exact ⟨rfl, rfl, rfl, .same _, .ilen v hb⟩
  | wrIbuf u a v =>
    by_cases ha : a.toNat < ibufCells s.lenw u
    · refine ⟨_, if_pos ha, ?_⟩
      unfold writeUnlessBusy
      split
      · exact (onlyAnswered_ackWrite s).byHost _
      · next hb =>
        cases u
        · exact ⟨rfl, rfl, rfl, .ibuf a v hb ha, .same _⟩
        · exact ⟨rfl, rfl, rfl, .same _, .ibuf a v hb ha⟩
    · exact ⟨_, if_neg ha, (onlyAnswered_reserved true s).byHost _⟩
  | rdCtrl u => exact ⟨_, rfl, (onlyAnswered_answer _ s).byHost _⟩
  | rdStatus u => exact ⟨_, rfl, (onlyAnswered_answer _ s).byHost _⟩
  | rdIlen u => exact ⟨_, rfl, (onlyAnswered_answer _ s).byHost _⟩
  | rdOlen u => exact ⟨_, rfl, (onlyAnswered_answerUnlessBusy u _ s).byHost _⟩
  | rdGp u => exact ⟨_, rfl, (onlyAnswered_answerUnlessBusy u _ s).byHost _⟩
  | rdIbuf u a =>
    by_cases ha : a.toNat < ibufCells s.lenw u
    · exact ⟨_, if_pos ha, (onlyAnswered_answerCell u _ _ s).byHost _⟩
    · exact ⟨_, if_neg ha, (onlyAnswered_reserved false s).byHost _⟩
  | rdObuf u a =>
    by_cases ha : a.toNat < obufCells s.lenw
    · exact ⟨_, if_pos ha, (onlyAnswered_answerCell u _ _ s).byHost _⟩
    · exact ⟨_, if_neg ha, (onlyAnswered_reserved false s).byHost _⟩
  | htRsvd w => exact ⟨_, rfl, (onlyAnswered_reserved _ s).byHost _⟩
  | encG3 | encG2 | encG1 | decQ4 | decQ3 | decQ2 | decRej => exact Bool.noConfusion h

/-! ## The group and quad operations from their result on -/

theorem finishGroup_of_pre {s : State} (h : encStepPre s.enc) (chars : List Byte) :
    finishGroup chars s = .next (s.withEnc { s.enc with
      obuf := s.enc.obuf.writeCells (4 * s.enc.gp) chars
      olen := s.enc.olen + 4
      gp := s.enc.gp + 1 }) := if_pos h

theorem finishGroup_of_not_pre {s : State} (h : ¬ encStepPre s.enc) (chars : List Byte) :
    finishGroup chars s = .refused .notIssued := if_neg h

theorem finishQuad_of_not_pre {s : State} (h : ¬ decStepPre s.dec) (r : QuadResult) :
    finishQuad r s = .refused .notIssued := if_neg h

theorem finishQuad_validate {s : State} (h : decStepPre s.dec) (hp : s.dec.phase = .validate)
    (r : QuadResult) : finishQuad r s = finishValidate r s := by
  rw [finishQuad, if_pos h, hp]

theorem finishQuad_decode {s : State} (h : decStepPre s.dec) (hp : s.dec.phase = .decode)
    (r : QuadResult) : finishQuad r s = finishDecode r s := by
  rw [finishQuad, if_pos h, hp]

end Sys2Proof.Machine
end

