-- ==== Sys2Proof/Laws/Codec.lean ====
section
/-! SUPPORT. The two tables invert each other, and a quad operation selected by a class word
computes DecQuad. -/

namespace Sys2Proof.Machine

/-! ## The tables -/

theorem rev_alphabet (i : Idx) : rev (alphabet i) = .D i := by
  revert i; decide

@[simp] theorem rev_padChar : rev padChar = .P := by decide

theorem alphabet_injective : Function.Injective alphabet := fun i j h => by
  have := congrArg rev h
  rwa [rev_alphabet, rev_alphabet, Class.D.injEq] at this

theorem alphabet_ne_padChar (i : Idx) : alphabet i ≠ padChar := fun h => by
  have := congrArg rev h
  rw [rev_alphabet, rev_padChar] at this
  cases this

theorem alphabet_of_rev {c : Byte} {v : Idx} (h : rev c = .D v) : alphabet v = c := by
  revert c v; decide

theorem padChar_of_rev {c : Byte} (h : rev c = .P) : c = padChar := by
  revert c; decide

@[simp] theorem Class.kls_D (v : Idx) : (Class.D v).kls = .D := rfl
@[simp] theorem Class.kls_P : Class.P.kls = .P := rfl
@[simp] theorem Class.kls_X : Class.X.kls = .X := rfl

/-! ## Characters of a quad -/

section
variable (c0 c1 c2 c3 : Byte)

@[simp] theorem quadChar_zero : quadChar (assembleQuad c0 c1 c2 c3) 0 = c0 := by
  unfold quadChar assembleQuad
  rw [BitVec.extractLsb'_append_eq_of_le (by decide), BitVec.extractLsb'_append_eq_of_le (by decide)]
  exact BitVec.extractLsb'_append_eq_left

@[simp] theorem quadChar_one : quadChar (assembleQuad c0 c1 c2 c3) 1 = c1 := by
  unfold quadChar assembleQuad
  rw [BitVec.extractLsb'_append_eq_of_le (by decide), BitVec.extractLsb'_append_eq_of_le (by decide)]
  exact BitVec.extractLsb'_append_eq_right

@[simp] theorem quadChar_two : quadChar (assembleQuad c0 c1 c2 c3) 2 = c2 := by
  unfold quadChar assembleQuad
  rw [BitVec.extractLsb'_append_eq_of_le (by decide)]
  exact BitVec.extractLsb'_append_eq_right

@[simp] theorem quadChar_three : quadChar (assembleQuad c0 c1 c2 c3) 3 = c3 :=
  BitVec.extractLsb'_append_eq_right

end

/-! ## Selection -/

/-- The class word of a quad decodes to the operation R98 (30_encoding.md) selects. -/
theorem decodeQcw_classWord (fin : Bool) (k0 k1 k2 k3 : Kls) :
    decodeQcw (BitVec.ofBool fin ++ assembleKls k0 k1 k2 k3) =
      .ok (selectQuadOp fin k0 k1 k2 k3) := by
  cases fin <;> cases k0 <;> cases k1 <;> cases k2 <;> cases k3 <;> rfl

/-- The operation a quad's own class word selects computes DecQuad (41_decoder.md R150). -/
theorem exec_selectQuadOp (fin : Bool) (c0 c1 c2 c3 : Byte) {s : State}
    (h : s.dec.quad = assembleQuad c0 c1 c2 c3) :
    exec (selectQuadOp fin (rev c0).kls (rev c1).kls (rev c2).kls (rev c3).kls) s =
      finishQuad (decQuad fin c0 c1 c2 c3) s := by
  unfold decQuad
  rcases h0 : rev c0 with v0 | _ | _ <;> rcases h1 : rev c1 with v1 | _ | _ <;>
    rcases h2 : rev c2 with v2 | _ | _ <;> rcases h3 : rev c3 with v3 | _ | _ <;> cases fin <;>
    simp [selectQuadOp, exec, execDecQ4, execDecQ3, execDecQ2, execDecRej, h, h0, h1, h2, h3]

/-- DecQuad answers one to three bytes, three unless the quad is final. -/
theorem decQuad_ok_length {final : Bool} {c0 c1 c2 c3 : Byte} {bs : List Byte}
    (h : decQuad final c0 c1 c2 c3 = .ok bs) :
    1 ≤ bs.length ∧ bs.length ≤ 3 ∧ (final = false → bs.length = 3) := by
  unfold decQuad at h
  split at h
  · simp only [quadBytes4, QuadResult.ok.injEq] at h
    subst h; simp
  · simp only [quadBytes3] at h
    split at h
    · simp only [QuadResult.ok.injEq] at h
      subst h; simp
    · cases h
  · simp only [quadBytes2] at h
    split at h
    · simp only [QuadResult.ok.injEq] at h
      subst h; simp
    · cases h
  · unfold quadReject at h
    split at h <;> cases h

end Sys2Proof.Machine
end

