-- ==== Sys2Proof/Laws/PerInstr.lean ====
section
/-! SUPPORT. For every instruction: its encoding satisfies the mask and match of its row of the
opcode table (30_encoding.md R97, R98, R100). -/

namespace Sys2Proof.Laws.RowMatch

/-- The word satisfies the row's `(word & mask) = match`. -/
def matchesRow (r : Row) : Encoded → Prop
  | .htw w => ∃ x ∈ htwTable, x.1 = r ∧ w &&& x.2.2 = x.2.1
  | .egd w => ∃ x ∈ egdTable, x.1 = r ∧ w &&& x.2.2 = x.2.1
  | .qcw w => ∃ x ∈ qcwTable, x.1 = r ∧ w &&& x.2.2 = x.2.1

def Statement (i : Instr) : Prop := matchesRow i.row (encode i)

/-- The full-register mask `0xBFFFFFFF_00000000` keeps rw, space and addr. -/
theorem and_regMask (rw unit : BitVec 1) (space : BitVec 2) (addr : BitVec 28) (data : BitVec 32) :
    mkHtw rw unit space addr data &&& 0xBFFFFFFF00000000 = mkHtw rw 0 space addr 0 := by
  rw [show (0xBFFFFFFF00000000 : BitVec 64) = mkHtw 1 0 0b11 0xFFFFFFF 0 by decide, mkHtw_and]
  congr 1
  · revert rw; decide
  · revert unit; decide
  · revert space; decide
  · exact BitVec.and_allOnes
  · exact BitVec.and_zero

/-- The buffer mask `0xB0000000_00000000` keeps rw and space. -/
theorem and_bufMask (rw unit : BitVec 1) (space : BitVec 2) (addr : BitVec 28) (data : BitVec 32) :
    mkHtw rw unit space addr data &&& 0xB000000000000000 = mkHtw rw 0 space 0 0 := by
  rw [show (0xB000000000000000 : BitVec 64) = mkHtw 1 0 0b11 0 0 by decide, mkHtw_and]
  congr 1
  · revert rw; decide
  · revert unit; decide
  · revert space; decide
  · exact BitVec.and_zero
  · exact BitVec.and_zero

/-- The mask `0x3000000` of the group rows keeps cnt. -/
theorem and_cntMask (cnt : BitVec 2) (b0 b1 b2 : Byte) :
    mkEgd cnt b0 b1 b2 &&& 0x3000000 = mkEgd cnt 0 0 0 := by
  rw [show (0x3000000 : BitVec 26) = mkEgd 0b11 0 0 0 by decide, mkEgd_and]
  congr 1
  · revert cnt; decide
  all_goals exact BitVec.and_zero

theorem encStart : Statement .encStart := ⟨_, by simp [htwTable]; exact .inl rfl, rfl, by decide⟩
theorem decStart : Statement .decStart :=
  ⟨(.decStart, 0xC000000000000001, 0xFFFFFFFF00000001), by simp [htwTable], rfl, by decide⟩
theorem ctrlNop (u : UnitId) : Statement (.ctrlNop u) :=
  ⟨(.ctrlNop, 0x8000000000000000, 0xBFFFFFFF00000001), by simp [htwTable], rfl, by
    cases u <;> decide⟩
theorem wrIlen (u : UnitId) (v : HostWord) : Statement (.wrIlen u v) :=
  ⟨(.wrIlen, 0x8000000200000000, 0xBFFFFFFF00000000), by simp [htwTable], rfl,
    (and_regMask _ _ _ _ _).trans (by decide)⟩
theorem wrIbuf (u : UnitId) (a : BitVec 28) (v : HostWord) : Statement (.wrIbuf u a v) :=
  ⟨(.wrIbuf, 0x9000000000000000, 0xB000000000000000), by simp [htwTable], rfl,
    (and_bufMask _ _ _ _ _).trans (by decide)⟩
theorem rdCtrl (u : UnitId) : Statement (.rdCtrl u) :=
  ⟨(.rdCtrl, 0x0000000000000000, 0xBFFFFFFF00000000), by simp [htwTable], rfl,
    (and_regMask _ _ _ _ _).trans (by decide)⟩
theorem rdStatus (u : UnitId) : Statement (.rdStatus u) :=
  ⟨(.rdStatus, 0x0000000100000000, 0xBFFFFFFF00000000), by simp [htwTable], rfl,
    (and_regMask _ _ _ _ _).trans (by decide)⟩
theorem rdIlen (u : UnitId) : Statement (.rdIlen u) :=
  ⟨(.rdIlen, 0x0000000200000000, 0xBFFFFFFF00000000), by simp [htwTable], rfl,
    (and_regMask _ _ _ _ _).trans (by decide)⟩
theorem rdOlen (u : UnitId) : Statement (.rdOlen u) :=
  ⟨(.rdOlen, 0x0000000300000000, 0xBFFFFFFF00000000), by simp [htwTable], rfl,
    (and_regMask _ _ _ _ _).trans (by decide)⟩
theorem rdGp (u : UnitId) : Statement (.rdGp u) :=
  ⟨(.rdGp, 0x0000000400000000, 0xBFFFFFFF00000000), by simp [htwTable], rfl,
    (and_regMask _ _ _ _ _).trans (by decide)⟩
theorem rdIbuf (u : UnitId) (a : BitVec 28) : Statement (.rdIbuf u a) :=
  ⟨(.rdIbuf, 0x1000000000000000, 0xB000000000000000), by simp [htwTable], rfl,
    (and_bufMask _ _ _ _ _).trans (by decide)⟩
theorem rdObuf (u : UnitId) (a : BitVec 28) : Statement (.rdObuf u a) :=
  ⟨(.rdObuf, 0x2000000000000000, 0xB000000000000000), by simp [htwTable], rfl,
    (and_bufMask _ _ _ _ _).trans (by decide)⟩
theorem htRsvd (w : BitVec 64) : Statement (.htRsvd w) :=
  ⟨(.htRsvd, 0x0000000000000000, 0x0000000000000000), by simp [htwTable], rfl, BitVec.and_zero⟩
theorem encG3 (b0 b1 b2 : Byte) : Statement (.encG3 b0 b1 b2) :=
  ⟨(.encG3, 0x3000000, 0x3000000), by simp [egdTable], rfl,
    (and_cntMask _ _ _ _).trans (by decide)⟩
theorem encG2 (b0 b1 : Byte) : Statement (.encG2 b0 b1) :=
  ⟨(.encG2, 0x2000000, 0x3000000), by simp [egdTable], rfl,
    (and_cntMask _ _ _ _).trans (by decide)⟩
theorem encG1 (b0 : Byte) : Statement (.encG1 b0) :=
  ⟨(.encG1, 0x1000000, 0x3000000), by simp [egdTable], rfl,
    (and_cntMask _ _ _ _).trans (by decide)⟩
theorem decQ4 (fin : Bool) : Statement (.decQ4 fin) :=
  ⟨(.decQ4, 0x000, 0x0FF), by simp [qcwTable], rfl, by cases fin <;> decide⟩
theorem decQ3 : Statement .decQ3 := ⟨(.decQ3, 0x101, 0x1FF), by simp [qcwTable], rfl, by decide⟩
theorem decQ2 : Statement .decQ2 := ⟨(.decQ2, 0x105, 0x1FF), by simp [qcwTable], rfl, by decide⟩
theorem decRej (fin : Bool) (k0 k1 k2 k3 : Kls) : Statement (.decRej fin k0 k1 k2 k3) :=
  ⟨(.decRej, 0x000, 0x000), by simp [qcwTable], rfl, BitVec.and_zero⟩

end Sys2Proof.Laws.RowMatch
end

