-- ==== Sys2Proof/Laws/Step.lean ====
section
/-! SUPPORT. What a turn of a unit and a step of the block can do, each said once. -/

namespace Sys2Proof.Machine

@[simp] theorem runWord_htw (w : BitVec 64) (s : State) :
    runWord (.htw w) s = exec (decodeHtw s.lenw w) s := rfl

/-! ## Unit ENC -/

/-- A group of `n` bytes, `1 ≤ n ≤ 3`, as the grouper holds it decodes to the group operation on
those bytes, whose characters are EncGroup's (30_encoding.md R97, 40_encoder.md R120). -/
theorem runWord_descriptor {s : State} {bs : List Byte} {g : Nat} (hg : g < groupCount s.enc.ilen)
    (hl : bs.length = groupSize s.enc.ilen g)
    (hc : s.enc.cnt = BitVec.ofNat 2 bs.length) (hr : s.enc.grp = assembleGroup bs) :
    runWord (.egd (encDescriptor s.enc)) s = finishGroup (encGroup bs) s := by
  have hlen : 1 ≤ bs.length ∧ bs.length ≤ 3 := by
    unfold groupSize at hl; unfold groupCount at hg; omega
  have hmk : ∀ (k : BitVec 2) (a b c : Byte), k ++ (a ++ b ++ c) = mkEgd k a b c := by
    intro k a b c
    unfold mkEgd
    apply BitVec.eq_of_toNat_eq
    simp only [BitVec.toNat_append, Nat.shiftLeft_or_distrib, ← Nat.shiftLeft_add, Nat.or_assoc]
  unfold encDescriptor
  rw [hc, hr]
  match bs, hlen with
  | [b0], _ =>
    simp only [List.length_singleton, assembleGroup, hmk, runWord, decode, decodeEgd, egdCnt_mkEgd,
      egdB0_mkEgd, egdB1_mkEgd, egdB2_mkEgd]
    rfl
  | [b0, b1], _ =>
    simp only [List.length_cons, List.length_nil, assembleGroup, hmk, runWord, decode, decodeEgd,
      egdCnt_mkEgd, egdB0_mkEgd, egdB1_mkEgd, egdB2_mkEgd]
    rfl
  | [b0, b1, b2], _ =>
    simp only [List.length_cons, List.length_nil, assembleGroup, hmk, runWord, decode, decodeEgd,
      egdCnt_mkEgd, egdB0_mkEgd, egdB1_mkEgd, egdB2_mkEgd]
    rfl

/-- ENC with the group `bs` loaded (42_sequencer_and_host.md R193). -/
def encLatched (e : EncUnit) (bs : List Byte) : EncUnit :=
  { e with cnt := BitVec.ofNat 2 bs.length, grp := assembleGroup bs }

/-- ENC after ENC.STEP on the group `bs` (42_sequencer_and_host.md R193). -/
def encStepped (e : EncUnit) (bs : List Byte) : EncUnit :=
  { encLatched e bs with
    obuf := e.obuf.writeCells (4 * e.gp) (encGroup bs)
    olen := e.olen + 4
    gp := e.gp + 1 }

theorem encGroupLatch_ok {s : State} {bs : List Byte}
    (h : s.enc.ibuf.readCells (3 * s.enc.gp) (groupSize s.enc.ilen s.enc.gp) = .ok bs) :
    encGroupLatch s = .ok (s.withEnc (encLatched s.enc bs)) := by
  unfold encGroupLatch encLatched
  rw [h, (Memory.readCells_eq_ok_iff.1 h).1]

theorem encGroupLatch_error {s : State} {a : Nat}
    (h : s.enc.ibuf.readCells (3 * s.enc.gp) (groupSize s.enc.ilen s.enc.gp) = .error a) :
    encGroupLatch s = .error (.cellHoldsNoValue .enc a) := by
  unfold encGroupLatch
  rw [h]

/-- Everything a turn of ENC can answer (42_sequencer_and_host.md R190, R192 to R194). -/
theorem encTurn_eq (s : State) :
    encTurn runWord s =
      if s.enc.st = .busy then
        if s.enc.gp < groupCount s.enc.ilen then
          match s.enc.ibuf.readCells (3 * s.enc.gp) (groupSize s.enc.ilen s.enc.gp) with
          | .error a => .fault (.cellHoldsNoValue .enc a)
          | .ok bs => .next (s.withEnc (encStepped s.enc bs))
        else .next (encEnd s)
      else .next s := by
  unfold encTurn
  split
  · next hb =>
    split
    · next hg =>
      cases hr : s.enc.ibuf.readCells (3 * s.enc.gp) (groupSize s.enc.ilen s.enc.gp) with
      | error a => rw [encGroupLatch_error hr]
      | ok bs =>
        have hl := (Memory.readCells_eq_ok_iff.1 hr).1
        rw [encGroupLatch_ok hr]
        have hrun := runWord_descriptor (s := s.withEnc (encLatched s.enc bs)) (bs := bs)
          (g := s.enc.gp) hg hl rfl rfl
        have hpre : encStepPre (s.withEnc (encLatched s.enc bs)).enc := ⟨hb, hg⟩
        rw [finishGroup_of_pre hpre] at hrun
        exact hrun
    · rfl
  · rfl

/-! ## Unit DEC -/

/-- DEC with the quad of its GP loaded (42_sequencer_and_host.md R196). -/
def decLatched (d : DecUnit) (c0 c1 c2 c3 : Byte) : DecUnit :=
  { d with
    quad := assembleQuad c0 c1 c2 c3
    fin := BitVec.ofBool (decide (d.gp = quadCount d.ilen - 1))
    kls := assembleKls (rev c0).kls (rev c1).kls (rev c2).kls (rev c3).kls }

/-- A read of four cells answers four characters. -/
theorem Memory.readCells_four {m : Memory} {a : Nat} {bs : List Byte}
    (h : m.readCells a 4 = .ok bs) : ∃ c0 c1 c2 c3, bs = [c0, c1, c2, c3] := by
  have hl := (Memory.readCells_eq_ok_iff.1 h).1
  match bs, hl with
  | [c0, c1, c2, c3], _ => exact ⟨c0, c1, c2, c3, rfl⟩

/-- A quad step runs DecQuad on the cells of the quad (41_decoder.md R150, R155). -/
theorem decQuadStep_eq (s : State) (c0 c1 c2 c3 : Byte)
    (h : s.dec.ibuf.readCells (4 * s.dec.gp) 4 = .ok [c0, c1, c2, c3]) :
    decQuadStep runWord s =
      finishQuad (decQuad (decide (s.dec.gp = quadCount s.dec.ilen - 1)) c0 c1 c2 c3)
        (s.withDec (decLatched s.dec c0 c1 c2 c3)) := by
  unfold decQuadStep decQuadLatch
  rw [h]
  simp only [runWord, decode, decClassWord, State.withDec_dec, decodeQcw_classWord]
  exact exec_selectQuadOp _ c0 c1 c2 c3 rfl

theorem decQuadStep_error {s : State} {a : Nat}
    (h : s.dec.ibuf.readCells (4 * s.dec.gp) 4 = .error a) :
    decQuadStep runWord s = .fault (.cellHoldsNoValue .dec a) := by
  unfold decQuadStep decQuadLatch
  rw [h]

/-- Everything a turn of DEC can do to DEC when it answers a next state
(42_sequencer_and_host.md R219). -/
inductive DecMove (d : DecUnit) : DecUnit → Prop where
  | rest : d.st ≠ .busy → DecMove d d
  | badLen : d.st = .busy → d.phase = .lenchk → d.ilen % 4 ≠ 0 →
      DecMove d { d with err := true, cause := .badLen, olen := 0, st := .done }
  | lengthOk : d.st = .busy → d.phase = .lenchk → d.ilen % 4 = 0 →
      DecMove d { d with phase := .validate }
  | accept (c0 c1 c2 c3 : Byte) (bs : List Byte) : d.st = .busy → d.phase = .validate →
      d.gp < quadCount d.ilen → d.ibuf.readCells (4 * d.gp) 4 = .ok [c0, c1, c2, c3] →
      decQuad (decide (d.gp = quadCount d.ilen - 1)) c0 c1 c2 c3 = .ok bs →
      DecMove d { decLatched d c0 c1 c2 c3 with gp := d.gp + 1 }
  | reject (c0 c1 c2 c3 : Byte) (c : Cause) : d.st = .busy → d.phase = .validate →
      d.gp < quadCount d.ilen → d.ibuf.readCells (4 * d.gp) 4 = .ok [c0, c1, c2, c3] →
      decQuad (decide (d.gp = quadCount d.ilen - 1)) c0 c1 c2 c3 = .reject c →
      DecMove d { decLatched d c0 c1 c2 c3 with err := true, cause := c, olen := 0, st := .done }
  | validated : d.st = .busy → d.phase = .validate → ¬ d.gp < quadCount d.ilen →
      DecMove d { d with phase := .decode, gp := 0 }
  | write (c0 c1 c2 c3 : Byte) (bs : List Byte) : d.st = .busy → d.phase = .decode →
      d.gp < quadCount d.ilen → d.ibuf.readCells (4 * d.gp) 4 = .ok [c0, c1, c2, c3] →
      decQuad (decide (d.gp = quadCount d.ilen - 1)) c0 c1 c2 c3 = .ok bs →
      DecMove d { decLatched d c0 c1 c2 c3 with
        obuf := d.obuf.writeCells (3 * d.gp) bs
        olen := 3 * d.gp + bs.length
        gp := d.gp + 1 }
  | decoded : d.st = .busy → d.phase = .decode → ¬ d.gp < quadCount d.ilen →
      DecMove d { d with st := .done }

theorem decTurn_next {s t : State} (h : decTurn runWord s = .next t) :
    ∃ d, DecMove s.dec d ∧ t = s.withDec d := by
  unfold decTurn at h
  split at h
  · next hb =>
    have quadStep : s.dec.phase ≠ .lenchk → s.dec.gp < quadCount s.dec.ilen →
        decQuadStep runWord s = .next t → ∃ d, DecMove s.dec d ∧ t = s.withDec d := by
      intro hp hg h
      cases hr : s.dec.ibuf.readCells (4 * s.dec.gp) 4 with
      | error a => rw [decQuadStep_error hr] at h; cases h
      | ok bs =>
        obtain ⟨c0, c1, c2, c3, rfl⟩ := Memory.readCells_four hr
        rw [decQuadStep_eq s c0 c1 c2 c3 hr] at h
        have hpre : decStepPre (s.withDec (decLatched s.dec c0 c1 c2 c3)).dec := ⟨hb, hp, hg⟩
        cases hph : s.dec.phase with
        | lenchk => exact absurd hph hp
        | validate =>
          rw [finishQuad_validate hpre hph] at h
          cases hq : decQuad (decide (s.dec.gp = quadCount s.dec.ilen - 1)) c0 c1 c2 c3 with
          | ok bs =>
            rw [hq] at h; cases h
            exact ⟨_, .accept c0 c1 c2 c3 bs hb hph hg hr hq, rfl⟩
          | reject c =>
            rw [hq] at h; cases h
            exact ⟨_, .reject c0 c1 c2 c3 c hb hph hg hr hq, rfl⟩
        | decode =>
          rw [finishQuad_decode hpre hph] at h
          cases hq : decQuad (decide (s.dec.gp = quadCount s.dec.ilen - 1)) c0 c1 c2 c3 with
          | ok bs =>
            rw [hq] at h; cases h
            exact ⟨_, .write c0 c1 c2 c3 bs hb hph hg hr hq, rfl⟩
          | reject c => rw [hq] at h; cases h
    split at h
    · next hp =>
      cases h
      by_cases hm : s.dec.ilen % 4 ≠ 0
      · exact ⟨_, .badLen hb hp hm, if_pos hm⟩
      · exact ⟨_, .lengthOk hb hp (not_not.1 hm), if_neg hm⟩
    · next hp =>
      split at h
      · next hg => exact quadStep (by simp [hp]) hg h
      · next hg => cases h; exact ⟨_, .validated hb hp hg, rfl⟩
    · next hp =>
      split at h
      · next hg => exact quadStep (by simp [hp]) hg h
      · next hg => cases h; exact ⟨_, .decoded hb hp hg, rfl⟩
  · next hb => cases h; exact ⟨_, .rest hb, rfl⟩

/-! ## One step -/

/-- Everything a turn of ENC can do to ENC when it answers a next state. -/
inductive EncMove (e : EncUnit) : EncUnit → Prop where
  | rest : e.st ≠ .busy → EncMove e e
  | group (bs : List Byte) : e.st = .busy → e.gp < groupCount e.ilen →
      e.ibuf.readCells (3 * e.gp) (groupSize e.ilen e.gp) = .ok bs →
      EncMove e (encStepped e bs)
  | finish : e.st = .busy → ¬ e.gp < groupCount e.ilen → EncMove e { e with st := .done }

theorem encTurn_next {s t : State} (h : encTurn runWord s = .next t) :
    ∃ e, EncMove s.enc e ∧ t = s.withEnc e := by
  rw [encTurn_eq] at h
  split at h
  · next hb =>
    split at h
    · next hg =>
      cases hr : s.enc.ibuf.readCells (3 * s.enc.gp) (groupSize s.enc.ilen s.enc.gp) with
      | error a => rw [hr] at h; cases h
      | ok bs => rw [hr] at h; cases h; exact ⟨_, .group bs hb hg hr, rfl⟩
    · next hg => cases h; exact ⟨_, .finish hb hg, rfl⟩
  · next hb => cases h; exact ⟨_, .rest hb, rfl⟩

/-- Every decoded host word is a transaction (30_encoding.md R100). -/
theorem decodeHtw_isTransaction (lenw : Nat) (w : BitVec 64) :
    (decodeHtw lenw w).isTransaction = true := by
  unfold decodeHtw decodeWrite decodeRead
  split_ifs <;> first | rfl | (cases unitOfBit (htwUnit w) <;> rfl)

/-- The four ways a step answers a next state: reset, a transaction, a turn of a unit. -/
inductive StepMove (s : State) : Event → State → Prop where
  | reset : StepMove s .reset (resetEvent s)
  | host (w : BitVec 64) (t : State) : s.ready = true → exec (decodeHtw s.lenw w) s = .next t →
      StepMove s (.host w) t
  | enc (e : EncUnit) : s.ready = true → EncMove s.enc e → StepMove s .encTurn (s.withEnc e)
  | dec (d : DecUnit) : s.ready = true → DecMove s.dec d → StepMove s .decTurn (s.withDec d)

theorem step_next {s t : State} (h : step s = .next t) :
    StepMove (nextEvent s).2 (nextEvent s).1 t := by
  unfold step stepWith at h
  generalize (nextEvent s).1 = ev at h ⊢
  generalize (nextEvent s).2 = s' at h ⊢
  unfold transition at h
  cases ev with
  | reset => cases h; exact .reset
  | host w =>
    simp only at h
    split at h
    · next hr => exact .host w t hr h
    · cases h
  | encTurn =>
    simp only at h
    split at h
    · next hr => obtain ⟨e, he, rfl⟩ := encTurn_next h; exact .enc e hr he
    · cases h
  | decTurn =>
    simp only at h
    split at h
    · next hr => obtain ⟨d, hd, rfl⟩ := decTurn_next h; exact .dec d hr hd
    · cases h

/-- Choosing the next transition changes nothing but the inbox. -/
theorem nextEvent_state (s : State) : ∃ es, (nextEvent s).2 = s.withInbox es := by
  unfold nextEvent
  split
  · next e es h => exact ⟨es, rfl⟩
  · exact ⟨s.inbox, rfl⟩

theorem nextEvent_cons {s : State} {e : Event} {es : List Event} (h : s.inbox = e :: es) :
    nextEvent s = (e, s.withInbox es) := by
  unfold nextEvent; rw [h]

theorem nextEvent_nil {s : State} (h : s.inbox = []) :
    nextEvent s = (if s.enc.st = .busy then .encTurn else .decTurn, s) := by
  unfold nextEvent; rw [h]

end Sys2Proof.Machine
end

