-- ==== Sys2Proof/Tests/Slice0.lean ====
section
/-! SUPPORT. Tests: expected results are the vectors of spec/95_test_vectors.md (V and P numbers)
or the tables of spec/30_encoding.md, never the model's own answers. Then one witness for the
hypotheses of each statement. LENW is 8 throughout. -/

namespace Sys2Proof.Tests

open Sys2Proof Sys2Proof.Machine

/-! ## Small states -/

/-- The outcome is a next state of which `p` holds. -/
def nextIs (r : Result) (p : State → Bool) : Bool :=
  match r with
  | .next t => p t
  | .fault _ => false
  | .refused _ => false

/-- The outcome is this fault. -/
def faultIs (r : Result) (f : Fault) : Bool :=
  match r with
  | .next _ => false
  | .fault g => decide (g = f)
  | .refused _ => false

/-- The outcome is this refusal. -/
def refusedIs (r : Result) (x : Refusal) : Bool :=
  match r with
  | .next _ => false
  | .fault _ => false
  | .refused y => decide (y = x)

/-- The cells `a, a+1, ..` of a buffer hold exactly these values. -/
def holds (m : Memory) (a : Nat) (bs : List Byte) : Bool :=
  match m.readCells a bs.length with
  | .ok cs => decide (cs = bs)
  | .error _ => false

def cells (bs : List Byte) : Memory := Memory.writeCells [] 0 bs

/-- `hello world` (V1). -/
def hello : List Byte := [0x68, 0x65, 0x6C, 0x6C, 0x6F, 0x20, 0x77, 0x6F, 0x72, 0x6C, 0x64]

/-- `aGVsbG8gd29ybGQ=` (V1). -/
def helloText : List Byte :=
  [0x61, 0x47, 0x56, 0x73, 0x62, 0x47, 0x38, 0x67, 0x64, 0x32, 0x39, 0x79, 0x62, 0x47, 0x51, 0x3D]

/-- ENC BUSY on group `g` of a message, with that group's turn next. -/
def encAt (m : List Byte) (g : Nat) : State :=
  (State.reset.withEnc { EncUnit.reset with
    ibuf := cells m, ilen := m.length, olen := 4 * g, gp := g, st := .busy }).withInbox [.encTurn]

/-- DEC BUSY at quad `q` of a text, with its turn next. -/
def decAt (m : List Byte) (ph : Phase) (q : Nat) : State :=
  (State.reset.withDec { DecUnit.reset with
    ibuf := cells m, ilen := m.length, phase := ph
    olen := if ph = .decode then 3 * q else 0
    gp := q, st := .busy }).withInbox [.decTurn]

/-- DEC BUSY at quad 0 with these characters latched. -/
def decLatched (ph : Phase) (c0 c1 c2 c3 : Byte) : State :=
  let s := decAt [c0, c1, c2, c3] ph 0
  s.withDec { s.dec with quad := c0 ++ c1 ++ c2 ++ c3, fin := 1 }

/-- The state before each row of V50. -/
def v50 : State :=
  (State.reset.withEnc { EncUnit.reset with
    ibuf := cells hello, obuf := cells helloText, ilen := 11, olen := 16, gp := 4, st := .done }).withDec
  { DecUnit.reset with
    ibuf := cells [0x41, 0x41, 0x41, 0x41, 0x41, 0x41, 0x3D, 0x41], obuf := cells hello
    ilen := 8, gp := 1, st := .done, phase := .validate, err := true, cause := .badPad }

/-- `v50` with ENC BUSY (V51). -/
def v51 : State := v50.withEnc { v50.enc with olen := 0, gp := 0, st := .busy }

/-- One host transaction as the next step. -/
def host (w : BitVec 64) (s : State) : Result := step (s.withInbox [.host w])

/-! ## Well-formedness: every check refuses its ill-formed term (30_encoding.md R98, R100, R104) -/

theorem test_wf_refuses_wrIbuf_out_of_range :
    (Instr.wrIbuf .enc 256 0).WellFormed 8 = false ∧ (Instr.wrIbuf .dec 512 0).WellFormed 8 = false ∧
      (Instr.wrIbuf .enc 255 0).WellFormed 8 = true ∧ (Instr.wrIbuf .dec 511 0).WellFormed 8 = true := by
  decide

theorem test_wf_refuses_rdIbuf_out_of_range :
    (Instr.rdIbuf .enc 256).WellFormed 8 = false ∧ (Instr.rdIbuf .dec 512).WellFormed 8 = false ∧
      (Instr.rdIbuf .dec 511).WellFormed 8 = true := by decide

theorem test_wf_refuses_rdObuf_out_of_range :
    (Instr.rdObuf .enc 512).WellFormed 8 = false ∧ (Instr.rdObuf .dec 512).WellFormed 8 = false ∧
      (Instr.rdObuf .enc 511).WellFormed 8 = true := by decide

theorem test_wf_refuses_htRsvd_of_other_rows :
    (Instr.htRsvd 0x0000000100000000).WellFormed 8 = false ∧
      (Instr.htRsvd 0x90000000000000FF).WellFormed 8 = false ∧
      (Instr.htRsvd 0x80000001000000FF).WellFormed 8 = true := by decide

theorem test_wf_refuses_decRej_of_accepted_shapes :
    (Instr.decRej false .D .D .D .D).WellFormed 8 = false ∧
      (Instr.decRej true .D .D .D .P).WellFormed 8 = false ∧
      (Instr.decRej true .D .D .P .P).WellFormed 8 = false ∧
      (Instr.decRej false .D .D .D .P).WellFormed 8 = true := by decide

/-! ## Decoding words written out from R97, R98, R99 and R100 -/

/-- rw=1 unit=0 space=00 addr=0 data=1 (R100). -/
theorem test_decode_ENC_START :
    decodeTableWord 64 0b1000000000000000000000000000000000000000000000000000000000000001
      = some .encStart := by decide

/-- rw=1 unit=1 space=00 addr=0 data=1 (R100). -/
theorem test_decode_DEC_START :
    decodeTableWord 64 0b1100000000000000000000000000000000000000000000000000000000000001
      = some .decStart := by decide

/-- V50, both rows of CTRL.NOP. -/
theorem test_decode_CTRL_NOP :
    decodeTableWord 64 0x8000000000000000 = some (.ctrlNop .enc) ∧
      decodeTableWord 64 0x80000000FFFFFFFE = some (.ctrlNop .enc) := by decide

/-- P1, P2. -/
theorem test_decode_WR_ILEN :
    decodeTableWord 64 0x800000020000000B = some (.wrIlen .enc 11) ∧
      decodeTableWord 64 0xC000000200000010 = some (.wrIlen .dec 16) := by decide

/-- P1, P2. -/
theorem test_decode_WR_IBUF :
    decodeTableWord 64 0x9000000A00000064 = some (.wrIbuf .enc 10 0x64) ∧
      decodeTableWord 64 0xD000000F0000003D = some (.wrIbuf .dec 15 0x3D) := by decide

/-- V50; the data field of a read is ignored (R99). -/
theorem test_decode_RD_CTRL :
    decodeTableWord 64 0x0000000000000000 = some (.rdCtrl .enc) ∧
      decodeTableWord 64 0x40000000DEADBEEF = some (.rdCtrl .dec) := by decide

theorem test_decode_RD_STATUS :
    decodeTableWord 64 0x0000000100000000 = some (.rdStatus .enc) ∧
      decodeTableWord 64 0x4000000100000000 = some (.rdStatus .dec) := by decide

theorem test_decode_RD_ILEN :
    decodeTableWord 64 0x0000000200000000 = some (.rdIlen .enc) := by decide

theorem test_decode_RD_OLEN :
    decodeTableWord 64 0x0000000300000000 = some (.rdOlen .enc) ∧
      decodeTableWord 64 0x4000000300000000 = some (.rdOlen .dec) := by decide

theorem test_decode_RD_GP :
    decodeTableWord 64 0x4000000400000000 = some (.rdGp .dec) := by decide

/-- V50: `RD ENC.IBUF[255]` is RD.IBUF at LENW 8. -/
theorem test_decode_RD_IBUF :
    decodeTableWord 64 0x1000000A00000000 = some (.rdIbuf .enc 10) ∧
      decodeTableWord 64 0x100000FF00000000 = some (.rdIbuf .enc 255) := by decide

/-- V50: `RD ENC.OBUF[511]` is RD.OBUF at LENW 8; P2. -/
theorem test_decode_RD_OBUF :
    decodeTableWord 64 0x200001FF00000000 = some (.rdObuf .enc 511) ∧
      decodeTableWord 64 0x6000000A00000000 = some (.rdObuf .dec 10) := by decide

/-- The HT.RSVD rows of V50. -/
theorem test_decode_HT_RSVD :
    [0x0000000500000000, 0x80000001000000FF, 0xC000000300000007, 0xC000000400000007,
      0xA000000000000041, 0x3000000000000000, 0x1000010000000000, 0x2000020000000000].all
      (fun w => decide (decodeTableWord 64 w = some (.htRsvd (BitVec.ofNat 64 w)))) = true := by
  decide

/-- `cnt` 11, then the bytes 68 65 6C (R97, V10). -/
theorem test_decode_ENC_G3 :
    decodeTableWord 32 0b11011010000110010101101100 = some (.encG3 0x68 0x65 0x6C) := by decide

/-- V11. -/
theorem test_decode_ENC_G2 : decodeTableWord 32 0x26C6400 = some (.encG2 0x6C 0x64) := by decide

/-- V12; `cnt` = 00 is reserved (R97). -/
theorem test_decode_ENC_G1 :
    decodeTableWord 32 0x1F80000 = some (.encG1 0xF8) ∧ decodeTableWord 32 0x0F80000 = none := by
  decide

/-- V20, both values of `fin`. -/
theorem test_decode_DEC_Q4 :
    decodeTableWord 16 0x000 = some (.decQ4 false) ∧
      decodeTableWord 16 0x100 = some (.decQ4 true) := by decide

/-- `fin` 1, classes D D D P (R98, V21). -/
theorem test_decode_DEC_Q3 : decodeTableWord 16 0b100000001 = some .decQ3 := by decide

/-- `fin` 1, classes D D P P (R98, V22). -/
theorem test_decode_DEC_Q2 : decodeTableWord 16 0b100000101 = some .decQ2 := by decide

/-- V23, three rows; class code 11 is never produced (R98). -/
theorem test_decode_DEC_REJ :
    decodeTableWord 16 0x001 = some (.decRej false .D .D .D .P) ∧
      decodeTableWord 16 0x018 = some (.decRej false .D .P .X .D) ∧
      decodeTableWord 16 0x10A = some (.decRej true .D .D .X .X) ∧
      decodeTableWord 16 0x103 = none := by decide

/-! ## Tables -/

/-- R92: the alphabet as one string. -/
theorem test_alphabet_string :
    ((List.range 64).map fun i => (alphabet (BitVec.ofNat 6 i)).toNat)
      = "ABCDEFGHIJKLMNOPQRSTUVWXYZabcdefghijklmnopqrstuvwxyz0123456789+/".toList.map Char.toNat := by
  decide

/-- V24: the reverse LUT at its edges. -/
theorem test_reverse_lut_edges :
    [0x2A, 0x2C, 0x2D, 0x2E, 0x3A, 0x3C, 0x3E, 0x40, 0x5B, 0x5F, 0x60, 0x7B, 0x00, 0x0A, 0x0D, 0x20,
      0x80, 0xBD, 0xFF].all (fun c => decide (rev c = .X)) = true ∧
    [rev 0x2B, rev 0x2F, rev 0x30, rev 0x39, rev 0x3D, rev 0x41, rev 0x5A, rev 0x61, rev 0x7A]
      = [.D 62, .D 63, .D 52, .D 61, .P, .D 0, .D 25, .D 26, .D 51] := by decide

/-- The instructions of the 162 class words the hardware can produce (R98). -/
def classWordOps : List Instr :=
  [false, true].flatMap fun fin => [Kls.D, .P, .X].flatMap fun k0 => [Kls.D, .P, .X].flatMap fun k1 =>
    [Kls.D, .P, .X].flatMap fun k2 => [Kls.D, .P, .X].map fun k3 => selectQuadOp fin k0 k1 k2 k3

def isRej : Instr → Option (Kls × Kls × Kls × Kls)
  | .decRej _ k0 k1 k2 k3 => some (k0, k1, k2, k3)
  | _ => none

/-- R98: of the 162 words 2 select DEC.Q4, 1 DEC.Q3, 1 DEC.Q2 and 158 DEC.REJ. -/
theorem test_class_word_counts :
    classWordOps.length = 162 ∧
      (classWordOps.filter fun i => i.row = .decQ4).length = 2 ∧
      (classWordOps.filter fun i => i.row = .decQ3).length = 1 ∧
      (classWordOps.filter fun i => i.row = .decQ2).length = 1 ∧
      (classWordOps.filter fun i => i.row = .decRej).length = 158 := by decide +kernel

/-- R98: of the 158, 130 give BADCHAR and 28 BADPAD. -/
theorem test_reject_cause_counts :
    ((classWordOps.filterMap isRej).filter fun k =>
      quadReject k.1 k.2.1 k.2.2.1 k.2.2.2 = .reject .badChar).length = 130 ∧
    ((classWordOps.filterMap isRej).filter fun k =>
      quadReject k.1 k.2.1 k.2.2.1 k.2.2.2 = .reject .badPad).length = 28 := by decide +kernel

/-! ## Whole messages -/

/-- Rows of V13. -/
theorem test_encode_messages :
    b64Encode [] = [] ∧ b64Encode hello = helloText ∧
      b64Encode [0xFF, 0xFF, 0xFF, 0xFF] = [0x2F, 0x2F, 0x2F, 0x2F, 0x2F, 0x77, 0x3D, 0x3D] ∧
      b64Encode [0xFB, 0xEF, 0xBE, 0xFB, 0xEF] = [0x2B, 0x2B, 0x2B, 0x2B, 0x2B, 0x2B, 0x38, 0x3D] ∧
      b64Encode [0x41, 0x41, 0x3D, 0x3D] = [0x51, 0x55, 0x45, 0x39, 0x50, 0x51, 0x3D, 0x3D] := by
  decide

/-- Rows of V30: accepted texts, then one rejected text for each cause and the order rules. -/
theorem test_decode_texts :
    b64Decode [] = .bytes [] ∧ b64Decode helloText = .bytes hello ∧
      b64Decode [0x21, 0x21, 0x21] = .formatError .badLen 0 ∧
      b64Decode [0x41, 0x41, 0x41, 0x41, 0x41, 0x41, 0x3D, 0x41] = .formatError .badPad 1 ∧
      b64Decode [0x41, 0x42, 0x3D, 0x3D, 0x41, 0x41, 0x41, 0x21] = .formatError .badPad 0 ∧
      b64Decode [0x41, 0x3D, 0x21, 0x41] = .formatError .badChar 0 ∧
      b64Decode [0x41, 0x41, 0x41, 0x41, 0x41, 0x42, 0x3D, 0x3D] = .formatError .nonCanon 1 := by
  decide

/-! ## One step each -/

/-- V50: ENC.START, also with bits 31:1 set. -/
theorem test_step_ENC_START :
    nextIs (host 0x80000000FFFFFFFF v50) (fun t => decide (t.enc.st = .busy ∧ t.enc.olen = 0 ∧
      t.enc.gp = 0 ∧ t.enc.ilen = 11 ∧ statusOf .enc t = 0x01)) = true := by decide

/-- V50: DEC.START, STATUS 0x36 to 0x01. -/
theorem test_step_DEC_START :
    nextIs (host 0xC000000000000001 v50) (fun t => decide (t.dec.phase = .lenchk ∧
      t.dec.err = false ∧ t.dec.gp = 0 ∧ statusOf .dec t = 0x01)) = true := by decide

/-- V50: CTRL.NOP changes nothing. -/
theorem test_step_CTRL_NOP :
    nextIs (host 0x80000000FFFFFFFE v50) (fun t => decide (t.enc = v50.enc ∧ t.dec = v50.dec)) = true := by
  decide

/-- V52: ILEN is cut to 8 bits in ENC and 9 in DEC. -/
theorem test_step_WR_ILEN :
    nextIs (host 0x80000002000001FF v50) (fun t => decide (t.enc.ilen = 255)) = true ∧
      nextIs (host 0xC0000002FFFFFFFF v50) (fun t => decide (t.dec.ilen = 511)) = true := by decide

/-- V50: bits 31:8 dropped; V51: ignored while BUSY. -/
theorem test_step_WR_IBUF :
    nextIs (host 0xD000000600000141 v50) (fun t => holds t.dec.ibuf 5 [0x41, 0x41, 0x41]) = true ∧
      nextIs (host 0x9000000000000000 v51) (fun t => holds t.enc.ibuf 0 [0x68]) = true := by decide

/-- V50. -/
theorem test_step_RD_CTRL :
    nextIs (host 0x0000000000000000 v50) (fun t => decide (t.resp = some 0)) = true := by decide

/-- V50 and V51. -/
theorem test_step_RD_STATUS :
    nextIs (host 0x4000000100000000 v50) (fun t => decide (t.resp = some 0x36)) = true ∧
      nextIs (host 0x0000000100000000 v51) (fun t => decide (t.resp = some 0x01)) = true := by decide

/-- V50, and V51: exact while BUSY. -/
theorem test_step_RD_ILEN :
    nextIs (host 0x0000000200000000 v50) (fun t => decide (t.resp = some 0x0B)) = true ∧
      nextIs (host 0x0000000200000000 v51) (fun t => decide (t.resp = some 0x0B)) = true := by decide

/-- V50. -/
theorem test_step_RD_OLEN :
    nextIs (host 0x0000000300000000 v50) (fun t => decide (t.resp = some 0x10)) = true := by decide

/-- V50. -/
theorem test_step_RD_GP :
    nextIs (host 0x4000000400000000 v50) (fun t => decide (t.resp = some 0x01)) = true := by decide

/-- V50. -/
theorem test_step_RD_IBUF :
    nextIs (host 0x1000000A00000000 v50) (fun t => decide (t.resp = some 0x64)) = true := by decide

/-- V50. -/
theorem test_step_RD_OBUF :
    nextIs (host 0x2000000F00000000 v50) (fun t => decide (t.resp = some 0x3D)) = true := by decide

/-- V50: a reserved read returns 0, a reserved write changes nothing. -/
theorem test_step_HT_RSVD :
    nextIs (host 0x1000010000000000 v50) (fun t => decide (t.resp = some 0 ∧ t.enc = v50.enc)) = true ∧
      nextIs (host 0xA000000000000041 v50) (fun t => decide (t.enc = v50.enc ∧ t.dec = v50.dec)) = true := by
  decide

/-- V42, second step: group 1 of `hello world`. -/
theorem test_step_ENC_G3 :
    nextIs (step (encAt hello 1)) (fun t => holds t.enc.obuf 4 [0x62, 0x47, 0x38, 0x67]
      && decide (t.enc.grp = 0x6C6F20 ∧ t.enc.cnt = 3 ∧ t.enc.olen = 8 ∧ t.enc.gp = 2)) = true := by
  decide

/-- V41, the ENC.STEP. -/
theorem test_step_ENC_G2 :
    nextIs (step (encAt [0x6C, 0x64] 0)) (fun t => holds t.enc.obuf 0 [0x62, 0x47, 0x51, 0x3D]
      && decide (t.enc.grp = 0x6C6400 ∧ t.enc.cnt = 2 ∧ t.enc.olen = 4 ∧ t.enc.st = .busy)) = true := by
  decide

/-- V12: F8 gives `+A==`. -/
theorem test_step_ENC_G1 :
    nextIs (step (State.reset.withFetchWord 32 0x1F80000)) (fun t =>
      holds t.enc.obuf 0 [0x2B, 0x41, 0x3D, 0x3D]) = true := by decide

/-- V41: ENC.END. -/
theorem test_step_ENC_END :
    nextIs (step (encAt hello 4)) (fun t => decide (t.enc.st = .done ∧ t.enc.gp = 4)) = true := by
  decide

/-- V43: DEC.DSTEP at quad 1, and DEC.VSTEP there. -/
theorem test_step_DEC_Q4 :
    nextIs (step (decAt helloText .decode 1)) (fun t => holds t.dec.obuf 3 [0x6C, 0x6F, 0x20]
      && decide (t.dec.olen = 6 ∧ t.dec.gp = 2)) = true ∧
      nextIs (step (decAt helloText .validate 1)) (fun t => decide (t.dec.obuf = [] ∧
        t.dec.olen = 0 ∧ t.dec.gp = 2 ∧ t.dec.fin = 0)) = true := by decide

/-- V43: DEC.DSTEP at quad 3; V21: `//9=` is NONCANON. -/
theorem test_step_DEC_Q3 :
    nextIs (step (decAt helloText .decode 3)) (fun t => holds t.dec.obuf 9 [0x6C, 0x64]
      && decide (t.dec.olen = 11 ∧ t.dec.gp = 4 ∧ t.dec.fin = 1)) = true ∧
      nextIs (step (decAt [0x2F, 0x2F, 0x39, 0x3D] .validate 0)) (fun t =>
        decide (statusOf .dec t = 0x46 ∧ t.dec.olen = 0 ∧ t.dec.gp = 0)) = true := by decide

/-- V22: `/w==` gives FF; `/x==` is NONCANON. -/
theorem test_step_DEC_Q2 :
    nextIs (step (decAt [0x2F, 0x77, 0x3D, 0x3D] .decode 0)) (fun t => holds t.dec.obuf 0 [0xFF]
      && decide (t.dec.olen = 1)) = true ∧
      nextIs (step (decAt [0x2F, 0x78, 0x3D, 0x3D] .validate 0)) (fun t =>
        decide (statusOf .dec t = 0x46)) = true := by decide

/-- V44, third step; V23: `AA-_` is BADCHAR. -/
theorem test_step_DEC_REJ :
    nextIs (step (decAt [0x41, 0x41, 0x41, 0x41, 0x41, 0x41, 0x3D, 0x41] .validate 1)) (fun t =>
      decide (statusOf .dec t = 0x36 ∧ t.dec.olen = 0 ∧ t.dec.gp = 1 ∧ t.dec.kls = 0x04)) = true ∧
      nextIs (step (decAt [0x41, 0x41, 0x2D, 0x5F] .validate 0)) (fun t =>
        decide (statusOf .dec t = 0x26)) = true := by decide

/-- V45: DEC.LCHK of length 3 raises BADLEN though no cell holds a value. -/
theorem test_step_DEC_LCHK :
    nextIs (step ((State.reset.withDec { DecUnit.reset with ilen := 3, st := .busy }).withInbox
      [.decTurn])) (fun t => decide (statusOf .dec t = 0x16 ∧ t.dec.gp = 0)) = true := by decide

/-- V43: DEC.VEND and DEC.DEND. -/
theorem test_step_DEC_VEND_DEND :
    nextIs (step (decAt helloText .validate 4)) (fun t =>
      decide (t.dec.phase = .decode ∧ t.dec.gp = 0 ∧ t.dec.st = .busy)) = true ∧
    nextIs (step (decAt helloText .decode 4)) (fun t =>
      decide (t.dec.st = .done ∧ statusOf .dec t = 0x02)) = true := by decide

/-- V53: a reset keeps the buffers of a unit that is not BUSY and takes OBUF's values from one
that is. -/
theorem test_step_reset :
    nextIs (step (v51.withInbox [.reset])) (fun t => holds t.enc.ibuf 0 hello
      && holds t.dec.obuf 0 hello
      && decide (t.enc.obuf = [] ∧ t.enc.ilen = 0 ∧ statusOf .enc t = 0 ∧ statusOf .dec t = 0 ∧
        t.dec.ilen = 0 ∧ t.dec.gp = 0)) = true := by decide

/-- R252: after the first reset no cell holds a value, whatever the state listed before. -/
theorem test_step_first_reset :
    nextIs (step ({ v51 with ready := false, inbox := [.reset] } : State)) (fun t =>
      decide (t.ready = true ∧ t.enc.ibuf = [] ∧ t.enc.obuf = [] ∧ t.dec.ibuf = [] ∧
        t.dec.obuf = [])) = true := by decide

/-- P7: the ENC.STEP faults at the read of ENC.IBUF[0]. -/
theorem test_step_valueless_cell :
    faultIs (step ((State.reset.withEnc { EncUnit.reset with ilen := 3, st := .busy }).withInbox
      [.encTurn])) (.cellHoldsNoValue .enc 0) = true := by decide

/-- A transaction placed by `withFetchWord` is the next step (R200). -/
theorem test_fetch_transaction :
    nextIs (step (State.reset.withFetchWord 64 0x800000020000000B)) (fun t =>
      decide (t.enc.ilen = 11 ∧ t.inbox = [])) = true := by decide

/-- A class word placed by `withFetchWord` is the one the next step forms (R98). -/
theorem test_fetch_class_word :
    nextIs (step (State.reset.withFetchWord 16 0x018)) (fun t =>
      decide (decClassWord t.dec = 0x018 ∧ statusOf .dec t = 0x26)) = true := by decide

/-- R104: a reserved selector word is no instruction and `withFetchWord` places none. -/
theorem test_fetch_reserved_selector :
    State.reset.withFetchWord 16 0x103 = State.reset ∧
      State.reset.withFetchWord 32 0x0F80000 = State.reset := by decide

/-! ## Witnesses: the hypotheses of each statement are met together -/

theorem witness_DecodeEncodeRoundTrip :
    (Instr.wrIbuf .enc 255 0xFF).WellFormed 8 = true ∧ (Instr.rdObuf .dec 511).WellFormed 8 = true ∧
      (Instr.htRsvd 0x3000000000000000).WellFormed 8 = true ∧
      (Instr.decRej true .P .P .P .P).WellFormed 8 = true := by decide

/-- Both sides of the two equivalences. -/
theorem witness_EveryHostWordIsATransaction :
    (0x0FFFFFF#26).toNat / 2 ^ 24 = 0 ∧ ¬ (0x1000000#26).toNat / 2 ^ 24 = 0 ∧
      (∃ j < 4, (0x003#9).toNat / 4 ^ j % 4 = 3) ∧ (∃ j < 4, (0x0C0#9).toNat / 4 ^ j % 4 = 3) ∧
      ¬ ∃ j < 4, (0x1AA#9).toNat / 4 ^ j % 4 = 3 := by decide

theorem witness_DecoderFollowsTheOpcodeTable :
    decode 8 (.htw 0x9000000000000041) = .ok (.wrIbuf .enc 0 0x41) ∧
      decode 8 (.egd 0x1FF0000) = .ok (.encG1 0xFF) ∧ decode 8 (.qcw 0x105) = .ok .decQ2 :=
  ⟨rfl, rfl, rfl⟩

theorem witness_ReverseTableInvertsTheAlphabet :
    (0x21 : Byte) ≠ 0x3D ∧ ∀ i : Idx, (0x21 : Byte) ≠ alphabet i := by decide

theorem witness_PaddingLaw :
    [(0x00 : Byte)].length % 3 = 1 ∧ [(0x00 : Byte), 0].length % 3 = 2 ∧
      ([] : List Byte).length % 3 = 0 := by decide

theorem witness_EncodeIsGroupByGroup : 3 < (hello.length + 2) / 3 := by decide

theorem witness_OutputAlphabetClosure :
    (0x3D : Byte) ∈ b64Encode hello ∧ (0x61 : Byte) ∈ b64Encode hello := by decide

theorem witness_AcceptedTextsAreTheEncodings :
    b64Decode helloText = .bytes hello ∧ helloText = b64Encode hello := by decide

theorem witness_EncodeOfConcatenation : ([0x68, 0x65, 0x6C] : List Byte).length % 3 = 0 := by decide

theorem witness_DecodedLengthLaw : b64Decode helloText = .bytes hello := by decide

/-- An accepted text with one pad, and its two parts. -/
theorem witness_WholeTextValidation :
    helloText.length % 4 = 0 ∧ helloText = helloText.take 15 ++ List.replicate 1 padChar ∧
      (helloText.take 15).getLast? = some 0x51 ∧ rev 0x51 = .D 16 ∧
      (16 : Idx).extractLsb' 0 2 = 0 := by decide

/-- The three clauses: a length of 3, a text whose quad 1 is the first rejected, a rejected quad
for each cause. -/
theorem witness_FirstCauseFoundIsReported :
    let t : List Byte := [0x41, 0x41, 0x41, 0x41, 0x41, 0x41, 0x3D, 0x41]
    [(0x21 : Byte), 0x21, 0x21].length % 4 ≠ 0 ∧
      (t.length % 4 = 0 ∧ 1 < t.length / 4 ∧ quadOfText t 0 = .ok [0, 0, 0] ∧
        quadOfText t 1 = .reject .badPad) ∧
      decQuad false 0x41 0x3D 0x21 0x41 = .reject .badChar ∧
      decQuad false 0x41 0x41 0x3D 0x3D = .reject .badPad ∧
      decQuad true 0x41 0x42 0x3D 0x3D = .reject .nonCanon := by decide

theorem witness_TransactionsNeverFail :
    (Instr.rdStatus .enc).isTransaction = true ∧ (Instr.rdStatus .enc).isRead = true ∧
      (Instr.rdStatus .enc).unit = .enc ∧ (Instr.wrIlen .dec 0).isTransaction = true ∧
      (Instr.wrIlen .dec 0).isRead = false ∧ (Instr.wrIlen .dec 0).unit = .dec := by decide

/-- Both branches: ENC BUSY, DEC not; lengths within 32 bits. -/
theorem witness_RegisterReads :
    stOf .enc v51 = .busy ∧ stOf .dec v51 ≠ .busy ∧ ilenOf .dec v51 < 2 ^ 32 ∧
      olenOf .dec v51 < 2 ^ 32 ∧ gpOf .dec v51 < 2 ^ 32 := by decide

/-- In range at the last cell and out of range at the next one; a cell that holds a value. -/
theorem witness_CellReads :
    (255#28).toNat < ibufCells v50.lenw .enc ∧ ibufCells v50.lenw .enc ≤ (256#28).toNat ∧
      (511#28).toNat < obufCells v50.lenw ∧ obufCells v50.lenw ≤ (512#28).toNat ∧
      stOf .enc v50 ≠ .busy ∧ (ibufOf .enc v50).read (10#28).toNat = some 0x64 ∧
      (obufOf .enc v50).read (15#28).toNat = some 0x3D := by decide

/-- Each clause: BUSY and not BUSY, for both units. -/
theorem witness_StartCommands :
    v51.enc.st = .busy ∧ v50.enc.st ≠ .busy ∧ (decAt helloText .validate 0).dec.st = .busy ∧
      v50.dec.st ≠ .busy := by decide

theorem witness_NopAndReservedChangeNothing :
    htwRw 0x80000001000000FF = 1 ∧ htwRw 0x0000000500000000 = 0 := by decide

/-- Each clause: BUSY, out of range, and stored at the last cell. -/
theorem witness_WriteIbufStoresOneCell :
    stOf .enc v51 = .busy ∧ ibufCells v50.lenw .enc ≤ (256#28).toNat ∧
      stOf .enc v50 ≠ .busy ∧ (255#28).toNat < ibufCells v50.lenw .enc := by decide

theorem witness_BusyUnitIsLockedOut :
    (Instr.wrIlen .enc 3).isTransaction = true ∧ stOf (Instr.wrIlen .enc 3).unit v51 = .busy := by
  decide

theorem witness_BusyStatesAreIndistinguishable :
    (Instr.rdObuf .enc 0).isTransaction = true ∧ v51.enc.st = .busy ∧
      (encAt hello 2).enc.st = .busy ∧ (encAt hello 2).enc.ilen = v51.enc.ilen ∧
      (encAt hello 2).enc ≠ v51.enc ∧
      (decAt helloText .validate 3).dec.st = .busy ∧ (decAt helloText .decode 1).dec.st = .busy ∧
      (decAt helloText .decode 1).dec.ilen = (decAt helloText .validate 3).dec.ilen ∧
      (decAt helloText .decode 1).dec.err = (decAt helloText .validate 3).dec.err ∧
      (decAt helloText .decode 1).dec.cause = (decAt helloText .validate 3).dec.cause := by decide

theorem witness_FullGroup :
    (encAt hello 2).enc.st = .busy ∧
      (encAt hello 2).enc.gp < ((encAt hello 2).enc.ilen + 2) / 3 := by decide

theorem witness_PartialGroups :
    (encAt hello 3).enc.st = .busy ∧
      (encAt hello 3).enc.gp < ((encAt hello 3).enc.ilen + 2) / 3 := by decide

/-- Both phases. -/
theorem witness_FourDataQuad :
    [Phase.validate, .decode].all (fun ph =>
      let s := decLatched ph 0x61 0x47 0x56 0x73
      decide (s.dec.st = .busy ∧ s.dec.gp < s.dec.ilen / 4 ∧ s.dec.phase = ph ∧
        s.dec.quad = (0x61 : Byte) ++ (0x47 : Byte) ++ (0x56 : Byte) ++ (0x73 : Byte) ∧
        rev 0x61 = .D 26 ∧ rev 0x47 = .D 6 ∧ rev 0x56 = .D 21 ∧ rev 0x73 = .D 44)) = true := by decide

/-- `bGQ=` in both phases, `bGR=` in the VALIDATE phase. -/
theorem witness_ThreeDataQuad :
    ([Phase.validate, .decode].all fun ph =>
      let s := decLatched ph 0x62 0x47 0x51 0x3D
      decide (s.dec.st = .busy ∧ s.dec.gp < s.dec.ilen / 4 ∧ s.dec.phase = ph ∧
        s.dec.quad = (0x62 : Byte) ++ (0x47 : Byte) ++ (0x51 : Byte) ++ 0x3D#8 ∧
        rev 0x62 = .D 27 ∧ rev 0x47 = .D 6 ∧ rev 0x51 = .D 16 ∧ (16 : Idx).toNat % 4 = 0)) = true ∧
    (decLatched .validate 0x62 0x47 0x52 0x3D).dec.quad
      = (0x62 : Byte) ++ (0x47 : Byte) ++ (0x52 : Byte) ++ 0x3D#8 ∧
    rev 0x52 = .D 17 ∧ (17 : Idx).toNat % 4 ≠ 0 := by decide

/-- `/w==` in both phases, `/x==` in the VALIDATE phase. -/
theorem witness_TwoDataQuad :
    ([Phase.validate, .decode].all fun ph =>
      let s := decLatched ph 0x2F 0x77 0x3D 0x3D
      decide (s.dec.st = .busy ∧ s.dec.gp < s.dec.ilen / 4 ∧ s.dec.phase = ph ∧
        s.dec.quad = (0x2F : Byte) ++ (0x77 : Byte) ++ 0x3D#8 ++ 0x3D#8 ∧
        rev 0x2F = .D 63 ∧ rev 0x77 = .D 48 ∧ (48 : Idx).toNat % 16 = 0)) = true ∧
    (decLatched .validate 0x2F 0x78 0x3D 0x3D).dec.quad
      = (0x2F : Byte) ++ (0x78 : Byte) ++ 0x3D#8 ++ 0x3D#8 ∧
    rev 0x78 = .D 49 ∧ (49 : Idx).toNat % 16 ≠ 0 := by decide

theorem witness_RejectedQuadRaises :
    let s := decLatched .validate 0x41 0x3D 0x21 0x41
    s.dec.st = .busy ∧ s.dec.phase = .validate ∧ s.dec.gp < s.dec.ilen / 4 := by decide

theorem witness_GroupAndQuadOpsAreNotTheHosts :
    (Instr.encG3 0 0 0).isTransaction = false ∧ (Instr.encG3 0 0 0).unit = .enc ∧
      v50.enc.st ≠ .busy ∧ Instr.decQ3.isTransaction = false ∧ Instr.decQ3.unit = .dec ∧
      v50.dec.st ≠ .busy := by decide

theorem witness_StepRunsTheTransaction :
    v50.ready = true ∧ (v50.withInbox [.host 0x3000000000000000]).inbox
        = .host 0x3000000000000000 :: [] ∧
      decode v50.lenw (.htw 0x3000000000000000) = .ok (.htRsvd 0x3000000000000000) :=
  ⟨rfl, rfl, rfl⟩

/-- Each clause: groups of three, two and one bytes. -/
theorem witness_EncTurnRunsTheGroupOperation :
    (∀ s ∈ [encAt hello 2, encAt hello 3, encAt [0x4D] 0], s.ready = true ∧
      s.inbox = .encTurn :: [] ∧ s.enc.st = .busy ∧ s.enc.gp < (s.enc.ilen + 2) / 3) ∧
    3 ≤ (encAt hello 2).enc.ilen - 3 * (encAt hello 2).enc.gp ∧
    holds (encAt hello 2).enc.ibuf 6 [0x77, 0x6F, 0x72] = true ∧
    (encAt hello 3).enc.ilen - 3 * (encAt hello 3).enc.gp = 2 ∧
    holds (encAt hello 3).enc.ibuf 9 [0x6C, 0x64] = true ∧
    (encAt [0x4D] 0).enc.ilen - 3 * (encAt [0x4D] 0).enc.gp = 1 ∧
    holds (encAt [0x4D] 0).enc.ibuf 0 [0x4D] = true := by decide

/-- A quad that is not the last and the last one. -/
theorem witness_DecTurnRunsTheQuadOperation :
    (∀ s ∈ [decAt helloText .validate 2, decAt helloText .decode 3], s.ready = true ∧
      s.inbox = .decTurn :: [] ∧ s.dec.st = .busy ∧ s.dec.phase ≠ .lenchk ∧
      s.dec.gp < s.dec.ilen / 4) ∧
    holds (decAt helloText .validate 2).dec.ibuf 8 [0x64, 0x32, 0x39, 0x79] = true ∧
    holds (decAt helloText .decode 3).dec.ibuf 12 [0x62, 0x47, 0x51, 0x3D] = true := by decide

theorem witness_EncStepEncodesOneGroup :
    (encAt hello 3).ready = true ∧ (encAt hello 3).inbox = .encTurn :: [] ∧
      (encAt hello 3).enc.st = .busy ∧ (encAt hello 3).enc.gp < ((encAt hello 3).enc.ilen + 2) / 3 ∧
      (encAt hello 3).enc.ibuf.readCells 9 (min 3 ((encAt hello 3).enc.ilen - 3 * 3))
        = .ok [0x6C, 0x64] := ⟨rfl, rfl, rfl, by decide, rfl⟩

/-- An accepted and a rejected quad. -/
theorem witness_ValidateStepFollowsDecQuad :
    (decAt helloText .validate 3).dec.phase = .validate ∧
      (decAt helloText .validate 3).dec.gp < (decAt helloText .validate 3).dec.ilen / 4 ∧
      (decAt helloText .validate 3).dec.ibuf.readCells (4 * 3) 4 = .ok [0x62, 0x47, 0x51, 0x3D] ∧
      decQuad true 0x62 0x47 0x51 0x3D = .ok [0x6C, 0x64] ∧
      decQuad true 0x62 0x47 0x52 0x3D = .reject .nonCanon :=
  ⟨rfl, by decide, rfl, by decide, by decide⟩

/-- Three, two and one bytes. -/
theorem witness_DecodeStepWritesTheBytes :
    (decAt helloText .decode 3).dec.phase = .decode ∧
      (decAt helloText .decode 3).dec.gp < (decAt helloText .decode 3).dec.ilen / 4 ∧
      (decAt helloText .decode 3).dec.ibuf.readCells (4 * 3) 4 = .ok [0x62, 0x47, 0x51, 0x3D] ∧
      decQuad true 0x62 0x47 0x51 0x3D = .ok [0x6C, 0x64] ∧
      decQuad false 0x61 0x47 0x56 0x73 = .ok [0x68, 0x65, 0x6C] ∧
      decQuad true 0x2F 0x77 0x3D 0x3D = .ok [0xFF] :=
  ⟨rfl, by decide, rfl, by decide, by decide, by decide⟩

/-- Each clause. -/
theorem witness_StepsSelectedByStateAlone :
    ((encAt hello 4).enc.st = .busy ∧ (encAt hello 4).enc.gp = ((encAt hello 4).enc.ilen + 2) / 3) ∧
      (decAt [0x21, 0x21, 0x21] .lenchk 0).dec.ilen % 4 ≠ 0 ∧
      (decAt helloText .lenchk 0).dec.ilen % 4 = 0 ∧
      (decAt helloText .validate 4).dec.gp = (decAt helloText .validate 4).dec.ilen / 4 ∧
      (decAt helloText .decode 4).dec.gp = (decAt helloText .decode 4).dec.ilen / 4 ∧
      (decAt helloText .decode 4).dec.st = .busy ∧
      (decAt helloText .decode 4).inbox = .decTurn :: [] := by decide

/-- Each clause. -/
theorem witness_OnlyBusyUnitsStep :
    v50.ready = true ∧ v50.inbox = [] ∧ v50.enc.st ≠ .busy ∧ v50.dec.st ≠ .busy ∧
      v51.enc.st = .busy ∧ v51.inbox = [] ∧
      (let s := (decAt helloText .validate 0).withInbox []
       s.inbox = [] ∧ s.enc.st ≠ .busy ∧ s.dec.st = .busy) := by decide

/-- Each clause: ENC on its second cell, DEC on its last cell. -/
theorem witness_ValuelessCellStopsTheStep :
    (let s := (encAt [0x68] 0).withEnc { (encAt [0x68] 0).enc with ilen := 3 }
     s.ready = true ∧ s.inbox = .encTurn :: [] ∧ s.enc.st = .busy ∧
      s.enc.gp < (s.enc.ilen + 2) / 3 ∧ 3 * s.enc.gp ≤ 2 ∧ 2 < 3 * s.enc.gp + 3 ∧ 2 < s.enc.ilen ∧
      s.enc.ibuf.read 2 = none) ∧
    (let d := decAt [0x41, 0x41, 0x41] .validate 0
     let s := d.withDec { d.dec with ilen := 4 }
     s.ready = true ∧ s.inbox = .decTurn :: [] ∧ s.dec.st = .busy ∧ s.dec.phase ≠ .lenchk ∧
      s.dec.gp < s.dec.ilen / 4 ∧ 4 * s.dec.gp ≤ 3 ∧ 3 < 4 * s.dec.gp + 4 ∧
      s.dec.ibuf.read 3 = none) := by decide

/-- ENC BUSY and DEC not, DEC BUSY and ENC not; before the first reset: `poweredUp` below. -/
theorem witness_ResetFromAnyState :
    (v51.withInbox [.reset]).inbox = .reset :: [] ∧ v51.ready = true ∧ v51.enc.st = .busy ∧
      v51.dec.st ≠ .busy ∧ (decAt helloText .validate 0).dec.st = .busy ∧
      (decAt helloText .validate 0).enc.st ≠ .busy := by
  decide

/-- The invariant holds of a state in the middle of a validation. -/
theorem witness_inv_validating : Inv (decAt helloText .validate 3) where
  legal := by decide
  encWidths := ⟨by decide, by decide, by decide, by decide, by decide, by decide, by decide⟩
  decWidths := ⟨by decide, by decide, by decide, by decide, by decide, by decide, by decide⟩
  enc := fun _ => ⟨by decide, by decide⟩
  dec := fun _ => ⟨by decide, by decide, by decide, by decide, by decide, by decide⟩
  powerUp := by decide

/-- The invariant holds of a state in the middle of an encoding. -/
theorem witness_inv_encoding : Inv (encAt hello 3) where
  legal := by decide
  encWidths := ⟨by decide, by decide, by decide, by decide, by decide, by decide, by decide⟩
  decWidths := ⟨by decide, by decide, by decide, by decide, by decide, by decide, by decide⟩
  enc := fun _ => ⟨by decide, by decide⟩
  dec := fun _ => ⟨by decide, by decide, by decide, by decide, by decide, by decide⟩
  powerUp := by decide

/-- A state that has not been reset since power-up, its registers at values no run of the block
gives them (R252), with a reset next. -/
def poweredUp : State :=
  { State.reset with
    ready := false
    enc := { EncUnit.reset with olen := 5, gp := 9, cnt := 3 }
    dec := { DecUnit.reset with ilen := 7, err := true, phase := .decode }
    inbox := [.reset] }

theorem witness_inv_poweredUp : Inv poweredUp where
  legal := by decide
  encWidths := ⟨by decide, by decide, by decide, by decide, by decide, by decide, by decide⟩
  decWidths := ⟨by decide, by decide, by decide, by decide, by decide, by decide, by decide⟩
  enc := fun h => Bool.noConfusion h
  dec := fun h => Bool.noConfusion h
  powerUp := by decide

/-- Both clauses: a transaction before the first reset, and the first reset. -/
theorem witness_NothingRunsBeforeTheFirstReset :
    poweredUp.ready = false ∧
      (poweredUp.withInbox [.host 0]).inbox.head? ≠ some .reset ∧
      poweredUp.inbox = .reset :: [] := by decide

theorem witness_StatusTakesOnlyTheListedValues :
    Inv (encAt hello 3) ∧ (encAt hello 3).ready = true := ⟨witness_inv_encoding, rfl⟩

/-- An invariant state whose step answers a next state. -/
theorem witness_StepKeepsInvariant :
    Inv (decAt helloText .validate 3) ∧
      nextIs (step (decAt helloText .validate 3)) (fun _ => true) = true :=
  ⟨witness_inv_validating, by decide⟩

theorem witness_OnlyStopIsAValuelessCell :
    Inv (encAt hello 3) ∧ (encAt hello 3).ready = true := ⟨witness_inv_encoding, rfl⟩

/-- Each clause: a BUSY unit with a transaction or a turn next. -/
theorem witness_InputIsImmutable :
    nextIs (step (v51.withInbox [.host 0x8000000200000003])) (fun _ => true) = true ∧
      v51.enc.st = .busy ∧ (v51.withInbox [.host 0x8000000200000003]).inbox.head? ≠ some .reset ∧
      nextIs (step (decAt helloText .decode 0)) (fun _ => true) = true ∧
      (decAt helloText .decode 0).dec.st = .busy ∧
      (decAt helloText .decode 0).inbox.head? = some .decTurn := by decide

/-- Each way the run state changes: reset, START, the last step. -/
theorem witness_RunStateTransitions :
    nextIs (step (v50.withInbox [.reset])) (fun t =>
      decide (t.enc.st ≠ v50.enc.st ∧ t.dec.st ≠ v50.dec.st)) = true ∧
      nextIs (host 0x8000000000000001 v50) (fun t => decide (t.enc.st ≠ v50.enc.st)) = true ∧
      nextIs (host 0xC000000000000001 v50) (fun t => decide (t.dec.st ≠ v50.dec.st)) = true ∧
      nextIs (step (encAt hello 4)) (fun t => decide (t.enc.st ≠ (encAt hello 4).enc.st)) = true ∧
      nextIs (step (decAt helloText .decode 4)) (fun t =>
        decide (t.dec.st ≠ (decAt helloText .decode 4).dec.st)) = true := by decide

/-- Both sides: a step that raises, a START that clears. -/
theorem witness_OnlyDecStepsRaise :
    nextIs (step (decAt [0x41, 0x42, 0x3D, 0x3D] .validate 0)) (fun t =>
      decide (t.dec.err ≠ false)) = true ∧
      decTurnNext (decAt [0x41, 0x42, 0x3D, 0x3D] .validate 0) ∧
      nextIs (host 0xC000000000000001 v50) (fun t => decide (t.dec.err ≠ v50.dec.err)) = true := by
  decide

theorem witness_ResultStandsUntilTheNextStart :
    nextIs (host 0x800000020000000B v50) (fun _ => true) = true ∧ v50.enc.st = .done ∧
      v50.dec.st = .done ∧
      decode v50.lenw (.htw 0x800000020000000B) = .ok (.wrIlen .enc 11) :=
  ⟨by decide, rfl, rfl, rfl⟩

/-- ENC's turn, listed and with nothing listed, and DEC's, between two states that differ in the
other unit; then a step that stops. -/
theorem witness_UnitStepDependsOnItsUnitAlone :
    (let s := encAt hello 1
     let s' := (s.withDec v50.dec).withInbox []
     s.ready = true ∧ s'.ready = true ∧ encTurnNext s ∧ encTurnNext s' ∧ s'.enc = s.enc ∧
      s'.dec ≠ s.dec ∧ nextIs (step s) (fun _ => true) = true) ∧
    (let d := decAt helloText .validate 1
     let d' := (d.withEnc v50.enc).withInbox []
     d.ready = true ∧ d'.ready = true ∧ decTurnNext d ∧ decTurnNext d' ∧ d'.dec = d.dec ∧
      d'.enc ≠ d.enc ∧ nextIs (step d) (fun _ => true) = true) ∧
    (let e := (encAt [0x68] 0).withEnc { (encAt [0x68] 0).enc with ilen := 3 }
     let e' := e.withDec v50.dec
     encTurnNext e ∧ encTurnNext e' ∧ e'.enc = e.enc ∧
      faultIs (step e) (.cellHoldsNoValue .enc 1) = true) := by
  decide

theorem witness_UnitTurnsCommute :
    nextIs (Host.Core.run core 2 ((encAt hello 1).withInbox [.encTurn, .decTurn]))
      (fun _ => true) = true := by decide

/-- A message of two bytes loaded, ENC not BUSY. -/
theorem witness_EncodeOperation :
    let s := State.reset.withEnc { EncUnit.reset with ibuf := cells [0x6C, 0x64], ilen := 2 }
    s.ready = true ∧ s.enc.st ≠ .busy ∧ messageIs s.enc.ibuf s.enc.ilen [0x6C, 0x64] :=
  ⟨rfl, by decide, rfl⟩

/-- A valid text, a rejected one and a bad length. -/
theorem witness_DecodeOperation :
    v50.ready = true ∧ v50.dec.st ≠ .busy ∧
      messageIs v50.dec.ibuf v50.dec.ilen [0x41, 0x41, 0x41, 0x41, 0x41, 0x41, 0x3D, 0x41] ∧
      b64Decode [0x41, 0x41, 0x41, 0x41, 0x41, 0x41, 0x3D, 0x41] = .formatError .badPad 1 ∧
      messageIs (cells helloText) 16 helloText ∧ b64Decode helloText = .bytes hello ∧
      messageIs (cells [0x21, 0x21, 0x21]) 3 [0x21, 0x21, 0x21] ∧
      b64Decode [0x21, 0x21, 0x21] = .formatError .badLen 0 :=
  ⟨rfl, by decide, rfl, by decide, rfl, by decide, rfl, by decide⟩

/-- One byte, with a host read and a DEC turn in between. -/
theorem witness_EncodeUnderAnyInterleaving :
    let es : List Event := [.host 0x0000000100000000, .decTurn, .encTurn, .host 0x8000000000000001]
    let s := (State.reset.withEnc { EncUnit.reset with ibuf := cells [0x4D], ilen := 1 }).withInbox
      (.host 0x8000000000000001 :: (es ++ .encTurn :: []))
    s.ready = true ∧ s.enc.st ≠ .busy ∧ messageIs s.enc.ibuf s.enc.ilen [0x4D] ∧
      decode s.lenw (.htw 0x8000000000000001) = .ok .encStart ∧ .reset ∉ es ∧
      es.count .encTurn = (s.enc.ilen + 2) / 3 ∧
      nextIs (Host.Core.run core (es.length + 2) s) (fun _ => true) = true :=
  ⟨rfl, by decide, rfl, rfl, by decide, by decide, by decide⟩

/-- The empty text with an ENC turn in between, and a bad length. -/
theorem witness_DecodeUnderAnyInterleaving :
    (let es : List Event := [.decTurn, .encTurn, .decTurn]
     let s := State.reset.withInbox (.host 0xC000000000000001 :: (es ++ .decTurn :: []))
     s.ready = true ∧ s.dec.st ≠ .busy ∧ messageIs s.dec.ibuf s.dec.ilen [] ∧
      b64Decode [] = .bytes [] ∧ decode s.lenw (.htw 0xC000000000000001) = .ok .decStart ∧
      .reset ∉ es ∧ es.count .decTurn + 1 = 2 * (s.dec.ilen / 4) + 3 ∧
      nextIs (Host.Core.run core (es.length + 2) s) (fun _ => true) = true) ∧
    (let s := (State.reset.withDec { DecUnit.reset with ibuf := cells [0x21], ilen := 1 }).withInbox
      [.host 0xC000000000000001, .encTurn, .decTurn]
     messageIs s.dec.ibuf s.dec.ilen [0x21] ∧ b64Decode [0x21] = .formatError .badLen 0 ∧
      [Event.encTurn].count .decTurn + 1 = 1 ∧
      nextIs (Host.Core.run core ([Event.encTurn].length + 2) s) (fun _ => true) = true) :=
  ⟨⟨rfl, by decide, rfl, by decide, rfl, by decide, by decide, by decide⟩,
    ⟨rfl, by decide, by decide, by decide⟩⟩

/-- The longest message of each unit. -/
theorem witness_LoadPlacesTheMessage :
    Config.legalLenw v50.lenw ∧ v50.ready = true ∧ stOf .enc v50 ≠ .busy ∧ stOf .dec v50 ≠ .busy ∧
      (List.replicate 255 (0x00 : Byte)).length < ibufCells v50.lenw .enc ∧
      (List.replicate 511 (0x00 : Byte)).length < ibufCells v50.lenw .dec := by
  refine ⟨by decide, rfl, by decide, by decide, ?_, ?_⟩ <;> rw [List.length_replicate] <;> decide

theorem witness_EncodeMacroReturnsEncode :
    Config.legalLenw v50.lenw ∧ v50.ready = true ∧ v50.enc.st ≠ .busy ∧
      hello.length < 2 ^ v50.lenw ∧ (hello.length + 2) / 3 + 2 ≤ 6 := by decide

theorem witness_DecodeMacroReturnsDecode :
    Config.legalLenw v50.lenw ∧ v50.ready = true ∧ v50.dec.st ≠ .busy ∧
      helloText.length < 2 ^ (v50.lenw + 1) ∧ 2 * (helloText.length / 4) + 4 ≤ 12 := by decide

end Sys2Proof.Tests
end

namespace Sys2Proof.Machine

/-! # One step, seen from each unit

`step_next` names the transition that ran in a state without its inbox entry. What follows says
once, of the state before the step, what the step did to each unit; every statement about all
steps is derived from it. -/

@[simp] theorem decode_htw (lenw : Nat) (w : BitVec 64) :
    decode lenw (.htw w) = .ok (decodeHtw lenw w) := rfl

theorem decodeHtw_of_decode {lenw : Nat} {w : BitVec 64} {i : Instr}
    (h : decode lenw (.htw w) = .ok i) : decodeHtw lenw w = i := Except.ok.inj h

/-- What a step from `s` to `t` was and did to the units (42_sequencer_and_host.md R191). -/
inductive StepEffect (s t : State) : Prop where
  | reset : s.inbox.head? = some .reset → t.ready = true →
      t.enc = resetEnc s.ready s.free s.enc → t.dec = resetDec s.ready s.free s.dec →
      StepEffect s t
  | host (w : BitVec 64) : s.inbox.head? = some (.host w) → s.ready = true → t.ready = true →
      EncByHost s.lenw s.enc (decodeHtw s.lenw w) t.enc →
      DecByHost s.lenw s.dec (decodeHtw s.lenw w) t.dec → StepEffect s t
  | enc : encTurnNext s → s.ready = true → t.ready = true → EncMove s.enc t.enc →
      t.dec = s.dec → StepEffect s t
  | dec : decTurnNext s → s.ready = true → t.ready = true → DecMove s.dec t.dec →
      t.enc = s.enc → StepEffect s t

theorem StepMove.frame {s t : State} {e : Event} (h : StepMove s e t) :
    t.lenw = s.lenw ∧ t.inbox = s.inbox := by
  cases h with
  | reset => exact ⟨rfl, rfl⟩
  | host w _ hr hx =>
    obtain ⟨t', ht', hlenw, -, hinbox, -, -⟩ :=
      exec_transaction _ s (decodeHtw_isTransaction s.lenw w)
    cases hx.symm.trans ht'
    exact ⟨hlenw, hinbox⟩
  | enc e hr he => exact ⟨rfl, rfl⟩
  | dec d hr hd => exact ⟨rfl, rfl⟩

@[simp] theorem nextEvent_snd (s : State) : (nextEvent s).2 = s.withInbox s.inbox.tail := by
  cases h : s.inbox with
  | nil => rw [nextEvent_nil h, List.tail_nil, ← h]; rfl
  | cons e es => rw [nextEvent_cons h]; rfl

/-! The transition that is next, as the statements name it. -/

section
variable {s : State}

theorem encTurnNext_cons {e : Event} {es : List Event} (h : s.inbox = e :: es) :
    encTurnNext s ↔ e = .encTurn := by
  simp [encTurnNext, h]

theorem decTurnNext_cons {e : Event} {es : List Event} (h : s.inbox = e :: es) :
    decTurnNext s ↔ e = .decTurn := by
  simp [decTurnNext, h]

theorem nextEvent_eq_host_iff {w : BitVec 64} :
    (nextEvent s).1 = .host w ↔ s.inbox.head? = some (.host w) := by
  cases h : s.inbox with
  | nil => rw [nextEvent_nil h]; split <;> simp
  | cons e es => simp [nextEvent_cons h]

theorem nextEvent_eq_reset_iff : (nextEvent s).1 = .reset ↔ s.inbox.head? = some .reset := by
  cases h : s.inbox with
  | nil => rw [nextEvent_nil h]; split <;> simp
  | cons e es => simp [nextEvent_cons h]

theorem nextEvent_eq_encTurn_iff : (nextEvent s).1 = .encTurn ↔ encTurnNext s := by
  cases h : s.inbox with
  | nil => by_cases hb : s.enc.st = .busy <;> simp [nextEvent_nil h, encTurnNext, h, hb]
  | cons e es => rw [nextEvent_cons h, encTurnNext_cons h]

theorem nextEvent_eq_decTurn_iff : (nextEvent s).1 = .decTurn ↔ decTurnNext s := by
  cases h : s.inbox with
  | nil => by_cases hb : s.enc.st = .busy <;> simp [nextEvent_nil h, decTurnNext, h, hb]
  | cons e es => rw [nextEvent_cons h, decTurnNext_cons h]

end

/-- No step changes LENW, and each takes the oldest coming transition off the list. -/
theorem step_frame {s t : State} (h : step s = .next t) :
    t.lenw = s.lenw ∧ t.inbox = s.inbox.tail := by
  simpa using (step_next h).frame

/-- Everything a step can do when it answers a next state. -/
theorem step_effect {s t : State} (h : step s = .next t) : StepEffect s t := by
  have hm := step_next h
  generalize hev : (nextEvent s).1 = ev at hm
  rw [nextEvent_snd] at hm
  cases hm with
  | reset => exact .reset (nextEvent_eq_reset_iff.1 hev) rfl rfl rfl
  | host w _ hr hx =>
    obtain ⟨t', ht', -, hready, -, he, hd⟩ :=
      exec_transaction _ (s.withInbox s.inbox.tail) (decodeHtw_isTransaction s.lenw w)
    cases hx.symm.trans ht'
    exact .host w (nextEvent_eq_host_iff.1 hev) hr (hready.trans hr) he hd
  | enc e hr he => exact .enc (nextEvent_eq_encTurn_iff.1 hev) hr hr he rfl
  | dec d hr hd => exact .dec (nextEvent_eq_decTurn_iff.1 hev) hr hr hd rfl

/-! ## A step by the transition that is next -/

theorem step_host {s : State} {w : BitVec 64} (hr : s.ready = true)
    (h : s.inbox.head? = some (.host w)) :
    step s = exec (decodeHtw s.lenw w) (s.withInbox s.inbox.tail) := by
  have hev := nextEvent_eq_host_iff.2 h
  simp [step, stepWith, hev, transition, hr]

theorem step_reset {s : State} (h : s.inbox.head? = some .reset) :
    step s = .next (resetEvent (s.withInbox s.inbox.tail)) := by
  have hev := nextEvent_eq_reset_iff.2 h
  simp [step, stepWith, hev, transition]

theorem step_encTurn {s : State} (hr : s.ready = true) (h : encTurnNext s) :
    step s = encTurn runWord (s.withInbox s.inbox.tail) := by
  have hev := nextEvent_eq_encTurn_iff.2 h
  simp [step, stepWith, hev, transition, hr]

theorem step_decTurn {s : State} (hr : s.ready = true) (h : decTurnNext s) :
    step s = decTurn runWord (s.withInbox s.inbox.tail) := by
  have hev := nextEvent_eq_decTurn_iff.2 h
  simp [step, stepWith, hev, transition, hr]

/-- Before the first reset nothing but a reset has an effect (70_reset_and_hazards.md R252). -/
theorem step_before_reset {s : State} (hr : s.ready = false) (h : s.inbox.head? ≠ some .reset) :
    step s = .refused .beforeFirstReset := by
  have hev := mt nextEvent_eq_reset_iff.1 h
  cases he : (nextEvent s).1 with
  | reset => exact absurd he hev
  | host | encTurn | decTurn => simp [step, stepWith, he, transition, hr]

/-- Some transition is always next. -/
theorem nextTransition_cases (s : State) :
    (∃ w, s.inbox.head? = some (.host w)) ∨ s.inbox.head? = some .reset ∨ encTurnNext s ∨
      decTurnNext s := by
  cases hev : (nextEvent s).1 with
  | host w => exact .inl ⟨w, nextEvent_eq_host_iff.1 hev⟩
  | reset => exact .inr (.inl (nextEvent_eq_reset_iff.1 hev))
  | encTurn => exact .inr (.inr (.inl (nextEvent_eq_encTurn_iff.1 hev)))
  | decTurn => exact .inr (.inr (.inr (nextEvent_eq_decTurn_iff.1 hev)))

end Sys2Proof.Machine

namespace Sys2Proof.Machine

/-! # What a transaction and a turn leave alone in a unit -/

section Enc
variable {lenw : Nat} {e e' : EncUnit} {i : Instr}

/-- A BUSY ENC ignores every transaction (20_memory.md R76). -/
theorem EncByHost.eq_of_busy (h : EncByHost lenw e i e') (hb : e.st = .busy) : e' = e := by
  cases h with
  | same => rfl
  | start hn | ilen _ hn | ibuf _ _ hn => exact absurd hb hn

theorem EncByHost.st_cases (h : EncByHost lenw e i e') :
    e'.st = e.st ∨ (e.st ≠ .busy ∧ e'.st = .busy ∧ i = .encStart) := by
  cases h with
  | same | ilen | ibuf => exact .inl rfl
  | start hn => exact .inr ⟨hn, rfl, rfl⟩

/-- A turn of ENC changes no input (10_state.md R23, R24). -/
theorem EncMove.input (h : EncMove e e') : e'.ibuf = e.ibuf ∧ e'.ilen = e.ilen := by
  cases h <;> exact ⟨rfl, rfl⟩

theorem EncMove.st_cases (h : EncMove e e') :
    e'.st = e.st ∨ (e.st = .busy ∧ e'.st = .done) := by
  cases h with
  | rest | group => exact .inl rfl
  | finish hb => exact .inr ⟨hb, rfl⟩

end Enc

section Dec
variable {lenw : Nat} {d d' : DecUnit} {i : Instr}

/-- A BUSY DEC ignores every transaction (20_memory.md R76). -/
theorem DecByHost.eq_of_busy (h : DecByHost lenw d i d') (hb : d.st = .busy) : d' = d := by
  cases h with
  | same => rfl
  | start hn | ilen _ hn | ibuf _ _ hn => exact absurd hb hn

theorem DecByHost.st_cases (h : DecByHost lenw d i d') :
    d'.st = d.st ∨ (d.st ≠ .busy ∧ d'.st = .busy ∧ i = .decStart) := by
  cases h with
  | same | ilen | ibuf => exact .inl rfl
  | start hn => exact .inr ⟨hn, rfl, rfl⟩

/-- Of the transactions only an accepted START touches ERR and CAUSE, and it clears them
(60_exceptions.md R229). -/
theorem DecByHost.error_cases (h : DecByHost lenw d i d') :
    (d'.err = d.err ∧ d'.cause = d.cause) ∨
      (d'.err = false ∧ d'.cause = .none ∧ d.st ≠ .busy ∧ i = .decStart) := by
  cases h with
  | same | ilen | ibuf => exact .inl ⟨rfl, rfl⟩
  | start hn => exact .inr ⟨rfl, rfl, hn, rfl⟩

/-- A turn of DEC changes no input (10_state.md R23, R24). -/
theorem DecMove.input (h : DecMove d d') : d'.ibuf = d.ibuf ∧ d'.ilen = d.ilen := by
  cases h <;> exact ⟨rfl, rfl⟩

theorem DecMove.st_cases (h : DecMove d d') :
    d'.st = d.st ∨ (d.st = .busy ∧ d'.st = .done) := by
  cases h with
  | rest | lengthOk | accept | validated | write => exact .inl rfl
  | badLen hb | reject _ _ _ _ _ hb | decoded hb => exact .inr ⟨hb, rfl⟩

/-- A turn of DEC touches ERR and CAUSE only by raising (60_exceptions.md R226). -/
theorem DecMove.error_cases (h : DecMove d d') :
    (d'.err = d.err ∧ d'.cause = d.cause) ∨
      (d.st = .busy ∧ d'.st = .done ∧ d'.err = true ∧ d'.olen = 0 ∧ d'.gp = d.gp ∧
        d'.obuf = d.obuf) := by
  cases h with
  | rest | lengthOk | accept | validated | write | decoded => exact .inl ⟨rfl, rfl⟩
  | badLen hb | reject _ _ _ _ _ hb => exact .inr ⟨hb, rfl, rfl, rfl, rfl, rfl⟩

end Dec

/-! ## The statements about every step -/

/-- Settles O48: a BUSY unit ignores transactions, and a turn writes no input. -/
theorem inputIsImmutable : Obligations.InputIsImmutable := by
  intro s t h
  cases step_effect h with
  | reset hh => simp [← List.head?_eq_none_iff, hh]
  | host w hh _ _ he hd =>
    refine ⟨fun hb _ => ?_, fun hb _ => ?_, by simp [← List.head?_eq_none_iff, hh]⟩
    · rw [he.eq_of_busy hb]; exact ⟨rfl, rfl⟩
    · rw [hd.eq_of_busy hb]; exact ⟨rfl, rfl⟩
  | enc _ _ _ he hd =>
    obtain ⟨hbuf, hlen⟩ := he.input
    simp [hbuf, hlen, hd]
  | dec _ _ _ hd he =>
    obtain ⟨hbuf, hlen⟩ := hd.input
    simp [hbuf, hlen, he]

/-- Settles O49: each way a step can act on a unit moves ST only as listed. -/
theorem runStateTransitions : Obligations.RunStateTransitions := by
  intro s t h
  cases step_effect h with
  | reset hh _ he hd =>
    exact ⟨fun _ => .inl ⟨hh, by rw [he, resetEnc_st]⟩, fun _ => .inl ⟨hh, by rw [hd, resetDec_st]⟩⟩
  | host w hh _ _ he hd =>
    refine ⟨fun hne => ?_, fun hne => ?_⟩
    · obtain ⟨hn, hb, hi⟩ := he.st_cases.resolve_left hne
      exact .inr (.inl ⟨hn, hb, w, hh, by rw [decode_htw, hi]⟩)
    · obtain ⟨hn, hb, hi⟩ := hd.st_cases.resolve_left hne
      exact .inr (.inl ⟨hn, hb, w, hh, by rw [decode_htw, hi]⟩)
  | enc hnext _ _ he hd =>
    refine ⟨fun hne => ?_, fun hne => absurd (congrArg DecUnit.st hd) hne⟩
    obtain ⟨hb, hdone⟩ := he.st_cases.resolve_left hne
    exact .inr (.inr ⟨hb, hdone, hnext⟩)
  | dec hnext _ _ hd he =>
    refine ⟨fun hne => absurd (congrArg EncUnit.st he) hne, fun hne => ?_⟩
    obtain ⟨hb, hdone⟩ := hd.st_cases.resolve_left hne
    exact .inr (.inr ⟨hb, hdone, hnext⟩)

/-- Settles O50: of all effects only a raising turn, a reset and an accepted START write ERR or
CAUSE. -/
theorem onlyDecStepsRaise : Obligations.OnlyDecStepsRaise := by
  intro s t h hne
  have changed : ¬ (t.dec.err = s.dec.err ∧ t.dec.cause = s.dec.cause) := not_and_or.2 hne
  cases step_effect h with
  | reset hh _ _ hd =>
    exact .inr ⟨by rw [hd, resetDec_err], by rw [hd, resetDec_cause], .inl hh⟩
  | host w hh _ _ _ hd =>
    obtain ⟨herr, hcause, hn, hi⟩ := hd.error_cases.resolve_left changed
    exact .inr ⟨herr, hcause, .inr ⟨hn, w, hh, by rw [decode_htw, hi]⟩⟩
  | enc _ _ _ _ hd => exact absurd ⟨congrArg DecUnit.err hd, congrArg DecUnit.cause hd⟩ changed
  | dec hnext _ _ hd => exact .inl ⟨hnext, hd.error_cases.resolve_left changed⟩

end Sys2Proof.Machine

namespace Sys2Proof.Machine

/-! # The invariant -/

/-! ## Group and quad facts it rests on -/

/-- A group gives four characters (40_encoder.md R127). -/
theorem encGroup_length {bs : List Byte} (h : bs ≠ []) : (encGroup bs).length = 4 := by
  match bs, h with
  | [_], _ | [_, _], _ | _ :: _ :: _ :: _, _ => rfl

/-- The group a BUSY ENC reads is not empty (20_memory.md R66). -/
theorem groupSize_pos {n g : Nat} (h : g < groupCount n) : 0 < groupSize n g := by
  unfold groupCount at h; unfold groupSize; omega

/-- A group read from IBUF is not empty. -/
theorem group_ne_nil {m : Memory} {a n g : Nat} {bs : List Byte} (hg : g < groupCount n)
    (hr : m.readCells a (groupSize n g) = .ok bs) : bs ≠ [] := by
  rw [← List.length_pos_iff, (Memory.readCells_eq_ok_iff.1 hr).1]
  exact groupSize_pos hg

/-- The output of a group ends before the last cell of OBUF (20_memory.md R71). -/
theorem group_fits {lenw n g : Nat} (hl : 2 ≤ lenw) (hn : n < 2 ^ lenw) (hg : g < groupCount n) :
    4 * g + 4 < 2 ^ (lenw + 1) := by
  have h4 : 2 ^ 2 ≤ 2 ^ lenw := Nat.pow_le_pow_right (by decide) hl
  unfold groupCount at hg
  rw [Nat.pow_succ]
  omega

/-- The output of a quad ends before the last cell of OBUF (20_memory.md R71). -/
theorem quad_fits {n q k N : Nat} (hn : n < N) (hq : q < quadCount n) (hk : k ≤ 3) :
    3 * q + k < N := by
  unfold quadCount at hq; omega

/-- The causes DecQuad answers: neither NONE nor BADLEN (41_decoder.md R150). -/
theorem decQuad_reject_cause {final : Bool} {c0 c1 c2 c3 : Byte} {c : Cause}
    (h : decQuad final c0 c1 c2 c3 = .reject c) : c ≠ .none ∧ c ≠ .badLen := by
  unfold decQuad at h
  split at h
  · cases h
  · simp only [quadBytes3] at h; split at h <;> cases h; decide
  · simp only [quadBytes2] at h; split at h <;> cases h; decide
  · unfold quadReject at h; split at h <;> cases h <;> decide

theorem quadAccepted_iff {d : DecUnit} {q : Nat} :
    quadAccepted d q = true ↔ ∃ c0 c1 c2 c3 bs, d.ibuf.readCells (4 * q) 4 = .ok [c0, c1, c2, c3] ∧
      decQuad (decide (q = quadCount d.ilen - 1)) c0 c1 c2 c3 = .ok bs := by
  unfold quadAccepted
  constructor
  · intro h
    split at h
    · next c0 c1 c2 c3 hr =>
      split at h
      · next bs hq => exact ⟨c0, c1, c2, c3, bs, hr, hq⟩
      · cases h
    · cases h
  · rintro ⟨c0, c1, c2, c3, bs, hr, hq⟩
    simp only [hr, hq]

/-- Accepting quad `n` extends the accepted quads by one. -/
theorem quadAccepted_succ {d : DecUnit} {n : Nat} (h : ∀ q < n, quadAccepted d q = true)
    (hn : quadAccepted d n = true) : ∀ q < n + 1, quadAccepted d q = true := fun q hq =>
  (Nat.lt_succ_iff_lt_or_eq.1 hq).elim (h q) (· ▸ hn)

/-! ## Unit ENC -/

section Enc
variable {lenw : Nat} {e e' : EncUnit} {i : Instr}

theorem EncWidths.byHost (w : EncWidths lenw e) (h : EncByHost lenw e i e') :
    EncWidths lenw e' := by
  cases h with
  | same => exact w
  | start => exact { w with olen_lt := Nat.two_pow_pos _, gp_lt := Nat.two_pow_pos _ }
  | ilen v => exact { w with ilen_lt := Nat.mod_lt _ (Nat.two_pow_pos _) }
  | ibuf a v _ ha =>
    exact { w with
      ibuf_wf := Memory.write_wf w.ibuf_wf _ _
      ibuf_below := Memory.write_below w.ibuf_below ha _ }

theorem EncInv.byHost (inv : EncInv e) (h : EncByHost lenw e i e') : EncInv e' := by
  cases h with
  | same => exact inv
  | start => exact ⟨nofun, fun _ => ⟨rfl, Nat.zero_le _⟩⟩
  | ilen v hn | ibuf a v hn => exact ⟨inv.idle, fun hb => absurd hb hn⟩

theorem EncWidths.move (hl : 2 ≤ lenw) (w : EncWidths lenw e) (inv : EncInv e)
    (h : EncMove e e') : EncWidths lenw e' := by
  cases h with
  | rest | finish => exact { w with }
  | group bs hb hg hr =>
    have hlen := encGroup_length (group_ne_nil hg hr)
    have hfit := group_fits hl w.ilen_lt hg
    exact { w with
      obuf_wf := Memory.writeCells_wf w.obuf_wf _ _
      obuf_below := Memory.writeCells_below w.obuf_below (by rw [hlen]; exact hfit.le)
      olen_lt := by show e.olen + 4 < _; rw [(inv.busy hb).1]; exact hfit
      gp_lt := by show e.gp + 1 < _; omega }

theorem EncInv.move (inv : EncInv e) (h : EncMove e e') : EncInv e' := by
  cases h with
  | rest => exact inv
  | finish => exact ⟨nofun, nofun⟩
  | group bs hb hg =>
    have hst : (encStepped e bs).st = .busy := hb
    obtain ⟨holen, -⟩ := inv.busy hb
    exact ⟨fun hi => by simp [hst] at hi, fun _ => ⟨by show e.olen + 4 = _; rw [holen]; rfl, hg⟩⟩

end Enc

/-! ## Unit DEC -/

section Dec
variable {lenw : Nat} {d d' : DecUnit} {i : Instr}

theorem DecWidths.byHost (w : DecWidths lenw d) (h : DecByHost lenw d i d') :
    DecWidths lenw d' := by
  cases h with
  | same => exact w
  | start => exact { w with olen_lt := Nat.two_pow_pos _, gp_lt := Nat.two_pow_pos _ }
  | ilen v => exact { w with ilen_lt := Nat.mod_lt _ (Nat.two_pow_pos _) }
  | ibuf a v _ ha =>
    exact { w with
      ibuf_wf := Memory.write_wf w.ibuf_wf _ _
      ibuf_below := Memory.write_below w.ibuf_below ha _ }

theorem DecInv.byHost (inv : DecInv d) (h : DecByHost lenw d i d') : DecInv d' := by
  cases h with
  | same => exact inv
  | start =>
    exact { idle := nofun, errCause := by simp, errDone := nofun, lenchk := fun _ _ => ⟨rfl, rfl⟩
            validate := nofun, decode := nofun }
  | ilen v hn | ibuf a v hn =>
    exact { inv with
      lenchk := fun hb => absurd hb hn
      validate := fun hb => absurd hb hn
      decode := fun hb => absurd hb hn }

theorem DecWidths.move (w : DecWidths lenw d) (h : DecMove d d') : DecWidths lenw d' := by
  cases h with
  | rest | lengthOk | decoded => exact { w with }
  | badLen | reject => exact { w with olen_lt := Nat.two_pow_pos _ }
  | validated => exact { w with gp_lt := Nat.two_pow_pos _ }
  | accept c0 c1 c2 c3 bs hb hp hg =>
    exact { w with gp_lt := by show d.gp + 1 < _; have := quad_fits w.ilen_lt hg (k := 1); omega }
  | write c0 c1 c2 c3 bs hb hp hg hr hq =>
    have hlen := decQuad_ok_length hq
    have hfit := quad_fits w.ilen_lt hg hlen.2.1
    exact { w with
      obuf_wf := Memory.writeCells_wf w.obuf_wf _ _
      obuf_below := Memory.writeCells_below w.obuf_below hfit.le
      olen_lt := hfit
      gp_lt := by show d.gp + 1 < _; omega }

/-- A unit in DONE whose ERR and CAUSE agree meets the invariant. -/
theorem DecInv.of_done (hs : d.st = .done) (hc : d.err = false ↔ d.cause = .none)
    (ho : d.err = true → d.olen = 0) : DecInv d where
  idle h := by simp [hs] at h
  errCause := hc
  errDone h := ⟨hs, ho h⟩
  lenchk h := by simp [hs] at h
  validate h := by simp [hs] at h
  decode h := by simp [hs] at h

/-- The items of R47 that a BUSY unit meets whatever its phase. -/
theorem DecInv.of_busy (inv : DecInv d) (hb : d.st = .busy) : d.err = false ∧ d.cause = .none := by
  have herr : d.err = false := by
    cases h : d.err with
    | false => rfl
    | true => simpa [hb] using (inv.errDone h).1
  exact ⟨herr, inv.errCause.1 herr⟩

/-- A BUSY unit without an error meets the invariant if it meets its phase's item. -/
theorem DecInv.of_running (hb : d.st = .busy) (herr : d.err = false ∧ d.cause = .none)
    (hl : d.phase = .lenchk → d.olen = 0 ∧ d.gp = 0)
    (hv : d.phase = .validate → d.olen = 0 ∧ d.ilen % 4 = 0 ∧ d.gp ≤ quadCount d.ilen ∧
      ∀ q < d.gp, quadAccepted d q = true)
    (hd : d.phase = .decode → d.ilen % 4 = 0 ∧ d.gp ≤ quadCount d.ilen ∧
      (∀ q < quadCount d.ilen, quadAccepted d q = true) ∧
      (d.gp < quadCount d.ilen → d.olen = 3 * d.gp) ∧ d.olen ≤ 3 * d.gp) : DecInv d where
  idle h := by simp [hb] at h
  errCause := by simp [herr]
  errDone h := by simp [herr] at h
  lenchk _ := hl
  validate _ := hv
  decode _ := hd

theorem DecInv.move (inv : DecInv d) (h : DecMove d d') : DecInv d' := by
  cases h with
  | rest => exact inv
  | badLen => exact .of_done rfl (by simp) fun _ => rfl
  | reject _ _ _ _ c _ _ _ _ hq =>
    exact .of_done rfl (by simpa using (decQuad_reject_cause hq).1) fun _ => rfl
  | decoded hb => exact .of_done rfl (by simp [inv.of_busy hb]) (by simp [inv.of_busy hb])
  | lengthOk hb hp hm =>
    obtain ⟨holen, hgp⟩ := inv.lenchk hb hp
    exact .of_running hb (inv.of_busy hb) nofun
      (fun _ => ⟨holen, hm, by simp [hgp], by simp [hgp]⟩) nofun
  | accept c0 c1 c2 c3 bs hb hp hg hr hq =>
    obtain ⟨holen, hm, -, hacc⟩ := inv.validate hb hp
    have hnew : quadAccepted d d.gp = true := quadAccepted_iff.2 ⟨c0, c1, c2, c3, bs, hr, hq⟩
    exact .of_running hb (inv.of_busy hb) (fun hl => absurd (hp.symm.trans hl) nofun)
      (fun _ => ⟨holen, hm, hg, quadAccepted_succ hacc hnew⟩)
      (fun hd => absurd (hp.symm.trans hd) nofun)
  | validated hb hp hg =>
    obtain ⟨holen, hm, hle, hacc⟩ := inv.validate hb hp
    have hgp : d.gp = quadCount d.ilen := by omega
    exact .of_running hb (inv.of_busy hb) nofun nofun
      (fun _ => ⟨hm, Nat.zero_le _, hgp ▸ hacc, fun _ => holen, holen.le⟩)
  | write c0 c1 c2 c3 bs hb hp hg hr hq =>
    obtain ⟨hm, -, hacc, -, -⟩ := inv.decode hb hp
    obtain ⟨-, hle3, hfull⟩ := decQuad_ok_length hq
    refine .of_running hb (inv.of_busy hb) (fun hl => absurd (hp.symm.trans hl) nofun)
      (fun hv => absurd (hp.symm.trans hv) nofun) (fun _ => ⟨hm, hg, hacc, fun hlt => ?_, ?_⟩)
    · have hlt : d.gp + 1 < quadCount d.ilen := hlt
      have hlen : bs.length = 3 := hfull (by simp; omega)
      show 3 * d.gp + bs.length = 3 * (d.gp + 1)
      omega
    · show 3 * d.gp + bs.length ≤ 3 * (d.gp + 1)
      omega

end Dec

/-! ## Reset -/

theorem bufferAfterReset_cases (r : Bool) (m : Memory) :
    bufferAfterReset r m = m ∨ bufferAfterReset r m = [] := by
  cases r <;> simp

theorem obufAfterReset_cases (r : Bool) (st : RunState) (m : Memory) :
    obufAfterReset r st m = m ∨ obufAfterReset r st m = [] := by
  unfold obufAfterReset
  split
  · exact .inr rfl
  · exact bufferAfterReset_cases r m

/-- A buffer kept or emptied is in canonical form and within its capacity if it was before. -/
theorem Memory.kept_or_empty {m m' : Memory} {n : Nat} (h : m' = m ∨ m' = []) (hwf : m.wf)
    (hb : m.below n) : m'.wf ∧ m'.below n := by
  rcases h with rfl | rfl
  · exact ⟨hwf, hb⟩
  · exact ⟨List.Pairwise.nil, nofun⟩

theorem EncWidths.reset {lenw : Nat} {e : EncUnit} (w : EncWidths lenw e) (r : Bool) (n : Nat) :
    EncWidths lenw (resetEnc r n e) := by
  obtain ⟨hiwf, hib⟩ :=
    Memory.kept_or_empty (bufferAfterReset_cases r e.ibuf) w.ibuf_wf w.ibuf_below
  obtain ⟨howf, hob⟩ :=
    Memory.kept_or_empty (obufAfterReset_cases r e.st e.obuf) w.obuf_wf w.obuf_below
  exact ⟨hiwf, howf, hib, hob, Nat.two_pow_pos _, Nat.two_pow_pos _, Nat.two_pow_pos _⟩

theorem DecWidths.reset {lenw : Nat} {d : DecUnit} (w : DecWidths lenw d) (r : Bool) (n : Nat) :
    DecWidths lenw (resetDec r n d) := by
  obtain ⟨hiwf, hib⟩ :=
    Memory.kept_or_empty (bufferAfterReset_cases r d.ibuf) w.ibuf_wf w.ibuf_below
  obtain ⟨howf, hob⟩ :=
    Memory.kept_or_empty (obufAfterReset_cases r d.st d.obuf) w.obuf_wf w.obuf_below
  exact ⟨hiwf, howf, hib, hob, Nat.two_pow_pos _, Nat.two_pow_pos _, Nat.two_pow_pos _⟩

theorem EncInv.of_idle {e : EncUnit} (hs : e.st = .idle) (ho : e.olen = 0) (hg : e.gp = 0) :
    EncInv e := ⟨fun _ => ⟨ho, hg⟩, fun hb => by simp [hs] at hb⟩

theorem DecInv.of_idle {d : DecUnit} (hs : d.st = .idle) (ho : d.olen = 0) (hg : d.gp = 0)
    (he : d.err = false) (hc : d.cause = .none) : DecInv d where
  idle _ := ⟨ho, hg, he, hc⟩
  errCause := by simp [he, hc]
  errDone h := by simp [he] at h
  lenchk h := by simp [hs] at h
  validate h := by simp [hs] at h
  decode h := by simp [hs] at h

/-! ## The invariant of the machine -/

/-- A state reset since power-up meets the invariant if its units do. -/
theorem Inv.of_ready {s : State} (hr : s.ready = true) (hl : Config.legalLenw s.lenw)
    (we : EncWidths s.lenw s.enc) (wd : DecWidths s.lenw s.dec) (encInv : EncInv s.enc)
    (decInv : DecInv s.dec) : Inv s :=
  ⟨hl, we, wd, fun _ => encInv, fun _ => decInv, fun h => by simp [hr] at h⟩

/-- Settles O46: `step_effect` leaves a reset, a transaction and a turn of either unit; each keeps
the widths and the items of R47 unit by unit. -/
theorem stepKeepsInvariant : Obligations.StepKeepsInvariant := by
  intro s t inv h
  obtain ⟨hl, we, wd, encInv, decInv, -⟩ := inv
  rw [← (step_frame h).1] at hl we wd
  cases step_effect h with
  | reset _ hr he hd =>
    refine .of_ready hr hl ?_ ?_ ?_ ?_
    · exact he ▸ we.reset _ _
    · exact hd ▸ wd.reset _ _
    · exact he ▸ .of_idle rfl rfl rfl
    · exact hd ▸ .of_idle rfl rfl rfl rfl rfl
  | host w _ hs hr he hd =>
    rw [← (step_frame h).1] at he hd
    exact .of_ready hr hl (we.byHost he) (wd.byHost hd) ((encInv hs).byHost he)
      ((decInv hs).byHost hd)
  | enc _ hs hr he hd =>
    exact .of_ready hr hl (we.move hl.1 (encInv hs) he) (hd ▸ wd) ((encInv hs).move he)
      (hd ▸ decInv hs)
  | dec _ hs hr hd he =>
    exact .of_ready hr hl (he ▸ we) (wd.move hd) (he ▸ encInv hs) ((decInv hs).move hd)

/-- Settles O45: both units are IDLE with zero registers and empty buffers. -/
theorem invariantHoldsAtReset : Obligations.InvariantHoldsAtReset :=
  .of_ready rfl (by decide)
    ⟨.nil, .nil, nofun, nofun, by decide, by decide, by decide⟩
    ⟨.nil, .nil, nofun, nofun, by decide, by decide, by decide⟩
    (.of_idle rfl rfl rfl) (.of_idle rfl rfl rfl rfl rfl)

/-- Settles O17: ERR says DONE and ERR and CAUSE agree, so only the listed words are left. -/
theorem statusTakesOnlyTheListedValues : Obligations.StatusTakesOnlyTheListedValues := by
  intro s inv hr
  have decInv := inv.dec hr
  refine ⟨?_, ?_⟩
  · show statusWord s.enc.st false .none ∈ _
    cases s.enc.st <;> decide
  · show statusWord s.dec.st s.dec.err s.dec.cause ∈ _
    cases herr : s.dec.err with
    | false =>
      rw [decInv.errCause.1 herr]
      cases s.dec.st <;> decide
    | true =>
      have hcause : s.dec.cause ≠ .none := fun h => by simp [decInv.errCause.2 h] at herr
      rw [(decInv.errDone herr).1]
      revert hcause
      cases s.dec.cause <;> decide

end Sys2Proof.Machine

namespace Sys2Proof.Machine

/-! # The turns of the units

One equation per case of a turn (42_sequencer_and_host.md R190, R192 to R199), and that a turn
depends on its unit alone (R191, 10_state.md R41). -/

section
variable {s : State}

theorem encTurn_not_busy (h : s.enc.st ≠ .busy) : encTurn runWord s = .next s := if_neg h

theorem encTurn_end (hb : s.enc.st = .busy) (hg : ¬ s.enc.gp < groupCount s.enc.ilen) :
    encTurn runWord s = .next (encEnd s) := by
  rw [encTurn_eq, if_pos hb, if_neg hg]

theorem encTurn_group {bs : List Byte} (hb : s.enc.st = .busy)
    (hg : s.enc.gp < groupCount s.enc.ilen)
    (hr : s.enc.ibuf.readCells (3 * s.enc.gp) (groupSize s.enc.ilen s.enc.gp) = .ok bs) :
    encTurn runWord s = .next (s.withEnc (encStepped s.enc bs)) := by
  rw [encTurn_eq, if_pos hb, if_pos hg, hr]

theorem encTurn_valueless {a : Nat} (hb : s.enc.st = .busy) (hg : s.enc.gp < groupCount s.enc.ilen)
    (hr : s.enc.ibuf.readCells (3 * s.enc.gp) (groupSize s.enc.ilen s.enc.gp) = .error a) :
    encTurn runWord s = .fault (.cellHoldsNoValue .enc a) := by
  rw [encTurn_eq, if_pos hb, if_pos hg, hr]

theorem decTurn_not_busy (h : s.dec.st ≠ .busy) : decTurn runWord s = .next s := if_neg h

theorem decLchk_badLen (h : s.dec.ilen % 4 ≠ 0) : decLchk s = raiseFormatError .badLen s := if_pos h

theorem decLchk_lengthOk (h : s.dec.ilen % 4 = 0) :
    decLchk s = s.withDec { s.dec with phase := .validate } := if_neg (not_not.2 h)

theorem decTurn_lenchk (hb : s.dec.st = .busy) (hp : s.dec.phase = .lenchk) :
    decTurn runWord s = .next (decLchk s) := by
  rw [decTurn, if_pos hb, hp]

theorem decTurn_quad (hb : s.dec.st = .busy) (hp : s.dec.phase ≠ .lenchk)
    (hg : s.dec.gp < quadCount s.dec.ilen) : decTurn runWord s = decQuadStep runWord s := by
  rw [decTurn, if_pos hb]
  cases h : s.dec.phase with
  | lenchk => exact absurd h hp
  | validate | decode => exact if_pos hg

theorem decTurn_vend (hb : s.dec.st = .busy) (hp : s.dec.phase = .validate)
    (hg : ¬ s.dec.gp < quadCount s.dec.ilen) : decTurn runWord s = .next (decVend s) := by
  rw [decTurn, if_pos hb, hp]
  exact if_neg hg

theorem decTurn_dend (hb : s.dec.st = .busy) (hp : s.dec.phase = .decode)
    (hg : ¬ s.dec.gp < quadCount s.dec.ilen) : decTurn runWord s = .next (decDend s) := by
  rw [decTurn, if_pos hb, hp]
  exact if_neg hg

end

/-! ## A unit's turn depends on that unit alone -/

/-- An answer with the next state passed through `f`. -/
def mapNext (f : State → State) : Result → Result
  | .next t => .next (f t)
  | .fault x => .fault x
  | .refused r => .refused r

@[simp] theorem mapNext_next (f : State → State) (t : State) :
    mapNext f (.next t) = .next (f t) := rfl
@[simp] theorem mapNext_fault (f : State → State) (x : Fault) :
    mapNext f (.fault x) = .fault x := rfl
@[simp] theorem mapNext_refused (f : State → State) (r : Refusal) :
    mapNext f (.refused r) = .refused r := rfl

/-- ENC's turn is the same in any two states that hold the same ENC. -/
theorem encTurn_withEnc (s s' : State) (e : EncUnit) :
    encTurn runWord (s'.withEnc e) =
      mapNext (fun t => s'.withEnc t.enc) (encTurn runWord (s.withEnc e)) := by
  by_cases hb : e.st = .busy
  · by_cases hg : e.gp < groupCount e.ilen
    · cases hr : e.ibuf.readCells (3 * e.gp) (groupSize e.ilen e.gp) with
      | error a =>
        rw [encTurn_valueless (s := s'.withEnc e) hb hg hr,
          encTurn_valueless (s := s.withEnc e) hb hg hr]
        rfl
      | ok bs =>
        rw [encTurn_group (s := s'.withEnc e) hb hg hr, encTurn_group (s := s.withEnc e) hb hg hr]
        rfl
    · rw [encTurn_end (s := s'.withEnc e) hb hg, encTurn_end (s := s.withEnc e) hb hg]
      rfl
  · rw [encTurn_not_busy (s := s'.withEnc e) hb, encTurn_not_busy (s := s.withEnc e) hb]
    rfl

/-- What follows a quad operation, in two states that hold the same DEC. -/
theorem finishQuad_withDec (r : QuadResult) (s s' : State) (d : DecUnit) :
    finishQuad r (s'.withDec d) =
      mapNext (fun t => s'.withDec t.dec) (finishQuad r (s.withDec d)) := by
  by_cases hpre : decStepPre d
  · cases hp : d.phase with
    | lenchk => exact absurd hp hpre.2.1
    | validate =>
      rw [finishQuad_validate hpre hp, finishQuad_validate hpre hp]
      cases r <;> rfl
    | decode =>
      rw [finishQuad_decode hpre hp, finishQuad_decode hpre hp]
      cases r <;> rfl
  · rw [finishQuad_of_not_pre hpre, finishQuad_of_not_pre hpre]
    rfl

theorem decQuadStep_withDec (s s' : State) (d : DecUnit) :
    decQuadStep runWord (s'.withDec d) =
      mapNext (fun t => s'.withDec t.dec) (decQuadStep runWord (s.withDec d)) := by
  cases hr : d.ibuf.readCells (4 * d.gp) 4 with
  | error a =>
    rw [decQuadStep_error (s := s'.withDec d) hr, decQuadStep_error (s := s.withDec d) hr]
    rfl
  | ok bs =>
    obtain ⟨c0, c1, c2, c3, rfl⟩ := Memory.readCells_four hr
    rw [decQuadStep_eq (s'.withDec d) c0 c1 c2 c3 hr, decQuadStep_eq (s.withDec d) c0 c1 c2 c3 hr]
    exact finishQuad_withDec _ s s' _

theorem decLchk_withDec (s s' : State) (d : DecUnit) :
    decLchk (s'.withDec d) = s'.withDec (decLchk (s.withDec d)).dec := by
  by_cases h : d.ilen % 4 ≠ 0
  · rw [decLchk_badLen (s := s'.withDec d) h, decLchk_badLen (s := s.withDec d) h]; rfl
  · rw [decLchk_lengthOk (s := s'.withDec d) (not_not.1 h),
      decLchk_lengthOk (s := s.withDec d) (not_not.1 h)]
    rfl

/-- DEC's turn is the same in any two states that hold the same DEC. -/
theorem decTurn_withDec (s s' : State) (d : DecUnit) :
    decTurn runWord (s'.withDec d) =
      mapNext (fun t => s'.withDec t.dec) (decTurn runWord (s.withDec d)) := by
  by_cases hb : d.st = .busy
  · by_cases hl : d.phase = .lenchk
    · rw [decTurn_lenchk (s := s'.withDec d) hb hl, decTurn_lenchk (s := s.withDec d) hb hl,
        decLchk_withDec s s']
      rfl
    · by_cases hg : d.gp < quadCount d.ilen
      · rw [decTurn_quad (s := s'.withDec d) hb hl hg, decTurn_quad (s := s.withDec d) hb hl hg]
        exact decQuadStep_withDec s s' d
      · cases hp : d.phase with
        | lenchk => exact absurd hp hl
        | validate =>
          rw [decTurn_vend (s := s'.withDec d) hb hp hg, decTurn_vend (s := s.withDec d) hb hp hg]
          rfl
        | decode =>
          rw [decTurn_dend (s := s'.withDec d) hb hp hg, decTurn_dend (s := s.withDec d) hb hp hg]
          rfl
  · rw [decTurn_not_busy (s := s'.withDec d) hb, decTurn_not_busy (s := s.withDec d) hb]
    rfl

theorem encTurn_congr {s s' : State} (h : s'.enc = s.enc) :
    encTurn runWord s' = mapNext (fun t => s'.withEnc t.enc) (encTurn runWord s) := by
  have := encTurn_withEnc s s' s.enc
  rwa [State.withEnc_self, ← h, State.withEnc_self] at this

theorem decTurn_congr {s s' : State} (h : s'.dec = s.dec) :
    decTurn runWord s' = mapNext (fun t => s'.withDec t.dec) (decTurn runWord s) := by
  have := decTurn_withDec s s' s.dec
  rwa [State.withDec_self, ← h, State.withDec_self] at this

/-- The step that takes a turn of ENC. -/
theorem step_encTurn_eq {s : State} (hr : s.ready = true) (h : encTurnNext s) :
    step s = mapNext (fun t => (s.withInbox s.inbox.tail).withEnc t.enc) (encTurn runWord s) :=
  (step_encTurn hr h).trans (encTurn_congr rfl)

/-- The step that takes a turn of DEC. -/
theorem step_decTurn_eq {s : State} (hr : s.ready = true) (h : decTurnNext s) :
    step s = mapNext (fun t => (s.withInbox s.inbox.tail).withDec t.dec) (decTurn runWord s) :=
  (step_decTurn hr h).trans (decTurn_congr rfl)

/-- Settles O52: both steps are the unit's turn, which `encTurn_congr` and `decTurn_congr` carry
from one state to the other. -/
theorem unitStepDependsOnItsUnitAlone : Obligations.UnitStepDependsOnItsUnitAlone := by
  intro s s' hr hr'
  refine ⟨fun hn hn' heq => ?_, fun hn hn' heq => ?_⟩
  · rw [step_encTurn_eq hr hn, step_encTurn_eq hr' hn', encTurn_congr heq]
    cases encTurn runWord s <;> simp
  · rw [step_decTurn_eq hr hn, step_decTurn_eq hr' hn', decTurn_congr heq]
    cases decTurn runWord s <;> simp

/-! ## Runs of several steps -/

theorem coreRun_succ_iff {M : Host.Core} {k : Nat} {s t : M.State} :
    M.run (k + 1) s = .next t ↔ ∃ u, M.step s = .next u ∧ M.run k u = .next t := by
  rw [Host.Core.run]
  cases M.step s <;> simp

theorem run_succ_iff {k : Nat} {s t : State} :
    Host.Core.run core (k + 1) s = .next t ↔
      ∃ u, step s = .next u ∧ Host.Core.run core k u = .next t := coreRun_succ_iff (M := core)

theorem run_zero_iff {s t : State} : Host.Core.run core 0 s = .next t ↔ s = t := by
  show (.next s : Result) = .next t ↔ s = t
  rw [Host.Outcome.next.injEq]

theorem mapNext_eq_next_iff {f : State → State} {r : Result} {t : State} :
    mapNext f r = .next t ↔ ∃ u, r = .next u ∧ f u = t := by
  cases r <;> simp

/-- Settles O53: in either order each turn finds its unit as it stands in `s`, so both end in the
two turns taken alone, one beside the other. -/
theorem unitTurnsCommute : Obligations.UnitTurnsCommute := by
  intro s t es
  cases hr : s.ready with
  | false =>
    have refused : ∀ e es, e ≠ Event.reset →
        step (s.withInbox (e :: es)) = .refused .beforeFirstReset := fun e es he =>
      step_before_reset hr (by simpa using he)
    simp [run_succ_iff, refused]
  | true =>
    have enc : ∀ u : State, u.ready = true → u.enc = s.enc → ∀ es,
        step (u.withInbox (.encTurn :: es)) =
          mapNext (fun t => (u.withInbox es).withEnc t.enc) (encTurn runWord s) := fun u hu h es =>
      (step_encTurn (s := u.withInbox (.encTurn :: es)) hu (.inl rfl)).trans (encTurn_congr h)
    have dec : ∀ u : State, u.ready = true → u.dec = s.dec → ∀ es,
        step (u.withInbox (.decTurn :: es)) =
          mapNext (fun t => (u.withInbox es).withDec t.dec) (decTurn runWord s) := fun u hu h es =>
      (step_decTurn (s := u.withInbox (.decTurn :: es)) hu (.inl rfl)).trans (decTurn_congr h)
    have decSecond := fun e => dec (s.withEnc e) hr rfl es
    have encSecond := fun d => enc (s.withDec d) hr rfl es
    simp only [run_succ_iff, run_zero_iff, enc s hr rfl, dec s hr rfl, mapNext_eq_next_iff]
    constructor
    · rintro ⟨_, ⟨u, hu, rfl⟩, _, hv, rfl⟩
      obtain ⟨v, hdec, rfl⟩ := mapNext_eq_next_iff.1 ((decSecond u.enc).symm.trans hv)
      exact ⟨_, ⟨v, hdec, rfl⟩, _, (encSecond v.dec).trans (congrArg _ hu), rfl⟩
    · rintro ⟨_, ⟨v, hv, rfl⟩, _, hu, rfl⟩
      obtain ⟨u, henc, rfl⟩ := mapNext_eq_next_iff.1 ((encSecond v.dec).symm.trans hu)
      exact ⟨_, ⟨u, henc, rfl⟩, _, (decSecond u.enc).trans (congrArg _ hv), rfl⟩

end Sys2Proof.Machine

namespace Sys2Proof.Machine

/-! # When a step stops -/

/-- A read over a cell that holds no value answers no bytes (10_state.md R46). -/
theorem Memory.readCells_error_of_none {m : Memory} {a n x : Nat} (h : m.read x = none)
    (ha : a ≤ x) (hx : x < a + n) : ∃ y, m.readCells a n = .error y := by
  cases hr : m.readCells a n with
  | error y => exact ⟨y, rfl⟩
  | ok bs =>
    obtain ⟨hlen, hcells⟩ := Memory.readCells_eq_ok_iff.1 hr
    have := hcells (x - a) (by omega)
    rw [show a + (x - a) = x by omega, h] at this
    cases this

/-- The cells of ENC's group are message cells (20_memory.md R66). -/
theorem encGroup_error_location {e : EncUnit} {x : Nat}
    (h : e.ibuf.readCells (3 * e.gp) (groupSize e.ilen e.gp) = .error x) :
    3 * e.gp ≤ x ∧ x < 3 * e.gp + 3 ∧ x < e.ilen ∧ e.ibuf.read x = none := by
  obtain ⟨hle, hlt, hnone⟩ := Memory.readCells_eq_error h
  unfold groupSize at hlt
  exact ⟨hle, by omega, by omega, hnone⟩

/-- The cells of DEC's quad are message cells (20_memory.md R66). -/
theorem decQuad_error_location {d : DecUnit} {x : Nat} (hg : d.gp < quadCount d.ilen)
    (h : d.ibuf.readCells (4 * d.gp) 4 = .error x) :
    4 * d.gp ≤ x ∧ x < 4 * d.gp + 4 ∧ x < d.ilen ∧ d.ibuf.read x = none := by
  obtain ⟨hle, hlt, hnone⟩ := Memory.readCells_eq_error h
  unfold quadCount at hg
  exact ⟨hle, hlt, by omega, hnone⟩

theorem decTurn_valueless {s : State} {a : Nat} (hb : s.dec.st = .busy)
    (hp : s.dec.phase ≠ .lenchk) (hg : s.dec.gp < quadCount s.dec.ilen)
    (hr : s.dec.ibuf.readCells (4 * s.dec.gp) 4 = .error a) :
    decTurn runWord s = .fault (.cellHoldsNoValue .dec a) :=
  (decTurn_quad hb hp hg).trans (decQuadStep_error hr)

/-- Settles O41: the grouper's read meets the cell, so it answers an error, and an error names a
cell of the range read. -/
theorem valuelessCellStopsTheStep : Obligations.ValuelessCellStopsTheStep := by
  intro s es a hr
  refine ⟨fun hi hb hg hle hlt hlen hnone => ?_, fun hi hb hp hg hle hlt hnone => ?_⟩
  · obtain ⟨x, hx⟩ := Memory.readCells_error_of_none (n := groupSize s.enc.ilen s.enc.gp) hnone hle
      (by unfold groupSize; omega)
    refine ⟨x, ?_, encGroup_error_location hx⟩
    rw [step_encTurn_eq hr (.inl (by rw [hi]; rfl)), encTurn_valueless hb hg hx]
    rfl
  · obtain ⟨x, hx⟩ := Memory.readCells_error_of_none (n := 4) hnone hle hlt
    refine ⟨x, ?_, decQuad_error_location hg hx⟩
    rw [step_decTurn_eq hr (.inl (by rw [hi]; rfl)), decTurn_valueless hb hp hg hx]
    rfl

/-- A turn of ENC answers a next state or names a message cell that holds no value. -/
theorem encTurn_progress (s : State) :
    (∃ t, encTurn runWord s = .next t) ∨
    (∃ a, encTurn runWord s = .fault (.cellHoldsNoValue .enc a) ∧ s.enc.st = .busy ∧
      a < s.enc.ilen ∧ s.enc.ibuf.read a = none) := by
  by_cases hb : s.enc.st = .busy
  · by_cases hg : s.enc.gp < groupCount s.enc.ilen
    · cases hr : s.enc.ibuf.readCells (3 * s.enc.gp) (groupSize s.enc.ilen s.enc.gp) with
      | error a =>
        obtain ⟨-, -, hlt, hnone⟩ := encGroup_error_location hr
        exact .inr ⟨a, encTurn_valueless hb hg hr, hb, hlt, hnone⟩
      | ok bs => exact .inl ⟨_, encTurn_group hb hg hr⟩
    · exact .inl ⟨_, encTurn_end hb hg⟩
  · exact .inl ⟨_, encTurn_not_busy hb⟩

/-- In the DECODE phase the invariant has every quad accepted, so DecQuad cannot reject
(42_sequencer_and_host.md R197). -/
theorem DecInv.accepts {d : DecUnit} (inv : DecInv d) (hb : d.st = .busy) (hp : d.phase = .decode)
    (hg : d.gp < quadCount d.ilen) {c0 c1 c2 c3 : Byte}
    (hr : d.ibuf.readCells (4 * d.gp) 4 = .ok [c0, c1, c2, c3]) :
    ∃ bs, decQuad (decide (d.gp = quadCount d.ilen - 1)) c0 c1 c2 c3 = .ok bs := by
  obtain ⟨-, -, hacc, -⟩ := inv.decode hb hp
  obtain ⟨x0, x1, x2, x3, bs, hx, hq⟩ := quadAccepted_iff.1 (hacc d.gp hg)
  cases hr.symm.trans hx
  exact ⟨bs, hq⟩

/-- A quad step of DEC on the quad `c0 c1 c2 c3` answers a next state. -/
theorem decQuadStep_progress {s : State} (inv : DecInv s.dec) (hb : s.dec.st = .busy)
    (hp : s.dec.phase ≠ .lenchk) (hg : s.dec.gp < quadCount s.dec.ilen) {c0 c1 c2 c3 : Byte}
    (hr : s.dec.ibuf.readCells (4 * s.dec.gp) 4 = .ok [c0, c1, c2, c3]) :
    ∃ t, decQuadStep runWord s = .next t := by
  have hpre : decStepPre (s.withDec (decLatched s.dec c0 c1 c2 c3)).dec := ⟨hb, hp, hg⟩
  rw [decQuadStep_eq s c0 c1 c2 c3 hr]
  cases hph : s.dec.phase with
  | lenchk => exact absurd hph hp
  | validate =>
    rw [finishQuad_validate hpre hph]
    cases decQuad (decide (s.dec.gp = quadCount s.dec.ilen - 1)) c0 c1 c2 c3 <;> exact ⟨_, rfl⟩
  | decode =>
    obtain ⟨bs, hq⟩ := inv.accepts hb hph hg hr
    rw [finishQuad_decode hpre hph, hq]
    exact ⟨_, rfl⟩

/-- A turn of DEC, from a DEC that meets the invariant, answers a next state or names a message
cell that holds no value. -/
theorem decTurn_progress {s : State} (inv : DecInv s.dec) :
    (∃ t, decTurn runWord s = .next t) ∨
    (∃ a, decTurn runWord s = .fault (.cellHoldsNoValue .dec a) ∧ s.dec.st = .busy ∧
      a < s.dec.ilen ∧ s.dec.ibuf.read a = none) := by
  by_cases hb : s.dec.st = .busy
  · by_cases hl : s.dec.phase = .lenchk
    · exact .inl ⟨_, decTurn_lenchk hb hl⟩
    · by_cases hg : s.dec.gp < quadCount s.dec.ilen
      · cases hr : s.dec.ibuf.readCells (4 * s.dec.gp) 4 with
        | error a =>
          obtain ⟨-, -, hlt, hnone⟩ := decQuad_error_location hg hr
          exact .inr ⟨a, decTurn_valueless hb hl hg hr, hb, hlt, hnone⟩
        | ok bs =>
          obtain ⟨c0, c1, c2, c3, rfl⟩ := Memory.readCells_four hr
          rw [decTurn_quad hb hl hg]
          exact .inl (decQuadStep_progress inv hb hl hg hr)
      · cases hp : s.dec.phase with
        | lenchk => exact absurd hp hl
        | validate => exact .inl ⟨_, decTurn_vend hb hp hg⟩
        | decode => exact .inl ⟨_, decTurn_dend hb hp hg⟩
  · exact .inl ⟨_, decTurn_not_busy hb⟩

/-- Settles O47: a transaction and a reset always complete, and a turn stops only at a message cell
without a value. -/
theorem onlyStopIsAValuelessCell : Obligations.OnlyStopIsAValuelessCell := by
  intro s inv hr
  rcases nextTransition_cases s with ⟨w, hw⟩ | hreset | henc | hdec
  · obtain ⟨t, ht, -⟩ := exec_transaction _ (s.withInbox s.inbox.tail)
      (decodeHtw_isTransaction s.lenw w)
    exact .inl ⟨t, (step_host hr hw).trans ht⟩
  · exact .inl ⟨_, step_reset hreset⟩
  · rw [step_encTurn_eq hr henc]
    rcases encTurn_progress s with ⟨t, ht⟩ | ⟨a, ha, hcell⟩
    · exact .inl ⟨_, congrArg _ ht⟩
    · exact .inr (.inl ⟨a, congrArg _ ha, hcell⟩)
  · rw [step_decTurn_eq hr hdec]
    rcases decTurn_progress (inv.dec hr) with ⟨t, ht⟩ | ⟨a, ha, hcell⟩
    · exact .inl ⟨_, congrArg _ ht⟩
    · exact .inr (.inr ⟨a, congrArg _ ha, hcell⟩)

end Sys2Proof.Machine

namespace Sys2Proof.Machine

/-! # Reset and the registers the host sees -/

/-- Settles O42: every field is a literal of `State.reset`. -/
theorem resetStateValues : Obligations.ResetStateValues := by
  refine ⟨rfl, rfl, rfl, rfl, rfl, rfl, rfl, rfl, rfl, rfl, rfl,
    fun a => ⟨rfl, rfl, rfl, rfl⟩, by decide, by decide, ?_⟩
  have idle : State.reset.dec.st ≠ .busy := by decide
  rw [step_decTurn_eq rfl (.inr ⟨rfl, by decide⟩), decTurn_not_busy idle]
  rfl

@[simp] theorem obufAfterReset_not_busy {st : RunState} (h : st ≠ .busy) (r : Bool) (m : Memory) :
    obufAfterReset r st m = bufferAfterReset r m := if_neg h

/-- After the first reset OBUF is empty whether or not the unit was BUSY. -/
@[simp] theorem obufAfterReset_false (st : RunState) (m : Memory) :
    obufAfterReset false st m = [] := by
  cases st <;> rfl

/-- Settles O43: the next state is `resetEvent`, whose fields `resetEnc` and `resetDec` give. -/
theorem resetFromAnyState : Obligations.ResetFromAnyState := by
  intro s es hi
  refine ⟨_, step_reset (by rw [hi]; rfl), rfl, rfl, by simp [hi], rfl, rfl, rfl, rfl, rfl, rfl,
    rfl, rfl, rfl, rfl, fun hr => ⟨by simp [hr], by simp [hr], ?_, ?_⟩, ?_, ?_, ?_⟩
  · intro hn; simp [hr, hn]
  · intro hn; simp [hr, hn]
  · intro hb; simp [hb]
  · intro hb; simp [hb]
  · intro hr; simp [hr]

theorem writeUnlessBusy_of_busy {u : UnitId} {s : State} (h : stOf u s = .busy)
    (f : State → State) : writeUnlessBusy u f s = ackWrite s := if_pos h

theorem writeUnlessBusy_of_not_busy {u : UnitId} {s : State} (h : stOf u s ≠ .busy)
    (f : State → State) : writeUnlessBusy u f s = ackWrite (f s) := if_neg h

/-- Settles O22: ILEN is written cut to the unit's width, or the write is only acknowledged. -/
theorem writeIlenCutsToTheRegister : Obligations.WriteIlenCutsToTheRegister := by
  intro v s
  constructor
  · by_cases hb : s.enc.st = .busy
    · rw [if_pos hb]; exact congrArg _ (writeUnlessBusy_of_busy (u := .enc) hb _)
    · rw [if_neg hb]; exact congrArg _ (writeUnlessBusy_of_not_busy (u := .enc) hb _)
  · by_cases hb : s.dec.st = .busy
    · rw [if_pos hb]; exact congrArg _ (writeUnlessBusy_of_busy (u := .dec) hb _)
    · rw [if_neg hb]; exact congrArg _ (writeUnlessBusy_of_not_busy (u := .dec) hb _)

/-- STATUS bit by bit (10_state.md R32). -/
theorem statusWord_bits (st : RunState) (err : Bool) (c : Cause) :
    (statusWord st err c).getLsbD 0 = decide (st = .busy) ∧
    (statusWord st err c).getLsbD 1 = decide (st = .done) ∧
    (statusWord st err c).getLsbD 2 = err ∧
    (statusWord st err c).getLsbD 3 = false ∧
    (statusWord st err c).extractLsb' 4 3 = causeCode c ∧
    (statusWord st err c).extractLsb' 7 25 = 0 := by
  cases st <;> cases err <;> cases c <;> decide

/-- Settles O16: RD.STATUS answers `statusWord` of the unit's ST, ERR and CAUSE. -/
theorem statusReadBitByBit : Obligations.StatusReadBitByBit := by
  intro u s
  refine ⟨statusOf u s, rfl, ?_⟩
  cases u with
  | enc => exact statusWord_bits s.enc.st false .none
  | dec =>
    obtain ⟨h0, h1, h2, h3, h4, h5⟩ := statusWord_bits s.dec.st s.dec.err s.dec.cause
    refine ⟨h0, h1, h2.trans (Bool.true_and _).symm, h3, h4.trans ?_, h5⟩
    cases s.dec.cause <;> rfl

/-! ## What a transaction can tell of a unit -/

/-- While a unit is BUSY a cell read answers the next free value (42_sequencer_and_host.md R206). -/
theorem answerCell_of_busy {u : UnitId} {s : State} (h : stOf u s = .busy) (m : Memory) (a : Nat) :
    answerCell u m a s = answerFree s := by
  unfold answerCell
  split
  · exact answerUnlessBusy_of_busy h _
  · rfl

section
variable (u : UnitId) (a : BitVec 28) (v : HostWord) (s : State)

/-! The buffer transactions always answer a next state. -/

theorem execWrIbuf_eq : execWrIbuf u a v s = .next (if a.toNat < ibufCells s.lenw u then
    writeUnlessBusy u (setIbuf u ((ibufOf u s).write a.toNat (v.extractLsb' 0 8))) s
    else reserved true s) := (apply_ite _ _ _ _).symm

theorem execRdIbuf_eq : execRdIbuf u a s = .next (if a.toNat < ibufCells s.lenw u then
    answerCell u (ibufOf u s) a.toNat s else reserved false s) := (apply_ite _ _ _ _).symm

theorem execRdObuf_eq : execRdObuf u a s = .next (if a.toNat < obufCells s.lenw then
    answerCell u (obufOf u s) a.toNat s else reserved false s) := (apply_ite _ _ _ _).symm

end

/-- What a transaction to a BUSY unit does (20_memory.md R76): of the unit it reads at most STATUS
and ILEN. -/
def busyAnswer (i : Instr) (s : State) : State :=
  match i with
  | .rdCtrl _ => answer 0 s
  | .rdStatus u => answer (statusOf u s) s
  | .rdIlen u => answer (zext32 (ilenOf u s)) s
  | .rdOlen _ | .rdGp _ => answerFree s
  | .rdIbuf u a => if a.toNat < ibufCells s.lenw u then answerFree s else answer 0 s
  | .rdObuf _ a => if a.toNat < obufCells s.lenw then answerFree s else answer 0 s
  | .htRsvd w => reserved (decide (htwRw w = 1)) s
  | _ => ackWrite s

theorem exec_of_busy {i : Instr} {s : State} (hi : i.isTransaction = true)
    (hb : stOf i.unit s = .busy) : exec i s = .next (busyAnswer i s) := by
  cases i with
  | encStart | decStart | wrIlen => exact congrArg _ (writeUnlessBusy_of_busy hb _)
  | ctrlNop | rdCtrl | rdStatus | rdIlen | htRsvd => rfl
  | rdOlen | rdGp => exact congrArg _ (answerUnlessBusy_of_busy hb _)
  | wrIbuf u a v =>
    refine (execWrIbuf_eq u a v s).trans (congrArg _ ?_)
    rw [writeUnlessBusy_of_busy (u := u) hb]
    exact ite_self _
  | rdIbuf u a =>
    refine (execRdIbuf_eq u a s).trans ?_
    rw [answerCell_of_busy (u := u) hb]
    rfl
  | rdObuf u a =>
    refine (execRdObuf_eq u a s).trans ?_
    rw [answerCell_of_busy (u := u) hb]
    rfl
  | encG3 | encG2 | encG1 | decQ4 | decQ3 | decQ2 | decRej => exact Bool.noConfusion hi

/-- `g` replaces part of a state and passes LENW and every answer on. -/
structure Transparent (g : State → State) : Prop where
  lenw : ∀ s, (g s).lenw = s.lenw
  ack : ∀ s, ackWrite (g s) = g (ackWrite s)
  read : ∀ v s, answer v (g s) = g (answer v s)
  free : ∀ s, answerFree (g s) = g (answerFree s)

theorem transparent_withEnc (e : EncUnit) : Transparent (·.withEnc e) :=
  ⟨fun _ => rfl, fun _ => rfl, fun _ _ => rfl, fun _ => rfl⟩

theorem transparent_withDec (d : DecUnit) : Transparent (·.withDec d) :=
  ⟨fun _ => rfl, fun _ => rfl, fun _ _ => rfl, fun _ => rfl⟩

theorem Transparent.reserved {g : State → State} (h : Transparent g) (b : Bool) (s : State) :
    reserved b (g s) = g (reserved b s) := by
  cases b
  · exact h.read 0 s
  · exact h.ack s

/-- A transaction to a BUSY unit does not see what `g` replaces of it but STATUS and ILEN. -/
theorem Transparent.busyAnswer {g : State → State} (h : Transparent g) {i : Instr} {s : State}
    (hstatus : statusOf i.unit (g s) = statusOf i.unit s)
    (hilen : ilenOf i.unit (g s) = ilenOf i.unit s) :
    busyAnswer i (g s) = g (busyAnswer i s) := by
  cases i with
  | rdStatus u => exact (congrArg (answer · (g s)) hstatus).trans (h.read _ s)
  | rdIlen u => exact (congrArg (fun n => answer (zext32 n) (g s)) hilen).trans (h.read _ s)
  | rdCtrl => exact h.read 0 s
  | rdOlen | rdGp => exact h.free s
  | rdIbuf | rdObuf => simp only [Machine.busyAnswer, h.lenw, h.free, h.read, apply_ite g]
  | htRsvd w => exact h.reserved _ s
  | encStart | decStart | ctrlNop | wrIlen | wrIbuf | encG3 | encG2 | encG1 | decQ4 | decQ3 | decQ2
  | decRej => exact h.ack s

/-- `g` replaces nothing that a transaction to unit `u` reads or writes. -/
structure Unseen (u : UnitId) (g : State → State) : Prop extends Transparent g where
  st : ∀ s, stOf u (g s) = stOf u s
  status : ∀ s, statusOf u (g s) = statusOf u s
  ilen : ∀ s, ilenOf u (g s) = ilenOf u s
  olen : ∀ s, olenOf u (g s) = olenOf u s
  gp : ∀ s, gpOf u (g s) = gpOf u s
  ibuf : ∀ s, ibufOf u (g s) = ibufOf u s
  obuf : ∀ s, obufOf u (g s) = obufOf u s
  setIlen : ∀ n s, setIlen u n (g s) = g (setIlen u n s)
  setIbuf : ∀ m s, setIbuf u m (g s) = g (setIbuf u m s)
  startEnc : u = .enc → ∀ s, startEnc (g s) = g (startEnc s)
  startDec : u = .dec → ∀ s, startDec (g s) = g (startDec s)

theorem unseen_withDec (d : DecUnit) : Unseen .enc (·.withDec d) where
  toTransparent := transparent_withDec d
  st _ := rfl
  status _ := rfl
  ilen _ := rfl
  olen _ := rfl
  gp _ := rfl
  ibuf _ := rfl
  obuf _ := rfl
  setIlen _ _ := rfl
  setIbuf _ _ := rfl
  startEnc _ _ := rfl
  startDec h := nomatch h

theorem unseen_withEnc (e : EncUnit) : Unseen .dec (·.withEnc e) where
  toTransparent := transparent_withEnc e
  st _ := rfl
  status _ := rfl
  ilen _ := rfl
  olen _ := rfl
  gp _ := rfl
  ibuf _ := rfl
  obuf _ := rfl
  setIlen _ _ := rfl
  setIbuf _ _ := rfl
  startEnc h := nomatch h
  startDec _ _ := rfl

namespace Unseen
variable {u : UnitId} {g : State → State} (h : Unseen u g) (s : State)
include h

theorem answerUnlessBusy (v : HostWord) :
    answerUnlessBusy u v (g s) = g (answerUnlessBusy u v s) := by
  by_cases hb : stOf u s = .busy
  · rw [answerUnlessBusy_of_busy hb, answerUnlessBusy_of_busy ((h.st s).trans hb), h.free]
  · rw [answerUnlessBusy_of_not_busy hb, answerUnlessBusy_of_not_busy (h.st s ▸ hb), h.read]

theorem answerCell (m : Memory) (a : Nat) : answerCell u m a (g s) = g (answerCell u m a s) := by
  unfold Machine.answerCell
  cases m.read a with
  | none => exact h.free s
  | some b => exact h.answerUnlessBusy s _

theorem writeUnlessBusy {f f' : State → State} (hf : f' (g s) = g (f s)) :
    writeUnlessBusy u f' (g s) = g (writeUnlessBusy u f s) := by
  by_cases hb : stOf u s = .busy
  · rw [writeUnlessBusy_of_busy hb, writeUnlessBusy_of_busy ((h.st s).trans hb), h.ack]
  · rw [writeUnlessBusy_of_not_busy hb, writeUnlessBusy_of_not_busy (h.st s ▸ hb), hf, h.ack]

/-- A transaction to `u` runs the same whatever `g` replaces (42_sequencer_and_host.md R200). -/
theorem exec {i : Instr} (hi : i.isTransaction = true) (hu : i.unit = u) :
    exec i (g s) = mapNext g (exec i s) := by
  subst hu
  cases i with
  | encStart => exact congrArg _ (h.writeUnlessBusy s (h.startEnc rfl s))
  | decStart => exact congrArg _ (h.writeUnlessBusy s (h.startDec rfl s))
  | ctrlNop => exact congrArg _ (h.ack s)
  | wrIlen u v =>
    change Unseen u g at h
    simp only [Machine.exec, execWrIlen, h.lenw]
    exact congrArg _ (h.writeUnlessBusy s (h.setIlen _ s))
  | wrIbuf u a v =>
    change Unseen u g at h
    have hw := h.writeUnlessBusy s (h.setIbuf ((ibufOf u s).write a.toNat (v.extractLsb' 0 8)) s)
    simp only [Machine.exec, execWrIbuf_eq, mapNext_next, apply_ite g, h.lenw, h.ibuf, hw,
      h.reserved]
  | rdCtrl => exact congrArg _ (h.read _ s)
  | rdStatus u =>
    change Unseen u g at h
    simp only [Machine.exec, execRdStatus, mapNext_next, h.status, h.read]
  | rdIlen u =>
    change Unseen u g at h
    simp only [Machine.exec, execRdIlen, mapNext_next, h.ilen, h.read]
  | rdOlen u =>
    change Unseen u g at h
    simp only [Machine.exec, execRdOlen, mapNext_next, h.olen, h.answerUnlessBusy]
  | rdGp u =>
    change Unseen u g at h
    simp only [Machine.exec, execRdGp, mapNext_next, h.gp, h.answerUnlessBusy]
  | rdIbuf u a =>
    change Unseen u g at h
    simp only [Machine.exec, execRdIbuf_eq, mapNext_next, apply_ite g, h.lenw, h.ibuf, h.answerCell,
      h.reserved]
  | rdObuf u a =>
    change Unseen u g at h
    simp only [Machine.exec, execRdObuf_eq, mapNext_next, apply_ite g, h.lenw, h.obuf, h.answerCell,
      h.reserved]
  | htRsvd w => exact congrArg _ (h.reserved _ s)
  | encG3 | encG2 | encG1 | decQ4 | decQ3 | decQ2 | decRej => exact Bool.noConfusion hi

end Unseen

/-- No transaction tells one BUSY ENC from another with the same ILEN. -/
theorem exec_withEnc_of_busy {i : Instr} {s : State} {e : EncUnit} (hi : i.isTransaction = true)
    (hs : s.enc.st = .busy) (he : e.st = .busy) (hilen : e.ilen = s.enc.ilen) :
    exec i (s.withEnc e) = mapNext (·.withEnc e) (exec i s) := by
  cases hu : i.unit with
  | dec => exact (unseen_withEnc e).exec s hi hu
  | enc =>
    rw [exec_of_busy (s := s.withEnc e) hi (hu ▸ he), exec_of_busy (s := s) hi (hu ▸ hs)]
    refine congrArg _ ((transparent_withEnc e).busyAnswer ?_ ?_)
    · rw [hu]; exact congrArg (statusWord · false .none) (he.trans hs.symm)
    · rw [hu]; exact hilen

/-- No transaction tells one BUSY DEC from another with the same ILEN, ERR and CAUSE. -/
theorem exec_withDec_of_busy {i : Instr} {s : State} {d : DecUnit} (hi : i.isTransaction = true)
    (hs : s.dec.st = .busy) (hd : d.st = .busy) (hilen : d.ilen = s.dec.ilen)
    (herr : d.err = s.dec.err) (hcause : d.cause = s.dec.cause) :
    exec i (s.withDec d) = mapNext (·.withDec d) (exec i s) := by
  cases hu : i.unit with
  | enc => exact (unseen_withDec d).exec s hi hu
  | dec =>
    rw [exec_of_busy (s := s.withDec d) hi (hu ▸ hd), exec_of_busy (s := s) hi (hu ▸ hs)]
    refine congrArg _ ((transparent_withDec d).busyAnswer ?_ ?_)
    · rw [hu]
      show statusWord d.st d.err d.cause = statusWord s.dec.st s.dec.err s.dec.cause
      rw [hd, hs, herr, hcause]
    · rw [hu]; exact hilen

/-- Settles O25: the transaction runs the same in both states, the replaced unit passed through. -/
theorem busyStatesAreIndistinguishable : Obligations.BusyStatesAreIndistinguishable := by
  intro i s hi
  obtain ⟨t, ht, -⟩ := exec_transaction i s hi
  refine ⟨fun e hs he hilen => ⟨t, t.withEnc e, ht, ?_, rfl, rfl, rfl⟩,
    fun d hs hd hilen herr hcause => ⟨t, t.withDec d, ht, ?_, rfl, rfl, rfl⟩⟩
  · rw [exec_withEnc_of_busy hi hs he hilen, ht]; rfl
  · rw [exec_withDec_of_busy hi hs hd hilen herr hcause, ht]; rfl

end Sys2Proof.Machine

namespace Sys2Proof.Machine

/-! # Runs of any interleaving, seen from one unit -/

/-- A step that is not a reset, seen from a BUSY ENC (42_sequencer_and_host.md R191). -/
theorem step_seen_by_busy_enc {s t : State} {e : Event} {es : List Event} (h : step s = .next t)
    (hi : s.inbox = e :: es) (he : e ≠ .reset) (hb : s.enc.st = .busy) :
    (e = .encTurn ∧ EncMove s.enc t.enc) ∨ (e ≠ .encTurn ∧ t.enc = s.enc) := by
  cases step_effect h with
  | reset hh => simp [hi, he] at hh
  | host w hh _ _ henc =>
    rw [hi, List.head?_cons, Option.some.injEq] at hh
    exact .inr ⟨by simp [hh], henc.eq_of_busy hb⟩
  | enc hn _ _ hmove =>
    rw [encTurnNext_cons hi] at hn
    exact .inl ⟨hn, hmove⟩
  | dec hn _ _ _ henc =>
    rw [decTurnNext_cons hi] at hn
    exact .inr ⟨by simp [hn], henc⟩

/-- A step that is not a reset, seen from a BUSY DEC. -/
theorem step_seen_by_busy_dec {s t : State} {e : Event} {es : List Event} (h : step s = .next t)
    (hi : s.inbox = e :: es) (he : e ≠ .reset) (hb : s.dec.st = .busy) :
    (e = .decTurn ∧ DecMove s.dec t.dec) ∨ (e ≠ .decTurn ∧ t.dec = s.dec) := by
  cases step_effect h with
  | reset hh => simp [hi, he] at hh
  | host w hh _ _ _ hdec =>
    rw [hi, List.head?_cons, Option.some.injEq] at hh
    exact .inr ⟨by simp [hh], hdec.eq_of_busy hb⟩
  | enc hn _ _ _ hdec =>
    rw [encTurnNext_cons hi] at hn
    exact .inr ⟨by simp [hn], hdec⟩
  | dec hn _ _ hmove =>
    rw [decTurnNext_cons hi] at hn
    exact .inl ⟨hn, hmove⟩

/-- An operation of one unit under any interleaving. `proj` is the unit, `turn` its turn and `P n`
says that it is `n` of its turns from the end. A step of anything else leaves a running unit as it
is, so a run that holds `n` turns and ends in one ends the operation. -/
theorem run_progress {U : Type} {proj : State → U} {turn : Event} {Move : U → U → Prop}
    {P : Nat → U → Prop}
    (seen : ∀ {s t e es n}, step s = .next t → s.inbox = e :: es → e ≠ .reset → P (n + 1) (proj s) →
      (e = turn ∧ Move (proj s) (proj t)) ∨ (e ≠ turn ∧ proj t = proj s))
    (move : ∀ {n u u'}, P (n + 1) u → Move u u' → P n u') (hturn : turn ≠ .reset)
    {es rest : List Event} (hes : .reset ∉ es) {s t : State} (hi : s.inbox = es ++ turn :: rest)
    (hp : P (es.count turn + 1) (proj s)) (h : Host.Core.run core (es.length + 1) s = .next t) :
    P 0 (proj t) := by
  induction es generalizing s with
  | nil =>
    obtain ⟨u, hu, hrun⟩ := run_succ_iff.1 h
    cases run_zero_iff.1 hrun
    rcases seen hu hi hturn hp with ⟨-, hmove⟩ | ⟨hne, -⟩
    · exact move hp hmove
    · exact absurd rfl hne
  | cons e es ih =>
    obtain ⟨he, hes⟩ := not_or.1 (mt List.mem_cons.2 hes)
    obtain ⟨u, hu, hrun⟩ := run_succ_iff.1 h
    have hiu : u.inbox = es ++ turn :: rest := by rw [(step_frame hu).2, hi]; rfl
    refine ih hes hiu ?_ hrun
    rcases seen hu hi (Ne.symm he) hp with ⟨rfl, hmove⟩ | ⟨hne, hsame⟩
    · rw [List.count_cons_self] at hp
      exact move hp hmove
    · rwa [List.count_cons_of_ne hne, ← hsame] at hp

/-- The step that runs an accepted ENC.START (42_sequencer_and_host.md R201). -/
theorem step_encStart {s : State} {w : BitVec 64} {es : List Event} (hr : s.ready = true)
    (hb : s.enc.st ≠ .busy) (hw : decode s.lenw (.htw w) = .ok .encStart)
    (hi : s.inbox = .host w :: es) : step s = .next (ackWrite (startEnc (s.withInbox es))) := by
  rw [step_host hr (by rw [hi]; rfl), decodeHtw_of_decode hw, hi]
  exact congrArg _ (writeUnlessBusy_of_not_busy (u := .enc) (s := s.withInbox es) hb _)

/-- The step that runs an accepted DEC.START (42_sequencer_and_host.md R202). -/
theorem step_decStart {s : State} {w : BitVec 64} {es : List Event} (hr : s.ready = true)
    (hb : s.dec.st ≠ .busy) (hw : decode s.lenw (.htw w) = .ok .decStart)
    (hi : s.inbox = .host w :: es) : step s = .next (ackWrite (startDec (s.withInbox es))) := by
  rw [step_host hr (by rw [hi]; rfl), decodeHtw_of_decode hw, hi]
  exact congrArg _ (writeUnlessBusy_of_not_busy (u := .dec) (s := s.withInbox es) hb _)

/-! ## Messages in buffers -/

/-- Part of a message read again (20_memory.md R61). -/
theorem messageIs.slice {m : Memory} {n a k : Nat} {b bs : List Byte} (hb : messageIs m n b)
    (hr : m.readCells a k = .ok bs) (hk : a + k ≤ n) : bs = (b.drop a).take k := by
  obtain ⟨hlen, hcells⟩ := Memory.readCells_eq_ok_iff.1 hb
  obtain ⟨hlen', hcells'⟩ := Memory.readCells_eq_ok_iff.1 hr
  refine List.ext_getElem (by simp; omega) fun i hi hi' => ?_
  have h := hcells (a + i) (by omega)
  rw [Nat.zero_add, hcells' i hi, Option.some.injEq] at h
  simpa using h

theorem messageIs.length {m : Memory} {n : Nat} {b : List Byte} (hb : messageIs m n b) :
    b.length = n := (Memory.readCells_eq_ok_iff.1 hb).1

/-- `m` holds the first `n` bytes of `out` and beyond them what `m0` holds. -/
def WrittenUpTo (m0 : Memory) (out : List Byte) (n : Nat) (m : Memory) : Prop :=
  ∀ i, m.read i = if i < n then out[i]? else m0.read i

theorem writtenUpTo_zero (m : Memory) (out : List Byte) : WrittenUpTo m out 0 m := fun _ => rfl

/-- Writing what comes next of `out` where the written part ends. -/
theorem WrittenUpTo.writeCells {m0 m : Memory} {out bs : List Byte} {n : Nat}
    (h : WrittenUpTo m0 out n m) (hbs : bs <+: out.drop n) :
    WrittenUpTo m0 out (n + bs.length) (m.writeCells n bs) := by
  intro i
  by_cases hin : n ≤ i ∧ i < n + bs.length
  · obtain ⟨j, rfl⟩ := Nat.exists_eq_add_of_le hin.1
    have hj : j < bs.length := by omega
    obtain ⟨rest, hrest⟩ := hbs
    rw [Memory.read_writeCells_inside m n bs hj, if_pos hin.2, ← List.getElem?_drop, ← hrest,
      List.getElem?_append_left hj, List.getElem?_eq_getElem hj]
  · rw [Memory.read_writeCells_outside m bs (by omega), h i]
    by_cases hi : i < n
    · rw [if_pos hi, if_pos (by omega)]
    · rw [if_neg hi, if_neg (by omega)]

/-! ## The encode operation -/

/-- The text past its first `g` quads encodes the message past its first `g` groups. -/
theorem b64Encode_drop (b : List Byte) (g : Nat) :
    (b64Encode b).drop (4 * g) = b64Encode (b.drop (3 * g)) := by
  have one : ∀ b : List Byte, (b64Encode b).drop 4 = b64Encode (b.drop 3) := fun b =>
    match b with
    | [] | [_] | [_, _] | _ :: _ :: _ :: _ => rfl
  induction g with
  | zero => rfl
  | succ g ih => rw [Nat.mul_succ, Nat.mul_succ, ← List.drop_drop, ih, one, List.drop_drop]

/-- The text begins with EncGroup of the first group (40_encoder.md R125). -/
theorem encGroup_prefix (b : List Byte) : encGroup (b.take 3) <+: b64Encode b :=
  match b with
  | [] | [_] | [_, _] => List.prefix_rfl
  | _ :: _ :: _ :: _ => List.prefix_append _ _

/-- The length law (40_encoder.md R127). -/
theorem b64Encode_length (b : List Byte) : (b64Encode b).length = 4 * groupCount b.length := by
  induction b using b64Encode.induct with
  | case1 => rfl
  | case2 | case3 => simp [b64Encode, groupChars1, groupChars2, groupCount]
  | case4 b0 b1 b2 rest ih =>
    rw [b64Encode, List.length_append, ih]
    simp [groupChars3, groupCount]
    omega

/-- ENC working on message `m`, with `e0` as it stood at START, `n` turns from the end
(42_sequencer_and_host.md R192 to R194). -/
inductive EncProgress (e0 : EncUnit) (m : List Byte) : Nat → EncUnit → Prop where
  | running {n : Nat} {e : EncUnit} : e.st = .busy → e.ibuf = e0.ibuf → e.ilen = e0.ilen →
      e.gp + n = groupCount e0.ilen → e.olen = 4 * e.gp →
      WrittenUpTo e0.obuf (b64Encode m) (4 * e.gp) e.obuf → EncProgress e0 m (n + 1) e
  | finished {e : EncUnit} : e.st = .done → e.ibuf = e0.ibuf → e.ilen = e0.ilen →
      e.gp = groupCount e0.ilen → e.olen = 4 * e.gp →
      WrittenUpTo e0.obuf (b64Encode m) (4 * e.gp) e.obuf → EncProgress e0 m 0 e

theorem EncProgress.busy {e0 e : EncUnit} {m : List Byte} {n : Nat}
    (h : EncProgress e0 m (n + 1) e) : e.st = .busy := by
  cases h with
  | running hb => exact hb

/-- What the group read by ENC's next turn becomes. -/
theorem encGroup_of_message {e : EncUnit} {m bs : List Byte} (hm : messageIs e.ibuf e.ilen m)
    (hg : e.gp < groupCount e.ilen)
    (hr : e.ibuf.readCells (3 * e.gp) (groupSize e.ilen e.gp) = .ok bs) :
    encGroup bs <+: (b64Encode m).drop (4 * e.gp) := by
  have hbs := hm.slice hr (by unfold groupSize; unfold groupCount at hg; omega)
  rw [groupSize, ← hm.length, ← List.length_drop, ← List.take_eq_take_min] at hbs
  rw [b64Encode_drop, hbs]
  exact encGroup_prefix _

theorem EncProgress.start (e : EncUnit) (m : List Byte) :
    EncProgress e m (groupCount e.ilen + 1) { e with olen := 0, gp := 0, st := .busy } :=
  .running rfl rfl rfl (Nat.zero_add _) rfl (writtenUpTo_zero _ _)

theorem EncProgress.move {e0 e e' : EncUnit} {m : List Byte} {n : Nat}
    (hm : messageIs e0.ibuf e0.ilen m) (h : EncProgress e0 m (n + 1) e) (hmove : EncMove e e') :
    EncProgress e0 m n e' := by
  cases h with
  | running hb hi hl hg ho hw =>
    rw [← hi, ← hl] at hm
    cases hmove with
    | rest hn => exact absurd hb hn
    | finish _ hge =>
      obtain rfl : n = 0 := by rw [hl] at hge; omega
      exact .finished rfl hi hl hg ho hw
    | group bs _ hlt hr =>
      obtain ⟨n, rfl⟩ : ∃ k, n = k + 1 := Nat.exists_eq_add_one.2 (by rw [hl] at hlt; omega)
      have hlen := encGroup_length (group_ne_nil hlt hr)
      have hw' := hw.writeCells (encGroup_of_message hm hlt hr)
      rw [hlen] at hw'
      exact .running hb hi hl (by show e.gp + 1 + n = _; omega) (congrArg (· + 4) ho) hw'

/-- Settles O56: START begins the operation, `run_progress` takes it through the interleaving. -/
theorem encodeUnderAnyInterleaving : Obligations.EncodeUnderAnyInterleaving := by
  intro s t m w es rest hr hb hm hw hes hcount hi h
  obtain ⟨u, hu, hrun⟩ := run_succ_iff.1 h
  cases hu.symm.trans (step_encStart hr hb hw hi)
  have hend : EncProgress s.enc m 0 t.enc :=
    run_progress (proj := State.enc) (Move := EncMove)
      (fun h hi he hp => step_seen_by_busy_enc h hi he hp.busy) (EncProgress.move hm) nofun hes rfl
      (hcount ▸ EncProgress.start s.enc m) hrun
  cases hend with
  | finished hdone hibuf hilen hgp holen hout =>
    rw [← holen] at hout
    refine ⟨hdone, hibuf, hilen, ?_, hgp, fun i hlt => ?_, fun i hge => ?_⟩
    · rw [holen, hgp, b64Encode_length, hm.length]
    · rw [hout i, if_pos hlt]
    · rw [hout i, if_neg (Nat.not_lt.2 hge)]

end Sys2Proof.Machine

namespace Sys2Proof.Machine

/-! # The decode operation -/

/-! ## `decode` quad by quad (41_decoder.md R156) -/

section
variable {c0 c1 c2 c3 : Byte} {rest : List Byte}

theorem quadCount_cons :
    quadCount (c0 :: c1 :: c2 :: c3 :: rest).length = quadCount rest.length + 1 := by
  simp only [quadCount, List.length_cons]
  omega

theorem quadOfText_zero (h : rest.length % 4 = 0) :
    quadOfText (c0 :: c1 :: c2 :: c3 :: rest) 0 = decQuad rest.isEmpty c0 c1 c2 c3 := by
  have hfinal : decide (0 = quadCount rest.length + 1 - 1) = rest.isEmpty := by
    cases rest with
    | nil => rfl
    | cons c rest =>
      have hlen := List.length_cons (a := c) (as := rest)
      rw [List.isEmpty_cons, decide_eq_false_iff_not, quadCount]
      omega
  rw [quadOfText, quadCount_cons, hfinal]
  rfl

theorem quadOfText_succ {q : Nat} (h : q < quadCount rest.length) :
    quadOfText (c0 :: c1 :: c2 :: c3 :: rest) (q + 1) = quadOfText rest q := by
  have hfinal : (q + 1 = quadCount rest.length + 1 - 1) = (q = quadCount rest.length - 1) := by
    rw [eq_iff_iff]; omega
  simp only [quadOfText, quadCount_cons, hfinal, Nat.mul_succ]
  rfl

theorem decodeQuads_bytes_iff {n : Nat} {b : List Byte} :
    decodeQuads n (c0 :: c1 :: c2 :: c3 :: rest) = .bytes b ↔
      ∃ bs bs', decQuad rest.isEmpty c0 c1 c2 c3 = .ok bs ∧ decodeQuads (n + 1) rest = .bytes bs' ∧
        bs ++ bs' = b := by
  rw [decodeQuads]
  cases decQuad rest.isEmpty c0 c1 c2 c3 with
  | reject c => simp
  | ok bs => cases decodeQuads (n + 1) rest <;> simp

theorem decodeQuads_error_iff {n q : Nat} {c : Cause} :
    decodeQuads n (c0 :: c1 :: c2 :: c3 :: rest) = .formatError c q ↔
      (decQuad rest.isEmpty c0 c1 c2 c3 = .reject c ∧ n = q) ∨
      ∃ bs, decQuad rest.isEmpty c0 c1 c2 c3 = .ok bs ∧
        decodeQuads (n + 1) rest = .formatError c q := by
  rw [decodeQuads]
  cases decQuad rest.isEmpty c0 c1 c2 c3 with
  | reject c => simp
  | ok bs => cases decodeQuads (n + 1) rest <;> simp

end

/-- The bytes of an accepted text, quad by quad: each quad gives the next three, the final one the
rest. -/
theorem decodeQuads_bytes : ∀ {n : Nat} {t b : List Byte}, t.length % 4 = 0 →
    decodeQuads n t = .bytes b → b.length ≤ 3 * quadCount t.length ∧
      ∀ q < quadCount t.length, quadOfText t q = .ok ((b.drop (3 * q)).take 3)
  | n, [], b, _, h => by
    cases h
    exact ⟨Nat.zero_le _, nofun⟩
  | n, c0 :: c1 :: c2 :: c3 :: rest, b, hlen, h => by
    have hrest : rest.length % 4 = 0 := by simp only [List.length_cons] at hlen; omega
    obtain ⟨bs, bs', hq, hbs', rfl⟩ := decodeQuads_bytes_iff.1 h
    obtain ⟨-, hle, hfull⟩ := decQuad_ok_length hq
    obtain ⟨hle', htail⟩ := decodeQuads_bytes hrest hbs'
    have hlast : bs.length = 3 ∨ bs' = [] := by
      cases rest with
      | nil => cases hbs'; exact .inr rfl
      | cons c rest => exact .inl (hfull rfl)
    rw [quadCount_cons]
    refine ⟨by rw [List.length_append]; omega, fun q hlt => ?_⟩
    cases q with
    | zero =>
      rw [quadOfText_zero hrest, hq, Nat.mul_zero, List.drop_zero, List.take_append,
        List.take_of_length_le hle]
      rcases hlast with h3 | rfl
      · rw [h3, Nat.sub_self, List.take_zero, List.append_nil]
      · rw [List.take_nil, List.append_nil]
    | succ q =>
      have h3 : bs.length = 3 := hfull (by
        cases rest with
        | nil => exact absurd (Nat.lt_of_succ_lt_succ hlt) (Nat.not_lt_zero q)
        | cons c rest => rfl)
      rw [quadOfText_succ (by omega), htail q (by omega), Nat.mul_succ, Nat.add_comm, ← h3,
        List.drop_length_add_append]
  | _, [_], _, hlen, _ | _, [_, _], _, hlen, _ | _, [_, _, _], _, hlen, _ => nomatch hlen

/-- A rejected text, quad by quad: the walk stops at the first rejected quad. -/
theorem decodeQuads_error : ∀ {n q : Nat} {t : List Byte} {c : Cause}, t.length % 4 = 0 →
    decodeQuads n t = .formatError c q → ∃ j < quadCount t.length, q = n + j ∧
      (∀ i < j, ∃ bs, quadOfText t i = .ok bs) ∧ quadOfText t j = .reject c
  | n, q, [], c, _, h => nomatch h
  | n, q, c0 :: c1 :: c2 :: c3 :: rest, c, hlen, h => by
    have hrest : rest.length % 4 = 0 := by simp only [List.length_cons] at hlen; omega
    rw [quadCount_cons]
    rcases decodeQuads_error_iff.1 h with ⟨hq, rfl⟩ | ⟨bs, hq, hnext⟩
    · exact ⟨0, Nat.succ_pos _, rfl, nofun, (quadOfText_zero hrest).trans hq⟩
    · obtain ⟨j, hj, rfl, hok, hrej⟩ := decodeQuads_error hrest hnext
      refine ⟨j + 1, Nat.succ_lt_succ hj, by omega, fun i hi => ?_, (quadOfText_succ hj).trans hrej⟩
      cases i with
      | zero => exact ⟨bs, (quadOfText_zero hrest).trans hq⟩
      | succ i =>
        rw [quadOfText_succ (by omega)]
        exact hok i (by omega)
  | _, _, [_], _, hlen, _ | _, _, [_, _], _, hlen, _ | _, _, [_, _, _], _, hlen, _ => nomatch hlen

theorem b64Decode_badLen {t : List Byte} (h : t.length % 4 ≠ 0) :
    b64Decode t = .formatError .badLen 0 := if_pos h

theorem b64Decode_of_length {t : List Byte} (h : t.length % 4 = 0) :
    b64Decode t = decodeQuads 0 t := if_neg (not_not.2 h)

/-- An accepted text has quads only, and each gives its bytes. -/
theorem b64Decode_bytes {t b : List Byte} (h : b64Decode t = .bytes b) :
    t.length % 4 = 0 ∧ b.length ≤ 3 * quadCount t.length ∧
      ∀ q < quadCount t.length, quadOfText t q = .ok ((b.drop (3 * q)).take 3) := by
  by_cases hlen : t.length % 4 = 0
  · rw [b64Decode_of_length hlen] at h
    exact ⟨hlen, decodeQuads_bytes hlen h⟩
  · rw [b64Decode_badLen hlen] at h
    cases h

/-- A text of quads only is rejected at its first rejected quad, with that quad's cause. -/
theorem b64Decode_error {t : List Byte} {c : Cause} {q : Nat} (hlen : t.length % 4 = 0)
    (h : b64Decode t = .formatError c q) : q < quadCount t.length ∧
      (∀ i < q, ∃ bs, quadOfText t i = .ok bs) ∧ quadOfText t q = .reject c := by
  rw [b64Decode_of_length hlen] at h
  obtain ⟨j, hj, rfl, hok, hrej⟩ := decodeQuads_error hlen h
  rw [Nat.zero_add]
  exact ⟨hj, hok, hrej⟩

theorem quadOfText_reject_cause {t : List Byte} {q : Nat} {c : Cause}
    (h : quadOfText t q = .reject c) : c ≠ .badLen := (decQuad_reject_cause h).2

end Sys2Proof.Machine

namespace Sys2Proof.Machine

/-! ## DEC's turns on a text -/

/-- How many turns DEC takes on a text (42_sequencer_and_host.md R212, R218). -/
def decodeTurns (t : List Byte) : Nat :=
  match b64Decode t with
  | .bytes _ => 2 * quadCount t.length + 3
  | .formatError c q => if c = .badLen then 1 else q + 2

theorem decodeTurns_badLen {t : List Byte} (h : t.length % 4 ≠ 0) : decodeTurns t = 1 := by
  rw [decodeTurns, b64Decode_badLen h]
  rfl

theorem decodeTurns_bytes {t b : List Byte} (h : b64Decode t = .bytes b) :
    decodeTurns t = 2 * quadCount t.length + 3 := by
  rw [decodeTurns, h]

theorem decodeTurns_error {t : List Byte} {c : Cause} {q : Nat} (hlen : t.length % 4 = 0)
    (h : b64Decode t = .formatError c q) : decodeTurns t = q + 2 := by
  obtain ⟨-, -, hrej⟩ := b64Decode_error hlen h
  rw [decodeTurns, h]
  exact if_neg (quadOfText_reject_cause hrej)

/-- What holds of DEC all through an operation, with `d0` as it stood at START. -/
structure DecRunning (d0 d : DecUnit) : Prop where
  busy : d.st = .busy
  ibuf : d.ibuf = d0.ibuf
  ilen : d.ilen = d0.ilen
  err : d.err = false
  cause : d.cause = .none

/-- DEC working on text `m`, with `d0` as it stood at START, `n` turns from the end
(42_sequencer_and_host.md R195 to R199). -/
inductive DecProgress (d0 : DecUnit) (m : List Byte) : Nat → DecUnit → Prop where
  | lenchk {n : Nat} {d : DecUnit} : DecRunning d0 d → d.phase = .lenchk → d.gp = 0 → d.olen = 0 →
      d.obuf = d0.obuf → n + 1 = decodeTurns m → DecProgress d0 m (n + 1) d
  | validate {n : Nat} {d : DecUnit} : DecRunning d0 d → d.phase = .validate → m.length % 4 = 0 →
      d.gp ≤ quadCount m.length → d.olen = 0 → d.obuf = d0.obuf → d.gp + n + 2 = decodeTurns m →
      DecProgress d0 m (n + 1) d
  | decode {n : Nat} {d : DecUnit} {b : List Byte} : DecRunning d0 d → d.phase = .decode →
      b64Decode m = .bytes b → d.gp + n = quadCount m.length → d.olen = min (3 * d.gp) b.length →
      WrittenUpTo d0.obuf b d.olen d.obuf → DecProgress d0 m (n + 1) d
  | decoded {d : DecUnit} {b : List Byte} : b64Decode m = .bytes b → d.st = .done →
      d.ibuf = d0.ibuf → d.ilen = d0.ilen → d.err = false → d.cause = .none →
      d.olen = b.length → d.gp = quadCount m.length → WrittenUpTo d0.obuf b d.olen d.obuf →
      DecProgress d0 m 0 d
  | raised {d : DecUnit} {c : Cause} {q : Nat} : b64Decode m = .formatError c q → d.st = .done →
      d.ibuf = d0.ibuf → d.ilen = d0.ilen → d.err = true → d.cause = c → d.olen = 0 → d.gp = q →
      d.obuf = d0.obuf → DecProgress d0 m 0 d

theorem DecProgress.busy {d0 d : DecUnit} {m : List Byte} {n : Nat}
    (h : DecProgress d0 m (n + 1) d) : d.st = .busy := by
  cases h with
  | lenchk hrun | validate hrun | decode hrun => exact hrun.busy

theorem decodeTurns_pos (m : List Byte) : 0 < decodeTurns m := by
  unfold decodeTurns
  split
  · exact Nat.succ_pos _
  · split <;> exact Nat.succ_pos _

theorem DecProgress.start (d : DecUnit) (m : List Byte) :
    DecProgress d m (decodeTurns m) { d with
      olen := 0, gp := 0, err := false, cause := .none, phase := .lenchk, st := .busy } := by
  obtain ⟨n, hn⟩ := Nat.exists_eq_add_one.2 (decodeTurns_pos m)
  rw [hn]
  exact .lenchk ⟨rfl, rfl, rfl, rfl, rfl⟩ rfl rfl rfl rfl hn.symm

/-- DecQuad of the cells of DEC's quad is DecQuad of that quad of the text. -/
theorem decQuad_of_message {d : DecUnit} {m : List Byte} {c0 c1 c2 c3 : Byte}
    (hm : messageIs d.ibuf d.ilen m) (hg : d.gp < quadCount d.ilen)
    (hr : d.ibuf.readCells (4 * d.gp) 4 = .ok [c0, c1, c2, c3]) :
    decQuad (decide (d.gp = quadCount d.ilen - 1)) c0 c1 c2 c3 = quadOfText m d.gp := by
  have hquad := hm.slice hr (by unfold quadCount at hg; omega)
  have hchar : ∀ i < 4, m.getD (4 * d.gp + i) 0 = [c0, c1, c2, c3].getD i 0 := fun i hi => by
    rw [hquad]
    simp [List.getD_eq_getElem?_getD, List.getElem?_drop, hi]
  rw [quadOfText, hm.length, hchar 1 (by decide), hchar 2 (by decide), hchar 3 (by decide)]
  have h0 := hchar 0 (by decide)
  rw [Nat.add_zero] at h0
  rw [h0]
  rfl

section
variable {d0 d d' : DecUnit} {m : List Byte} {n : Nat} (hrun : DecRunning d0 d)
include hrun

/-- DEC.LCHK ends an operation on a bad length and else begins validating. -/
theorem DecProgress.lenchk_move (hm : messageIs d0.ibuf d0.ilen m) (hp : d.phase = .lenchk)
    (hg : d.gp = 0) (ho : d.olen = 0) (hobuf : d.obuf = d0.obuf) (hn : n + 1 = decodeTurns m)
    (hmove : DecMove d d') : DecProgress d0 m n d' := by
  cases hmove with
  | rest hb => exact absurd hrun.busy hb
  | badLen _ _ hlen =>
    rw [hrun.ilen, ← hm.length] at hlen
    obtain rfl : n = 0 := by rw [decodeTurns_badLen hlen] at hn; omega
    exact .raised (b64Decode_badLen hlen) rfl hrun.ibuf hrun.ilen rfl rfl rfl hg hobuf
  | lengthOk _ _ hlen =>
    rw [hrun.ilen, ← hm.length] at hlen
    have hturns : 2 ≤ decodeTurns m := by
      cases hres : b64Decode m with
      | bytes b => rw [decodeTurns_bytes hres]; omega
      | formatError c q => rw [decodeTurns_error hlen hres]; omega
    obtain ⟨k, rfl⟩ : ∃ k, n = k + 1 := Nat.exists_eq_add_one.2 (by omega)
    exact .validate { hrun with } rfl hlen (by show d.gp ≤ _; omega) ho hobuf
      (by show d.gp + k + 2 = _; omega)
  | accept _ _ _ _ _ _ hp' | reject _ _ _ _ _ _ hp' | validated _ hp' | write _ _ _ _ _ _ hp'
  | decoded _ hp' => exact nomatch hp.symm.trans hp'

/-- DEC.VSTEP moves to the next quad or ends the operation at the first rejected one; DEC.VEND
begins decoding a text without rejected quads. -/
theorem DecProgress.validate_move (hm : messageIs d.ibuf d.ilen m) (hp : d.phase = .validate)
    (hlen : m.length % 4 = 0) (hg : d.gp ≤ quadCount m.length) (ho : d.olen = 0)
    (hobuf : d.obuf = d0.obuf) (hn : d.gp + n + 2 = decodeTurns m) (hmove : DecMove d d') :
    DecProgress d0 m n d' := by
  cases hmove with
  | rest hb => exact absurd hrun.busy hb
  | accept c0 c1 c2 c3 bs _ _ hlt hr hq =>
    rw [decQuad_of_message hm hlt hr] at hq
    have hnext : 0 < n := by
      cases hres : b64Decode m with
      | bytes b => rw [decodeTurns_bytes hres] at hn; omega
      | formatError c q =>
        obtain ⟨-, -, hrej⟩ := b64Decode_error hlen hres
        rw [decodeTurns_error hlen hres] at hn
        have hne : d.gp ≠ q := fun hgp => by
          rw [hgp, hrej] at hq
          cases hq
        omega
    obtain ⟨k, rfl⟩ := Nat.exists_eq_add_one.2 hnext
    rw [← hm.length] at hlt
    exact .validate { hrun with } hp hlen hlt ho hobuf (by show d.gp + 1 + k + 2 = _; omega)
  | reject c0 c1 c2 c3 c _ _ hlt hr hq =>
    rw [decQuad_of_message hm hlt hr] at hq
    rw [← hm.length] at hlt
    cases hres : b64Decode m with
    | bytes b => exact nomatch hq.symm.trans ((b64Decode_bytes hres).2.2 d.gp hlt)
    | formatError c' q =>
      obtain ⟨-, hok, hrej⟩ := b64Decode_error hlen hres
      rw [decodeTurns_error hlen hres] at hn
      have hge : ¬ d.gp < q := fun h => by
        obtain ⟨bs, hbs⟩ := hok d.gp h
        exact nomatch hq.symm.trans hbs
      obtain ⟨rfl, hgp⟩ : n = 0 ∧ d.gp = q := by omega
      rw [← hgp] at hres hrej
      cases hq.symm.trans hrej
      exact .raised hres rfl hrun.ibuf hrun.ilen rfl rfl rfl rfl hobuf
  | validated _ _ hge =>
    rw [← hm.length] at hge
    cases hres : b64Decode m with
    | bytes b =>
      rw [decodeTurns_bytes hres] at hn
      obtain ⟨k, rfl⟩ : ∃ k, n = k + 1 := Nat.exists_eq_add_one.2 (by omega)
      refine .decode (b := b) { hrun with } rfl hres (by show 0 + k = _; omega) ?_ ?_
      · exact ho.trans (by simp)
      · show WrittenUpTo d0.obuf b d.olen d.obuf
        rw [ho, hobuf]
        exact writtenUpTo_zero _ _
    | formatError c q =>
      obtain ⟨hlt, -, -⟩ := b64Decode_error hlen hres
      rw [decodeTurns_error hlen hres] at hn
      omega
  | badLen _ hp' | lengthOk _ hp' | write _ _ _ _ _ _ hp' | decoded _ hp' =>
    exact nomatch hp.symm.trans hp'

/-- DEC.DSTEP writes the next bytes; DEC.DEND ends the operation. -/
theorem DecProgress.decode_move {b : List Byte} (hm : messageIs d.ibuf d.ilen m)
    (hp : d.phase = .decode) (hres : b64Decode m = .bytes b) (hn : d.gp + n = quadCount m.length)
    (ho : d.olen = min (3 * d.gp) b.length) (hw : WrittenUpTo d0.obuf b d.olen d.obuf)
    (hmove : DecMove d d') : DecProgress d0 m n d' := by
  obtain ⟨-, hle, hquads⟩ := b64Decode_bytes hres
  cases hmove with
  | rest hb => exact absurd hrun.busy hb
  | write c0 c1 c2 c3 bs _ _ hlt hr hq =>
    obtain ⟨hpos, -, -⟩ := decQuad_ok_length hq
    rw [decQuad_of_message hm hlt hr] at hq
    rw [← hm.length] at hlt
    have hbs : bs = (b.drop (3 * d.gp)).take 3 :=
      QuadResult.ok.inj (hq.symm.trans (hquads d.gp hlt))
    have hlen : bs.length = min 3 (b.length - 3 * d.gp) := by
      rw [hbs, List.length_take, List.length_drop]
    obtain ⟨k, rfl⟩ : ∃ k, n = k + 1 := Nat.exists_eq_add_one.2 (by omega)
    have holen : d.olen = 3 * d.gp := by omega
    rw [holen] at hw
    exact .decode { hrun with } hp hres (by show d.gp + 1 + k = _; omega)
      (by show 3 * d.gp + bs.length = min (3 * (d.gp + 1)) _; omega)
      (hw.writeCells (hbs ▸ List.take_prefix _ _))
  | decoded _ _ hge =>
    rw [← hm.length] at hge
    obtain rfl : n = 0 := by omega
    exact .decoded hres rfl hrun.ibuf hrun.ilen hrun.err hrun.cause
      (by show d.olen = _; omega) hn hw
  | badLen _ hp' | lengthOk _ hp' | accept _ _ _ _ _ _ hp' | reject _ _ _ _ _ _ hp'
  | validated _ hp' => exact nomatch hp.symm.trans hp'

end

theorem DecProgress.move {d0 d d' : DecUnit} {m : List Byte} {n : Nat}
    (hm : messageIs d0.ibuf d0.ilen m) (h : DecProgress d0 m (n + 1) d) (hmove : DecMove d d') :
    DecProgress d0 m n d' := by
  have input : DecRunning d0 d → messageIs d.ibuf d.ilen m := fun hrun => by
    rwa [hrun.ibuf, hrun.ilen]
  cases h with
  | lenchk hrun hp hg ho hobuf hn => exact lenchk_move hrun hm hp hg ho hobuf hn hmove
  | validate hrun hp hlen hg ho hobuf hn =>
    exact validate_move hrun (input hrun) hp hlen hg ho hobuf hn hmove
  | decode hrun hp hres hn ho hw => exact decode_move hrun (input hrun) hp hres hn ho hw hmove

/-- Settles O57: START begins the operation, `run_progress` takes it through the interleaving. -/
theorem decodeUnderAnyInterleaving : Obligations.DecodeUnderAnyInterleaving := by
  intro s t m w es rest hr hb hm hw hes hcount hi h
  obtain ⟨u, hu, hrun⟩ := run_succ_iff.1 h
  cases hu.symm.trans (step_decStart hr hb hw hi)
  have hturns : es.count .decTurn + 1 = decodeTurns m := by
    cases hres : b64Decode m with
    | bytes b =>
      rw [hres] at hcount
      rw [decodeTurns_bytes hres, quadCount, hm.length]
      exact hcount
    | formatError c q =>
      rw [hres] at hcount
      rw [decodeTurns, hres]
      exact hcount
  have hend : DecProgress s.dec m 0 t.dec :=
    run_progress (proj := State.dec) (Move := DecMove)
      (fun h hi he hp => step_seen_by_busy_dec h hi he hp.busy) (DecProgress.move hm) nofun hes rfl
      (hturns ▸ DecProgress.start s.dec m) hrun
  cases hend with
  | decoded hres hdone hibuf hilen herr hcause holen hgp hout =>
    rw [hres]
    refine ⟨hdone, hibuf, hilen, herr, hcause, holen, ?_, fun i hlt => ?_, fun i hge => ?_⟩
    · rw [hgp, quadCount, hm.length]
    · rw [hout i, if_pos (holen ▸ hlt)]
    · rw [hout i, if_neg (by omega)]
  | raised hres hdone hibuf hilen herr hcause holen hgp hobuf =>
    rw [hres]
    exact ⟨hdone, hibuf, hilen, herr, hcause, holen, hgp, hobuf⟩

end Sys2Proof.Machine

namespace Sys2Proof.Machine

/-! # Host transactions and what they leave alone -/

/-! ## The unit a transaction does not address, and reads -/

section
variable {lenw : Nat} {i : Instr}

theorem EncByHost.eq_of_unit {e e' : EncUnit} (h : EncByHost lenw e i e') (hu : i.unit = .dec) :
    e' = e := by
  cases h with
  | same => rfl
  | start | ilen | ibuf => exact nomatch hu

theorem EncByHost.eq_of_isRead {e e' : EncUnit} (h : EncByHost lenw e i e')
    (hr : i.isRead = true) : e' = e := by
  cases h with
  | same => rfl
  | start | ilen | ibuf => exact nomatch hr

theorem DecByHost.eq_of_unit {d d' : DecUnit} (h : DecByHost lenw d i d') (hu : i.unit = .enc) :
    d' = d := by
  cases h with
  | same => rfl
  | start | ilen | ibuf => exact nomatch hu

theorem DecByHost.eq_of_isRead {d d' : DecUnit} (h : DecByHost lenw d i d')
    (hr : i.isRead = true) : d' = d := by
  cases h with
  | same => rfl
  | start | ilen | ibuf => exact nomatch hr

end

/-! ## Which transactions return a value (42_sequencer_and_host.md R200) -/

section
variable (u : UnitId) (s : State)

@[simp] theorem writeUnlessBusy_resp (f : State → State) : (writeUnlessBusy u f s).resp = none := by
  unfold writeUnlessBusy
  split <;> rfl

@[simp] theorem answerUnlessBusy_resp_isSome (v : HostWord) :
    (answerUnlessBusy u v s).resp.isSome = true := by
  unfold answerUnlessBusy
  split <;> rfl

@[simp] theorem answerCell_resp_isSome (m : Memory) (a : Nat) :
    (answerCell u m a s).resp.isSome = true := by
  unfold answerCell
  split
  · exact answerUnlessBusy_resp_isSome u s _
  · rfl

@[simp] theorem reserved_resp_isSome (isWrite : Bool) :
    (reserved isWrite s).resp.isSome = !isWrite := by
  cases isWrite <;> rfl

end

theorem exec_resp_isSome {i : Instr} {s t : State} (hi : i.isTransaction = true)
    (h : exec i s = .next t) : t.resp.isSome = i.isRead := by
  cases i with
  | encStart | decStart | wrIlen => cases h; exact congrArg _ (writeUnlessBusy_resp _ s _)
  | ctrlNop | rdCtrl | rdStatus | rdIlen => cases h; rfl
  | rdOlen | rdGp => cases h; exact answerUnlessBusy_resp_isSome _ s _
  | wrIbuf u a v =>
    cases (execWrIbuf_eq u a v s).symm.trans h
    split
    · exact congrArg _ (writeUnlessBusy_resp u s _)
    · exact reserved_resp_isSome s true
  | rdIbuf u a =>
    cases (execRdIbuf_eq u a s).symm.trans h
    split
    · exact answerCell_resp_isSome u s _ _
    · exact reserved_resp_isSome s false
  | rdObuf u a =>
    cases (execRdObuf_eq u a s).symm.trans h
    split
    · exact answerCell_resp_isSome u s _ _
    · exact reserved_resp_isSome s false
  | htRsvd w =>
    have bit : ∀ b : BitVec 1, (!decide (b = 1)) = decide (b = 0) := by decide
    cases h
    exact (reserved_resp_isSome s _).trans (bit _)
  | encG3 | encG2 | encG1 | decQ4 | decQ3 | decQ2 | decRej => exact Bool.noConfusion hi

/-! ## The statements about transactions -/

/-- Settles O15: `exec_transaction` gives the next state and its frame; the other unit is unseen by
the transaction, so replacing it passes through. -/
theorem transactionsNeverFail : Obligations.TransactionsNeverFail := by
  intro i s hi
  obtain ⟨t, ht, hlenw, hready, hinbox, he, hd⟩ := exec_transaction i s hi
  refine ⟨t, ht, by rw [exec_resp_isSome hi ht], fun hr => ?_, hlenw, hready, hinbox,
    fun hu => ⟨hd.eq_of_unit hu, fun d => ⟨t.withDec d, ?_, rfl, rfl⟩⟩,
    fun hu => ⟨he.eq_of_unit hu, fun e => ⟨t.withEnc e, ?_, rfl, rfl⟩⟩⟩
  · exact ⟨hlenw, hready, he.eq_of_isRead hr, hd.eq_of_isRead hr, hinbox⟩
  · rw [(unseen_withDec d).exec s hi hu, ht]; rfl
  · rw [(unseen_withEnc e).exec s hi hu, ht]; rfl

/-- Settles O24: the BUSY unit ignores the transaction, the other is not addressed. -/
theorem busyUnitIsLockedOut : Obligations.BusyUnitIsLockedOut := by
  intro i s hi hb
  obtain ⟨t, ht, hlenw, hready, hinbox, he, hd⟩ := exec_transaction i s hi
  cases hu : i.unit with
  | enc =>
    rw [hu] at hb
    exact ⟨t, ht, hlenw, hready, he.eq_of_busy hb, hd.eq_of_unit hu, hinbox⟩
  | dec =>
    rw [hu] at hb
    exact ⟨t, ht, hlenw, hready, he.eq_of_unit hu, hd.eq_of_busy hb, hinbox⟩

@[simp] theorem ibufOf_ackWrite (u : UnitId) (s : State) :
    ibufOf u (ackWrite s) = ibufOf u s := by
  cases u <;> rfl

@[simp] theorem ibufOf_setIbuf (u : UnitId) (m : Memory) (s : State) :
    ibufOf u (setIbuf u m s) = m := by
  cases u <;> rfl

theorem Memory.write_sameOutside (m : Memory) (a : Nat) (v : Byte) :
    sameOutside a 1 m (m.write a v) := fun _ h => Memory.read_write_other m v (by omega)

section
variable {u : UnitId} {a : BitVec 28} {s : State}

/-- WR.IBUF ignored: BUSY (20_memory.md R76) or out of range (R71). -/
theorem execWrIbuf_ignored (v : HostWord) (h : stOf u s = .busy ∨ ibufCells s.lenw u ≤ a.toNat) :
    execWrIbuf u a v s = .next (ackWrite s) := by
  rw [execWrIbuf_eq]
  split
  · next ha => rw [writeUnlessBusy_of_busy (h.resolve_right (Nat.not_le.2 ha))]
  · rfl

/-- WR.IBUF accepted (42_sequencer_and_host.md R205). -/
theorem execWrIbuf_accepted (v : HostWord) (hb : stOf u s ≠ .busy)
    (ha : a.toNat < ibufCells s.lenw u) : execWrIbuf u a v s =
      .next (ackWrite (setIbuf u ((ibufOf u s).write a.toNat (v.extractLsb' 0 8)) s)) := by
  rw [execWrIbuf_eq, if_pos ha, writeUnlessBusy_of_not_busy hb]

end

/-- Settles O23: the write is ignored, or it is `Memory.write` of the low byte at cell `a`. -/
theorem writeIbufStoresOneCell : Obligations.WriteIbufStoresOneCell := by
  intro u a v s
  refine ⟨execWrIbuf_ignored v, fun hb ha => ⟨_, execWrIbuf_accepted v hb ha, ?_⟩⟩
  have low : v.extractLsb' 0 8 = BitVec.ofNat 8 (v.toNat % 256) :=
    BitVec.eq_of_toNat_eq (by simp)
  rw [ibufOf_ackWrite, ibufOf_setIbuf, Memory.read_write_same, low]
  exact ⟨rfl, rfl, Memory.write_sameOutside _ _ _⟩

end Sys2Proof.Machine

namespace Sys2Proof.Machine

/-! # The turns that map a group or a quad -/

/-- `MemRead` after `MemWrite` of the same cells gives the values written. -/
theorem Memory.readCells_writeCells (m : Memory) (a : Nat) (bs : List Byte) :
    (m.writeCells a bs).readCells a bs.length = .ok bs :=
  Memory.readCells_eq_ok_iff.2 ⟨rfl, fun _ h => Memory.read_writeCells_inside m a bs h⟩

/-! ## ENC -/

/-- A turn of ENC with a group to do is the group operation on its cells' bytes, CNT and GRP loaded
(42_sequencer_and_host.md R193). -/
theorem encTurn_finishGroup {s : State} {bs : List Byte} (hb : s.enc.st = .busy)
    (hg : s.enc.gp < groupCount s.enc.ilen)
    (hr : s.enc.ibuf.readCells (3 * s.enc.gp) (groupSize s.enc.ilen s.enc.gp) = .ok bs) :
    encTurn runWord s = finishGroup (encGroup bs) (s.withEnc (encLatched s.enc bs)) := by
  have hpre : encStepPre (s.withEnc (encLatched s.enc bs)).enc := ⟨hb, hg⟩
  rw [encTurn_group hb hg hr, finishGroup_of_pre hpre]
  rfl

/-- The same of the step that takes the turn from the list. -/
theorem step_finishGroup {s : State} {es : List Event} {bs : List Byte} (hs : s.ready = true)
    (hi : s.inbox = .encTurn :: es) (hb : s.enc.st = .busy) (hg : s.enc.gp < groupCount s.enc.ilen)
    (hr : s.enc.ibuf.readCells (3 * s.enc.gp) (groupSize s.enc.ilen s.enc.gp) = .ok bs) :
    step s = finishGroup (encGroup bs) ((s.withInbox es).withEnc (encLatched s.enc bs)) := by
  rw [step_encTurn hs ((encTurnNext_cons hi).2 rfl), hi]
  exact encTurn_finishGroup (s := s.withInbox es) hb hg hr

/-- Settles O34: `groupSize` is the number of bytes read, and `encGroup` of so many is the
operation's own characters. -/
theorem encTurnRunsTheGroupOperation : Obligations.EncTurnRunsTheGroupOperation := by
  intro s es hs hi hb hg
  refine ⟨fun b0 b1 b2 hn hr => ?_, fun b0 b1 hn hr => ?_, fun b0 hn hr => ?_⟩
  · have hsize : groupSize s.enc.ilen s.enc.gp = 3 := Nat.min_eq_left hn
    exact step_finishGroup (bs := [b0, b1, b2]) hs hi hb hg (by rwa [hsize])
  · have hsize : groupSize s.enc.ilen s.enc.gp = 2 := congrArg (min 3) hn
    exact step_finishGroup (bs := [b0, b1]) hs hi hb hg (by rwa [hsize])
  · have hsize : groupSize s.enc.ilen s.enc.gp = 1 := congrArg (min 3) hn
    exact step_finishGroup (bs := [b0]) hs hi hb hg (by rwa [hsize])

theorem toNat_append_byte {n : Nat} (x : BitVec n) (b : Byte) :
    (x ++ b).toNat = x.toNat * 2 ^ 8 + b.toNat := by
  rw [BitVec.toNat_append, ← Nat.shiftLeft_add_eq_or_of_lt b.isLt, Nat.shiftLeft_eq]

/-- G24 of a group of one to three bytes as a number (30_encoding.md R90, R91). -/
theorem assembleGroup_toNat {bs : List Byte} (h : bs.length ≤ 3) :
    (assembleGroup bs).toNat =
      (bs.getD 0 0).toNat * 2 ^ 16 + (bs.getD 1 0).toNat * 2 ^ 8 + (bs.getD 2 0).toNat := by
  match bs, h with
  | [], _ => rfl
  | [_], _ | [_, _], _ | [_, _, _], _ =>
    simp only [assembleGroup, toNat_append_byte, List.getD_cons_zero, List.getD_cons_succ,
      List.getD_nil]
    omega

/-- Settles O36: the turn is the group operation, whose next state is `encStepped`. -/
theorem encStepEncodesOneGroup : Obligations.EncStepEncodesOneGroup := by
  intro s es bs hs hi hb hg hr
  have hlen : bs.length ≤ 3 := by
    rw [(Memory.readCells_eq_ok_iff.1 hr).1]
    exact Nat.min_le_left _ _
  have hchars : (encGroup bs).length = 4 := encGroup_length (group_ne_nil hg hr)
  have hpre : encStepPre ((s.withInbox es).withEnc (encLatched s.enc bs)).enc := ⟨hb, hg⟩
  refine ⟨_, (step_finishGroup hs hi hb hg hr).trans (finishGroup_of_pre hpre _), rfl, ?_,
    assembleGroup_toNat hlen, ?_, ?_⟩
  · exact Nat.mod_eq_of_lt (Nat.lt_succ_of_le hlen)
  · exact hchars ▸ Memory.readCells_writeCells s.enc.obuf (4 * s.enc.gp) (encGroup bs)
  · exact hchars ▸ Memory.writeCells_sameOutside s.enc.obuf (4 * s.enc.gp) (encGroup bs)

/-! ## DEC -/

/-- The step that takes a turn of DEC with a quad to do from the list is the quad operation on its
cells' characters, QUAD, FIN and KLS loaded (42_sequencer_and_host.md R196, R197). -/
theorem step_finishQuad {s : State} {es : List Event} {c0 c1 c2 c3 : Byte} (hs : s.ready = true)
    (hi : s.inbox = .decTurn :: es) (hb : s.dec.st = .busy) (hp : s.dec.phase ≠ .lenchk)
    (hg : s.dec.gp < quadCount s.dec.ilen)
    (hr : s.dec.ibuf.readCells (4 * s.dec.gp) 4 = .ok [c0, c1, c2, c3]) :
    step s = finishQuad (decQuad (decide (s.dec.gp = quadCount s.dec.ilen - 1)) c0 c1 c2 c3)
      ((s.withInbox es).withDec (decLatched s.dec c0 c1 c2 c3)) := by
  rw [step_decTurn hs ((decTurnNext_cons hi).2 rfl), hi]
  exact (decTurn_quad (s := s.withInbox es) hb hp hg).trans (decQuadStep_eq _ c0 c1 c2 c3 hr)

/-- Settles O38: the turn is the quad operation, which writes the bytes DecQuad answers. -/
theorem decodeStepWritesTheBytes : Obligations.DecodeStepWritesTheBytes := by
  intro s es c0 c1 c2 c3 bs hs hi hb hp hg hr hq
  obtain ⟨hpos, hle, hfull⟩ := decQuad_ok_length hq
  have hpre : decStepPre ((s.withInbox es).withDec (decLatched s.dec c0 c1 c2 c3)).dec :=
    ⟨hb, by simp [decLatched, hp], hg⟩
  have hstep := (step_finishQuad hs hi hb (by simp [hp]) hg hr).trans
    ((finishQuad_decode hpre hp _).trans (congrArg (finishDecode · _) hq))
  refine ⟨hpos, hle, fun hlt => ?_, _, hstep, rfl, rfl, rfl, rfl, ?_, ?_⟩
  · by_contra hne
    exact hlt.ne (hfull (decide_eq_false hne))
  · exact Memory.readCells_writeCells s.dec.obuf (3 * s.dec.gp) bs
  · exact Memory.writeCells_sameOutside s.dec.obuf (3 * s.dec.gp) bs

end Sys2Proof.Machine

namespace Sys2Proof.Machine

/-! # A result stands (20_memory.md R75) -/

theorem EncByHost.output_of_ne_start {lenw : Nat} {e e' : EncUnit} {i : Instr}
    (h : EncByHost lenw e i e') (hi : i ≠ .encStart) :
    e'.st = e.st ∧ e'.olen = e.olen ∧ e'.gp = e.gp ∧ e'.obuf = e.obuf := by
  cases h with
  | start => exact absurd rfl hi
  | same | ilen | ibuf => exact ⟨rfl, rfl, rfl, rfl⟩

theorem DecByHost.output_of_ne_start {lenw : Nat} {d d' : DecUnit} {i : Instr}
    (h : DecByHost lenw d i d') (hi : i ≠ .decStart) :
    d'.st = d.st ∧ d'.olen = d.olen ∧ d'.gp = d.gp ∧ d'.obuf = d.obuf ∧ d'.err = d.err ∧
      d'.cause = d.cause := by
  cases h with
  | start => exact absurd rfl hi
  | same | ilen | ibuf => exact ⟨rfl, rfl, rfl, rfl, rfl, rfl⟩

/-- A unit that is not BUSY takes no step (42_sequencer_and_host.md R190). -/
theorem EncMove.eq_of_not_busy {e e' : EncUnit} (h : EncMove e e') (hn : e.st ≠ .busy) :
    e' = e := by
  cases h with
  | rest => rfl
  | group _ hb | finish hb => exact absurd hb hn

/-- A unit that is not BUSY takes no step (42_sequencer_and_host.md R190). -/
theorem DecMove.eq_of_not_busy {d d' : DecUnit} (h : DecMove d d') (hn : d.st ≠ .busy) :
    d' = d := by
  cases h with
  | rest => rfl
  | badLen hb | lengthOk hb | accept _ _ _ _ _ hb | reject _ _ _ _ _ hb | validated hb
  | write _ _ _ _ _ hb | decoded hb => exact absurd hb hn

/-- Settles O51: of the effects of a step a transaction other than START leaves a unit's output
alone, and no turn moves a unit in DONE. -/
theorem resultStandsUntilTheNextStart : Obligations.ResultStandsUntilTheNextStart := by
  intro s t h hreset
  have effect := step_effect h
  refine ⟨fun hdone hstart => ?_, fun hdone hstart => ?_⟩
  · rw [← hdone]
    cases effect with
    | reset hh => exact absurd hh hreset
    | host w hh _ _ he => exact he.output_of_ne_start fun hi => hstart w hh (congrArg _ hi)
    | enc _ _ _ he => rw [he.eq_of_not_busy (by simp [hdone])]; exact ⟨rfl, rfl, rfl, rfl⟩
    | dec _ _ _ _ he => rw [he]; exact ⟨rfl, rfl, rfl, rfl⟩
  · rw [← hdone]
    cases effect with
    | reset hh => exact absurd hh hreset
    | host w hh _ _ _ hd => exact hd.output_of_ne_start fun hi => hstart w hh (congrArg _ hi)
    | enc _ _ _ _ hd => rw [hd]; exact ⟨rfl, rfl, rfl, rfl, rfl, rfl⟩
    | dec _ _ _ hd => rw [hd.eq_of_not_busy (by simp [hdone])]; exact ⟨rfl, rfl, rfl, rfl, rfl, rfl⟩

end Sys2Proof.Machine

namespace Sys2Proof

/-! # Words and instructions (30_encoding.md R97 to R100) -/

/-! ## Host transactions -/

/-- The row of the opcode table a host word belongs to, read from its fields (30_encoding.md R99,
R100): one constructor per row, with what the row asks of the word. -/
inductive HtwRow (lenw : Nat) (w : BitVec 64) : Instr → Prop
  | encStart : htwRw w = 1 → htwUnit w = 0 → htwSpace w = 0 → htwAddr w = 0 →
      (htwData w).getLsbD 0 = true → HtwRow lenw w .encStart
  | decStart : htwRw w = 1 → htwUnit w = 1 → htwSpace w = 0 → htwAddr w = 0 →
      (htwData w).getLsbD 0 = true → HtwRow lenw w .decStart
  | ctrlNop : htwRw w = 1 → htwSpace w = 0 → htwAddr w = 0 → (htwData w).getLsbD 0 = false →
      HtwRow lenw w (.ctrlNop (unitOfBit (htwUnit w)))
  | wrIlen : htwRw w = 1 → htwSpace w = 0 → htwAddr w = 2 →
      HtwRow lenw w (.wrIlen (unitOfBit (htwUnit w)) (htwData w))
  | wrIbuf : htwRw w = 1 → htwSpace w = 1 →
      (htwAddr w).toNat < ibufCells lenw (unitOfBit (htwUnit w)) →
      HtwRow lenw w (.wrIbuf (unitOfBit (htwUnit w)) (htwAddr w) (htwData w))
  | rdCtrl : htwRw w = 0 → htwSpace w = 0 → htwAddr w = 0 →
      HtwRow lenw w (.rdCtrl (unitOfBit (htwUnit w)))
  | rdStatus : htwRw w = 0 → htwSpace w = 0 → htwAddr w = 1 →
      HtwRow lenw w (.rdStatus (unitOfBit (htwUnit w)))
  | rdIlen : htwRw w = 0 → htwSpace w = 0 → htwAddr w = 2 →
      HtwRow lenw w (.rdIlen (unitOfBit (htwUnit w)))
  | rdOlen : htwRw w = 0 → htwSpace w = 0 → htwAddr w = 3 →
      HtwRow lenw w (.rdOlen (unitOfBit (htwUnit w)))
  | rdGp : htwRw w = 0 → htwSpace w = 0 → htwAddr w = 4 →
      HtwRow lenw w (.rdGp (unitOfBit (htwUnit w)))
  | rdIbuf : htwRw w = 0 → htwSpace w = 1 →
      (htwAddr w).toNat < ibufCells lenw (unitOfBit (htwUnit w)) →
      HtwRow lenw w (.rdIbuf (unitOfBit (htwUnit w)) (htwAddr w))
  | rdObuf : htwRw w = 0 → htwSpace w = 2 → (htwAddr w).toNat < obufCells lenw →
      HtwRow lenw w (.rdObuf (unitOfBit (htwUnit w)) (htwAddr w))
  | htRsvd : reservedHtw lenw w = true → HtwRow lenw w (.htRsvd w)

theorem bit_eq_zero_of_ne_one {b : BitVec 1} (h : b ≠ 1) : b = 0 := by
  revert b; decide

theorem unitOfBit_eq_enc_iff {b : BitVec 1} : unitOfBit b = .enc ↔ b = 0 := by
  revert b; decide

theorem unitOfBit_eq_dec_iff {b : BitVec 1} : unitOfBit b = .dec ↔ b = 1 := by
  revert b; decide

theorem space_eq_two_or_three {x : BitVec 2} (h0 : x ≠ 0) (h1 : x ≠ 1) : x = 2 ∨ x = 3 := by
  revert x; decide

theorem decodeWrite_row {lenw : Nat} {w : BitVec 64} (hrw : htwRw w = 1) :
    HtwRow lenw w (decodeWrite lenw w) := by
  unfold decodeWrite
  split_ifs with hs h0 hd h2 hs1 ha
  · cases hu : unitOfBit (htwUnit w) with
    | enc => exact .encStart hrw (unitOfBit_eq_enc_iff.1 hu) hs h0 hd
    | dec => exact .decStart hrw (unitOfBit_eq_dec_iff.1 hu) hs h0 hd
  · exact .ctrlNop hrw hs h0 (Bool.eq_false_of_not_eq_true hd)
  · exact .wrIlen hrw hs h2
  · exact .htRsvd (by simp [reservedHtw, hs, hrw]; bv_omega)
  · exact .wrIbuf hrw hs1 ha
  · exact .htRsvd (by simp [reservedHtw, hs1, Nat.not_lt.1 ha])
  · rcases space_eq_two_or_three hs hs1 with h | h
    · exact .htRsvd (by simp [reservedHtw, h, hrw])
    · exact .htRsvd (by simp [reservedHtw, h])

theorem decodeRead_row {lenw : Nat} {w : BitVec 64} (hrw : htwRw w = 0) :
    HtwRow lenw w (decodeRead lenw w) := by
  unfold decodeRead
  split_ifs with hs h0 h1 h2 h3 h4 hs1 ha hs2 ha
  · exact .rdCtrl hrw hs h0
  · exact .rdStatus hrw hs h1
  · exact .rdIlen hrw hs h2
  · exact .rdOlen hrw hs h3
  · exact .rdGp hrw hs h4
  · exact .htRsvd (by simp [reservedHtw, hs, hrw]; bv_omega)
  · exact .rdIbuf hrw hs1 ha
  · exact .htRsvd (by simp [reservedHtw, hs1, Nat.not_lt.1 ha])
  · exact .rdObuf hrw hs2 ha
  · exact .htRsvd (by simp [reservedHtw, hs2, Nat.not_lt.1 ha])
  · exact .htRsvd (by simp [reservedHtw, (space_eq_two_or_three hs hs1).resolve_left hs2])

/-- Every host word belongs to the row of the instruction it decodes to. -/
theorem decodeHtw_row (lenw : Nat) (w : BitVec 64) : HtwRow lenw w (decodeHtw lenw w) := by
  unfold decodeHtw
  split_ifs with h
  · exact decodeWrite_row h
  · exact decodeRead_row (bit_eq_zero_of_ne_one h)

/-- A reserved word belongs to no row but HT.RSVD. -/
theorem HtwRow.eq_htRsvd {lenw : Nat} {w : BitVec 64} {i : Instr} (h : HtwRow lenw w i)
    (hw : reservedHtw lenw w = true) : i = .htRsvd w := by
  cases h with
  | htRsvd => rfl
  | wrIbuf _ _ ha | rdIbuf _ _ ha | rdObuf _ _ ha =>
    simp [reservedHtw, *] at hw
    omega
  | encStart | decStart | ctrlNop | wrIlen | rdCtrl | rdStatus | rdIlen | rdOlen | rdGp =>
    simp [reservedHtw, *] at hw

/-! ## Selector words -/

theorem mkQcw_eq_classWord (fin : Bool) (k0 k1 k2 k3 : Kls) :
    mkQcw fin k0 k1 k2 k3 = BitVec.ofBool fin ++ Machine.assembleKls k0 k1 k2 k3 := by
  apply BitVec.eq_of_toNat_eq
  simp only [mkQcw, Machine.assembleKls, BitVec.toNat_append, Nat.shiftLeft_or_distrib,
    ← Nat.shiftLeft_add, Nat.or_assoc]

theorem selectQuadOp_of_not_acceptedShape {fin : Bool} {k0 k1 k2 k3 : Kls}
    (h : acceptedShape fin k0 k1 k2 k3 = false) :
    selectQuadOp fin k0 k1 k2 k3 = .decRej fin k0 k1 k2 k3 := by
  unfold selectQuadOp
  split
  · simp [acceptedShape] at h
  · simp [acceptedShape] at h
  · simp [acceptedShape] at h
  · rfl

theorem decodeQcw_mkQcw (fin : Bool) (k0 k1 k2 k3 : Kls) :
    decodeQcw (mkQcw fin k0 k1 k2 k3) = .ok (selectQuadOp fin k0 k1 k2 k3) := by
  rw [mkQcw_eq_classWord, Machine.decodeQcw_classWord]

/-- Settles O2: the fields of an encoded word are the operands, and a reserved word belongs to no
row but HT.RSVD. -/
theorem decodeEncodeRoundTrip : Obligations.DecodeEncodeRoundTrip := by
  intro lenw i hwf
  cases i with
  | htRsvd w => exact congrArg _ ((decodeHtw_row lenw w).eq_htRsvd hwf)
  | encStart | decStart => rfl
  | ctrlNop | wrIlen | rdCtrl | rdStatus | rdIlen | rdOlen | rdGp =>
    simp [encode, decode, decodeHtw, decodeWrite, decodeRead]
  | wrIbuf | rdIbuf | rdObuf =>
    simp [encode, decode, decodeHtw, decodeWrite, decodeRead, of_decide_eq_true hwf]
  | encG3 | encG2 | encG1 => simp [encode, decode, decodeEgd]
  | decQ4 fin => exact decodeQcw_mkQcw fin .D .D .D .D
  | decQ3 | decQ2 => rfl
  | decRej fin k0 k1 k2 k3 =>
    refine (decodeQcw_mkQcw fin k0 k1 k2 k3).trans (congrArg _ ?_)
    exact selectQuadOp_of_not_acceptedShape (by simpa [Instr.WellFormed] using hwf)

/-! ## Every host word is a transaction -/

/-- What a host word and the instruction it decodes to share (30_encoding.md R99, R100). -/
structure SharesFields (w : BitVec 64) (i : Instr) : Prop where
  unit : i.unit = unitOfBit (htwUnit w)
  isRead : i.isRead = decide (htwRw w = 0)
  encode : ∃ v, encode i = .htw v ∧ htwRw v = htwRw w ∧ htwUnit v = htwUnit w ∧
    htwSpace v = htwSpace w ∧ htwAddr v = htwAddr w

theorem HtwRow.sharesFields {lenw : Nat} {w : BitVec 64} {i : Instr} (h : HtwRow lenw w i) :
    SharesFields w i := by
  cases h with
  | htRsvd => exact ⟨rfl, rfl, w, rfl, rfl, rfl, rfl, rfl⟩
  | encStart hrw hu hs ha | decStart hrw hu hs ha =>
    exact ⟨by rw [hu]; rfl, by rw [hrw]; rfl, _, rfl, by simp [*]⟩
  | ctrlNop hrw hs ha | wrIlen hrw hs ha | rdCtrl hrw hs ha | rdStatus hrw hs ha
  | rdIlen hrw hs ha | rdOlen hrw hs ha | rdGp hrw hs ha =>
    exact ⟨rfl, by rw [hrw]; rfl, _, rfl, by simp [*]⟩
  | wrIbuf hrw hs | rdIbuf hrw hs | rdObuf hrw hs =>
    exact ⟨rfl, by rw [hrw]; rfl, _, rfl, by simp [*]⟩

theorem HtwRow.wellFormed {lenw : Nat} {w : BitVec 64} {i : Instr} (h : HtwRow lenw w i) :
    i.WellFormed lenw = true := by
  cases h with
  | htRsvd h => exact h
  | wrIbuf _ _ ha | rdIbuf _ _ ha | rdObuf _ _ ha => exact decide_eq_true ha
  | encStart | decStart | ctrlNop | wrIlen | rdCtrl | rdStatus | rdIlen | rdOlen | rdGp => rfl

/-- A descriptor is reserved exactly if its count is 0 (30_encoding.md R97, R104). -/
theorem decodeEgd_reserved_iff {w : BitVec 26} :
    decodeEgd w = .error .groupCountZero ↔ w.extractLsb' 24 2 = 0 := by
  have nonzero : ∀ c : BitVec 2, c ≠ 3 → c ≠ 2 → c ≠ 1 → c = 0 := by decide
  simp only [decodeEgd]
  split_ifs with h3 h2 h1
  · simp [h3]
  · simp [h2]
  · simp [h1]
  · simpa using nonzero _ h3 h2 h1

theorem klsOfCode_eq_none_iff {k : BitVec 2} : klsOfCode k = none ↔ k = 3 := by
  revert k; decide

/-- A class word is reserved exactly if one of its codes is (30_encoding.md R98, R104). -/
theorem decodeQcw_reserved_iff {w : BitVec 9} :
    decodeQcw w = .error .classCodeReserved ↔ ∃ j < 4, w.extractLsb' (2 * j) 2 = 3 := by
  simp only [Nat.exists_lt_succ_right, Nat.not_lt_zero, false_and, exists_false, false_or,
    ← klsOfCode_eq_none_iff]
  unfold decodeQcw
  cases klsOfCode (w.extractLsb' 6 2) <;> cases klsOfCode (w.extractLsb' 4 2) <;>
    cases klsOfCode (w.extractLsb' 2 2) <;> cases klsOfCode (w.extractLsb' 0 2) <;> simp

/-- A field of a word as a number. -/
theorem toNat_extract {n : Nat} (w : BitVec n) (i k : Nat) :
    (w.extractLsb' i k).toNat = w.toNat / 2 ^ i % 2 ^ k := by
  rw [BitVec.extractLsb'_toNat, Nat.shiftRight_eq_div_pow]

theorem extractTwo_eq_iff {n : Nat} (w : BitVec n) (j : Nat) (x : BitVec 2) :
    w.extractLsb' j 2 = x ↔ w.toNat / 2 ^ j % 4 = x.toNat := by
  rw [← BitVec.toNat_inj, toNat_extract]
  rfl

/-- Settles O3: a host word shares its fields with the instruction of its row; a selector word is
refused for its count or one of its four codes. -/
theorem everyHostWordIsATransaction : Obligations.EveryHostWordIsATransaction := by
  intro lenw
  refine ⟨fun w => ?_, fun w => ?_, fun w => ?_⟩
  · have row := decodeHtw_row lenw w
    obtain ⟨hunit, hread, v, henc, hfields⟩ := row.sharesFields
    exact ⟨_, v, rfl, row.wellFormed, Machine.decodeHtw_isTransaction lenw w, hunit, hread, henc,
      hfields⟩
  · refine decodeEgd_reserved_iff.trans ((extractTwo_eq_iff w 24 0).trans ?_)
    rw [Nat.mod_eq_of_lt (by omega)]
    rfl
  · refine decodeQcw_reserved_iff.trans (exists_congr fun j => and_congr_right fun _ => ?_)
    rw [extractTwo_eq_iff, Nat.pow_mul]
    rfl

/-! ## The opcode table in the fields of a word -/

theorem mkHtw_fields (w : BitVec 64) :
    mkHtw (htwRw w) (htwUnit w) (htwSpace w) (htwAddr w) (htwData w) = w := by
  apply BitVec.eq_of_getLsbD_eq
  intro i hi
  simp only [mkHtw, htwRw, htwUnit, htwSpace, htwAddr, htwData, BitVec.getLsbD_append,
    BitVec.getLsbD_extractLsb']
  grind

theorem mkHtw_inj {rw rw' unit unit' : BitVec 1} {space space' : BitVec 2} {addr addr' : BitVec 28}
    {data data' : BitVec 32} :
    mkHtw rw unit space addr data = mkHtw rw' unit' space' addr' data' ↔
      rw = rw' ∧ unit = unit' ∧ space = space' ∧ addr = addr' ∧ data = data' := by
  constructor
  · intro h
    exact ⟨by simpa using congrArg htwRw h, by simpa using congrArg htwUnit h,
      by simpa using congrArg htwSpace h, by simpa using congrArg htwAddr h,
      by simpa using congrArg htwData h⟩
  · rintro ⟨rfl, rfl, rfl, rfl, rfl⟩
    rfl

theorem bit_and_one (b : BitVec 1) : b &&& 1 = b := BitVec.and_allOnes

theorem space_and_three (x : BitVec 2) : x &&& 3 = x := BitVec.and_allOnes

theorem addr_and_ones (a : BitVec 28) : a &&& 0xFFFFFFF = a := BitVec.and_allOnes

theorem startMask_fields : (0xFFFFFFFF00000001 : BitVec 64) = mkHtw 1 1 3 0xFFFFFFF 1 := by decide

theorem nopMask_fields : (0xBFFFFFFF00000001 : BitVec 64) = mkHtw 1 0 3 0xFFFFFFF 1 := by decide

theorem data_and_one (d : BitVec 32) : d &&& 1 = if d.getLsbD 0 then 1 else 0 := by
  rw [show (1 : BitVec 32) = 1#32 from rfl, BitVec.and_one_eq_setWidth_ofBool_getLsbD]
  cases d.getLsbD 0 <;> rfl

section
variable (w : BitVec 64)

/-- The full-register mask keeps rw, space and addr. -/
theorem and_regMask_eq_iff {rw : BitVec 1} {space : BitVec 2} {addr : BitVec 28} :
    w &&& 0xBFFFFFFF00000000 = mkHtw rw 0 space addr 0 ↔
      htwRw w = rw ∧ htwSpace w = space ∧ htwAddr w = addr := by
  rw [← mkHtw_fields w, Laws.RowMatch.and_regMask, mkHtw_inj]
  simp

theorem and_bufMask_eq_iff {rw : BitVec 1} {space : BitVec 2} :
    w &&& 0xB000000000000000 = mkHtw rw 0 space 0 0 ↔ htwRw w = rw ∧ htwSpace w = space := by
  rw [← mkHtw_fields w, Laws.RowMatch.and_bufMask, mkHtw_inj]
  simp

theorem and_startMask_eq_iff {rw unit : BitVec 1} {space : BitVec 2} {addr : BitVec 28} :
    w &&& 0xFFFFFFFF00000001 = mkHtw rw unit space addr 1 ↔
      htwRw w = rw ∧ htwUnit w = unit ∧ htwSpace w = space ∧ htwAddr w = addr ∧
        (htwData w).getLsbD 0 = true := by
  rw [← mkHtw_fields w, startMask_fields, mkHtw_and, mkHtw_inj, bit_and_one, bit_and_one,
    space_and_three, addr_and_ones, data_and_one]
  simp

theorem and_nopMask_eq_iff {rw : BitVec 1} {space : BitVec 2} {addr : BitVec 28} :
    w &&& 0xBFFFFFFF00000001 = mkHtw rw 0 space addr 0 ↔
      htwRw w = rw ∧ htwSpace w = space ∧ htwAddr w = addr ∧ (htwData w).getLsbD 0 = false := by
  rw [← mkHtw_fields w, nopMask_fields, mkHtw_and, mkHtw_inj, bit_and_one, space_and_three,
    addr_and_ones, data_and_one]
  simp

end

/-- The table with its matches as words built from fields. -/
theorem htwTable_fields : htwTable =
    [(.encStart, mkHtw 1 0 0 0 1, 0xFFFFFFFF00000001),
      (.decStart, mkHtw 1 1 0 0 1, 0xFFFFFFFF00000001),
      (.ctrlNop, mkHtw 1 0 0 0 0, 0xBFFFFFFF00000001),
      (.wrIlen, mkHtw 1 0 0 2 0, 0xBFFFFFFF00000000),
      (.wrIbuf, mkHtw 1 0 1 0 0, 0xB000000000000000),
      (.rdCtrl, mkHtw 0 0 0 0 0, 0xBFFFFFFF00000000),
      (.rdStatus, mkHtw 0 0 0 1 0, 0xBFFFFFFF00000000),
      (.rdIlen, mkHtw 0 0 0 2 0, 0xBFFFFFFF00000000),
      (.rdOlen, mkHtw 0 0 0 3 0, 0xBFFFFFFF00000000),
      (.rdGp, mkHtw 0 0 0 4 0, 0xBFFFFFFF00000000),
      (.rdIbuf, mkHtw 0 0 1 0 0, 0xB000000000000000),
      (.rdObuf, mkHtw 0 0 2 0 0, 0xB000000000000000),
      (.htRsvd, 0, 0)] := by decide

/-- `firstRow` row by row. -/
theorem firstRow_cons {n : Nat} (r : Row) (m mask : BitVec n)
    (table : List (Row × BitVec n × BitVec n)) (ok : Row → Bool) (w : BitVec n) :
    firstRow ((r, m, mask) :: table) ok w =
      if w &&& mask = m ∧ ok r = true then some r else firstRow table ok w := by
  unfold firstRow
  rw [List.find?_cons]
  by_cases h : w &&& mask = m <;> cases ok r <;> simp [h]

/-- The table's first row for a word is the row its fields say: of the rows before HT.RSVD at most
one fits, and none fits a reserved word. -/
theorem HtwRow.tableRow {lenw : Nat} {w : BitVec 64} {i : Instr} (h : HtwRow lenw w i) :
    tableRow lenw (.htw w) = some i.row := by
  simp only [Sys2Proof.tableRow, htwTable_fields, firstRow_cons, and_startMask_eq_iff,
    and_nopMask_eq_iff, and_regMask_eq_iff, and_bufMask_eq_iff, rowInRange, and_true,
    decide_eq_true_eq]
  cases h with
  | encStart | decStart | ctrlNop | wrIlen | wrIbuf | rdCtrl | rdStatus | rdIlen | rdOlen | rdGp
  | rdIbuf | rdObuf => simp [*, -BitVec.getLsbD_eq_getElem, Instr.row]
  | htRsvd hres =>
    have excluded {i : Instr} (row : HtwRow lenw w i) (hi : i.row ≠ .htRsvd) : False :=
      hi (congrArg Instr.row (row.eq_htRsvd hres))
    rw [if_neg fun ⟨hrw, hu, hs, ha, hd⟩ => excluded (.encStart hrw hu hs ha hd) nofun,
      if_neg fun ⟨hrw, hu, hs, ha, hd⟩ => excluded (.decStart hrw hu hs ha hd) nofun,
      if_neg fun ⟨hrw, hs, ha, hd⟩ => excluded (.ctrlNop hrw hs ha hd) nofun,
      if_neg fun ⟨hrw, hs, ha⟩ => excluded (.wrIlen hrw hs ha) nofun,
      if_neg fun ⟨⟨hrw, hs⟩, ha⟩ => excluded (.wrIbuf hrw hs ha) nofun,
      if_neg fun ⟨hrw, hs, ha⟩ => excluded (.rdCtrl hrw hs ha) nofun,
      if_neg fun ⟨hrw, hs, ha⟩ => excluded (.rdStatus hrw hs ha) nofun,
      if_neg fun ⟨hrw, hs, ha⟩ => excluded (.rdIlen hrw hs ha) nofun,
      if_neg fun ⟨hrw, hs, ha⟩ => excluded (.rdOlen hrw hs ha) nofun,
      if_neg fun ⟨hrw, hs, ha⟩ => excluded (.rdGp hrw hs ha) nofun,
      if_neg fun ⟨⟨hrw, hs⟩, ha⟩ => excluded (.rdIbuf hrw hs ha) nofun,
      if_neg fun ⟨⟨hrw, hs⟩, ha⟩ => excluded (.rdObuf hrw hs ha) nofun]
    exact if_pos BitVec.and_zero

theorem mkEgd_fields (w : BitVec 26) : mkEgd (w.extractLsb' 24 2) (w.extractLsb' 16 8)
    (w.extractLsb' 8 8) (w.extractLsb' 0 8) = w := by
  apply BitVec.eq_of_getLsbD_eq
  intro i hi
  simp only [mkEgd, BitVec.getLsbD_append, BitVec.getLsbD_extractLsb']
  grind

theorem and_cntMask_eq_iff (w : BitVec 26) {cnt : BitVec 2} :
    w &&& 0x3000000 = mkEgd cnt 0 0 0 ↔ w.extractLsb' 24 2 = cnt := by
  rw [← mkEgd_fields w, Laws.RowMatch.and_cntMask, egdCnt_mkEgd]
  exact ⟨fun h => by simpa using congrArg (·.extractLsb' 24 2) h, congrArg (mkEgd · 0 0 0)⟩

theorem egdTable_fields : egdTable =
    [(.encG3, mkEgd 3 0 0 0, 0x3000000), (.encG2, mkEgd 2 0 0 0, 0x3000000),
      (.encG1, mkEgd 1 0 0 0, 0x3000000)] := by decide

theorem tableRow_of_decodeEgd {lenw : Nat} {w : BitVec 26} {i : Instr}
    (h : decodeEgd w = .ok i) : tableRow lenw (.egd w) = some i.row := by
  simp only [tableRow, egdTable_fields, firstRow_cons, and_cntMask_eq_iff, and_true]
  simp only [decodeEgd] at h
  split_ifs at h with h3 h2 h1
  · cases h; exact if_pos h3
  · cases h; rw [if_neg h3, if_pos h2]; rfl
  · cases h; rw [if_neg h3, if_neg h2, if_pos h1]; rfl

theorem klsOfCode_eq_some_iff {k : BitVec 2} {c : Kls} : klsOfCode k = some c ↔ k = klsCode c := by
  cases c <;> revert k <;> decide

theorem qcw_fields (w : BitVec 9) :
    BitVec.ofBool (w.getLsbD 8) ++ w.extractLsb' 6 2 ++ w.extractLsb' 4 2 ++ w.extractLsb' 2 2 ++
      w.extractLsb' 0 2 = w := by
  apply BitVec.eq_of_getLsbD_eq
  intro i hi
  simp only [BitVec.getLsbD_append, BitVec.getLsbD_extractLsb', BitVec.getLsbD_ofBool]
  obtain rfl | h8 := eq_or_ne i 8
  · rfl
  · grind

/-- The class words that are instructions are built from FIN and four classes. -/
theorem decodeQcw_ok {w : BitVec 9} {i : Instr} (h : decodeQcw w = .ok i) :
    ∃ fin k0 k1 k2 k3, w = mkQcw fin k0 k1 k2 k3 ∧ i = selectQuadOp fin k0 k1 k2 k3 := by
  unfold decodeQcw at h
  split at h
  · next k0 k1 k2 k3 h0 h1 h2 h3 =>
    rw [klsOfCode_eq_some_iff] at h0 h1 h2 h3
    refine ⟨w.getLsbD 8, k0, k1, k2, k3, ?_, (Except.ok.inj h).symm⟩
    rw [mkQcw, ← h0, ← h1, ← h2, ← h3]
    exact (qcw_fields w).symm
  · cases h

theorem tableRow_mkQcw (lenw : Nat) (fin : Bool) (k0 k1 k2 k3 : Kls) :
    tableRow lenw (.qcw (mkQcw fin k0 k1 k2 k3)) = some (selectQuadOp fin k0 k1 k2 k3).row := by
  cases fin <;> cases k0 <;> cases k1 <;> cases k2 <;> cases k3 <;> rfl

/-- Settles O4: for each format, the row read from the fields is the table's first. -/
theorem decoderFollowsTheOpcodeTable : Obligations.DecoderFollowsTheOpcodeTable := by
  intro lenw e i h
  cases e with
  | htw w => exact Except.ok.inj h ▸ (decodeHtw_row lenw w).tableRow
  | egd w => exact tableRow_of_decodeEgd h
  | qcw w =>
    obtain ⟨fin, k0, k1, k2, k3, rfl, rfl⟩ := decodeQcw_ok h
    exact tableRow_mkQcw lenw fin k0 k1 k2 k3

/-! ## Tables -/

/-- Settles O1: each word is decoded by evaluation. -/
theorem decodesTheSpecsOwnWords : Obligations.DecodesTheSpecsOwnWords := by
  unfold Obligations.DecodesTheSpecsOwnWords
  decide

namespace Machine

theorem rev_eq_X {c : Byte} (hp : c ≠ padChar) (ha : ∀ i, c ≠ alphabet i) : rev c = .X := by
  cases h : rev c with
  | D v => exact absurd (alphabet_of_rev h).symm (ha v)
  | P => exact absurd (padChar_of_rev h) hp
  | X => rfl

/-- Settles O5: a character with a class D or P is an alphabet character or the pad, so every other
is X. -/
theorem reverseTableInvertsTheAlphabet : Obligations.ReverseTableInvertsTheAlphabet :=
  ⟨rev_alphabet, rev_padChar, fun _ hp ha => rev_eq_X hp ha, by rfl⟩

end Machine
end Sys2Proof

namespace Sys2Proof.Machine

/-! # The group and quad operations (40_encoder.md, 41_decoder.md) -/

/-! ## Cells written one by one -/

/-- Three consecutive cells after `MemWrite`. -/
theorem Memory.read_writeCells_three (m : Memory) (a : Nat) (x0 x1 x2 : Byte) :
    let m' := m.writeCells a [x0, x1, x2]
    m'.read a = some x0 ∧ m'.read (a + 1) = some x1 ∧ m'.read (a + 2) = some x2 :=
  have inside := fun i => Memory.read_writeCells_inside m a [x0, x1, x2] (i := i)
  ⟨inside 0 (by simp), inside 1 (by simp), inside 2 (by simp)⟩

/-- Four consecutive cells after `MemWrite`. -/
theorem Memory.read_writeCells_four (m : Memory) (a : Nat) (x0 x1 x2 x3 : Byte) :
    let m' := m.writeCells a [x0, x1, x2, x3]
    m'.read a = some x0 ∧ m'.read (a + 1) = some x1 ∧ m'.read (a + 2) = some x2 ∧
      m'.read (a + 3) = some x3 :=
  have inside := fun i => Memory.read_writeCells_inside m a [x0, x1, x2, x3] (i := i)
  ⟨inside 0 (by simp), inside 1 (by simp), inside 2 (by simp), inside 3 (by simp)⟩

/-! ## Bit fields as numbers -/

theorem toNat_append {n k : Nat} (x : BitVec n) (y : BitVec k) :
    (x ++ y).toNat = x.toNat * 2 ^ k + y.toNat := by
  rw [BitVec.toNat_append, ← Nat.shiftLeft_add_eq_or_of_lt y.isLt, Nat.shiftLeft_eq]

section
variable (b0 b1 b2 : Byte)

/-- The four indices of G24 byte by byte (30_encoding.md R90). -/
theorem groupChars3_eq : groupChars3 b0 b1 b2 =
    [alphabet (b0.extractLsb' 2 6), alphabet (b0.extractLsb' 0 2 ++ b1.extractLsb' 4 4),
      alphabet (b1.extractLsb' 0 4 ++ b2.extractLsb' 6 2), alphabet (b2.extractLsb' 0 6)] := by
  have hg : (b0 ++ b1 ++ b2).toNat = b0.toNat * 2 ^ 16 + b1.toNat * 2 ^ 8 + b2.toNat :=
    assembleGroup_toNat (bs := [b0, b1, b2]) (by simp)
  have h0 : (b0 ++ b1 ++ b2).extractLsb' 18 6 = b0.extractLsb' 2 6 := by
    apply BitVec.eq_of_toNat_eq
    rw [toNat_extract, toNat_extract, hg]
    omega
  have h1 : (b0 ++ b1 ++ b2).extractLsb' 12 6 = b0.extractLsb' 0 2 ++ b1.extractLsb' 4 4 := by
    apply BitVec.eq_of_toNat_eq
    refine Eq.trans ?_ (toNat_append _ _).symm
    rw [toNat_extract, toNat_extract, toNat_extract, hg]
    omega
  have h2 : (b0 ++ b1 ++ b2).extractLsb' 6 6 = b1.extractLsb' 0 4 ++ b2.extractLsb' 6 2 := by
    apply BitVec.eq_of_toNat_eq
    refine Eq.trans ?_ (toNat_append _ _).symm
    rw [toNat_extract, toNat_extract, toNat_extract, hg]
    omega
  have h3 : (b0 ++ b1 ++ b2).extractLsb' 0 6 = b2.extractLsb' 0 6 := by
    apply BitVec.eq_of_toNat_eq
    rw [toNat_extract, toNat_extract, hg]
    omega
  rw [← h0, ← h1, ← h2, ← h3]
  rfl

theorem firstIndex_eq : b0.extractLsb' 2 6 = BitVec.ofNat 6 (b0.toNat / 4) := by
  apply BitVec.eq_of_toNat_eq
  rw [toNat_extract, BitVec.toNat_ofNat]
  rfl

theorem secondIndex_eq : b0.extractLsb' 0 2 ++ b1.extractLsb' 4 4 =
    BitVec.ofNat 6 (b0.toNat % 4 * 16 + b1.toNat / 16) := by
  apply BitVec.eq_of_toNat_eq
  refine (toNat_append _ _).trans ?_
  rw [toNat_extract, toNat_extract, BitVec.toNat_ofNat]
  omega

/-- The third index of a group of two bytes (40_encoder.md R122). -/
theorem thirdIndex_zeroFill : b1.extractLsb' 0 4 ++ 0b00#2 =
    BitVec.ofNat 6 (b1.toNat % 16 * 4) := by
  apply BitVec.eq_of_toNat_eq
  refine (toNat_append _ _).trans ?_
  rw [toNat_extract, BitVec.toNat_ofNat, BitVec.toNat_ofNat]
  omega

/-- The second index of a group of one byte (40_encoder.md R123). -/
theorem secondIndex_zeroFill : b0.extractLsb' 0 2 ++ 0b0000#4 =
    BitVec.ofNat 6 (b0.toNat % 4 * 16) := by
  apply BitVec.eq_of_toNat_eq
  refine (toNat_append _ _).trans ?_
  rw [toNat_extract, BitVec.toNat_ofNat, BitVec.toNat_ofNat]
  omega

end

/-- The three bytes of the four indices of a quad (41_decoder.md R151). -/
theorem quadBytes4_eq (v0 v1 v2 v3 : Idx) : quadBytes4 v0 v1 v2 v3 =
    .ok [BitVec.ofNat 8 (v0.toNat * 4 + v1.toNat / 16),
      BitVec.ofNat 8 (v1.toNat % 16 * 16 + v2.toNat / 4),
      BitVec.ofNat 8 (v2.toNat % 4 * 64 + v3.toNat)] := by
  have hw : (v0 ++ v1 ++ v2 ++ v3).toNat =
      v0.toNat * 2 ^ 18 + v1.toNat * 2 ^ 12 + v2.toNat * 2 ^ 6 + v3.toNat := by
    rw [toNat_append, toNat_append, toNat_append]
    omega
  have byte : ∀ i n, (v0 ++ v1 ++ v2 ++ v3).toNat / 2 ^ i % 2 ^ 8 = n % 2 ^ 8 →
      (v0 ++ v1 ++ v2 ++ v3).extractLsb' i 8 = BitVec.ofNat 8 n := fun i n h => by
    apply BitVec.eq_of_toNat_eq
    rw [toNat_extract, BitVec.toNat_ofNat, h]
  rw [← byte 16 _ (by omega), ← byte 8 _ (by omega), ← byte 0 _ (by omega)]
  rfl

/-! ## Group operations -/

/-- `t` is `s` after a group operation on the characters `x0 x1 x2 x3`
(42_sequencer_and_host.md R193). -/
def GroupWritten (s t : State) (x0 x1 x2 x3 : Byte) : Prop :=
  t = s.withEnc { s.enc with
    obuf := t.enc.obuf, olen := s.enc.olen + 4, gp := s.enc.gp + 1 } ∧
  t.enc.obuf.read (4 * s.enc.gp) = some x0 ∧ t.enc.obuf.read (4 * s.enc.gp + 1) = some x1 ∧
  t.enc.obuf.read (4 * s.enc.gp + 2) = some x2 ∧ t.enc.obuf.read (4 * s.enc.gp + 3) = some x3 ∧
  sameOutside (4 * s.enc.gp) 4 s.enc.obuf t.enc.obuf

theorem finishGroup_groupWritten {s : State} (h : encStepPre s.enc) (x0 x1 x2 x3 : Byte) :
    ∃ t, finishGroup [x0, x1, x2, x3] s = .next t ∧ GroupWritten s t x0 x1 x2 x3 := by
  obtain ⟨h0, h1, h2, h3⟩ := Memory.read_writeCells_four s.enc.obuf (4 * s.enc.gp) x0 x1 x2 x3
  exact ⟨_, finishGroup_of_pre h _, rfl, h0, h1, h2, h3,
    Memory.writeCells_sameOutside s.enc.obuf _ [x0, x1, x2, x3]⟩

/-- Settles O26: the operation writes the characters of the four indices. -/
theorem fullGroup : Obligations.FullGroup := by
  intro s b0 b1 b2 hb hg
  rw [exec, execEncG3, groupChars3_eq]
  exact finishGroup_groupWritten ⟨hb, hg⟩ _ _ _ _

/-- Settles O27: both operations write four characters, the zero-filled index as a number. -/
theorem partialGroups : Obligations.PartialGroups := by
  intro s b0 b1 hb hg
  rw [← firstIndex_eq, ← secondIndex_eq, ← thirdIndex_zeroFill, ← secondIndex_zeroFill]
  exact ⟨finishGroup_groupWritten ⟨hb, hg⟩ _ _ _ _, finishGroup_groupWritten ⟨hb, hg⟩ _ _ _ _⟩

/-! ## Quad operations -/

/-- Settles O28: the latched characters select `quadBytes4`, which is always accepted. -/
theorem fourDataQuad : Obligations.FourDataQuad := by
  intro s fin c0 c1 c2 c3 v0 v1 v2 v3 hb hg hq h0 h1 h2 h3
  have hexec : exec (.decQ4 fin) s = finishQuad (quadBytes4 v0 v1 v2 v3) s := by
    have hquad : s.dec.quad = assembleQuad c0 c1 c2 c3 := hq
    simp [exec, execDecQ4, hquad, h0, h1, h2, h3]
  rw [hexec]
  refine ⟨fun hp => finishQuad_validate ⟨hb, by simp [hp], hg⟩ hp _, fun hp => ?_⟩
  rw [finishQuad_decode ⟨hb, by simp [hp], hg⟩ hp, quadBytes4_eq]
  obtain ⟨hx, hy, hz⟩ := Memory.read_writeCells_three s.dec.obuf (3 * s.dec.gp) _ _ _
  exact ⟨_, rfl, rfl, hx, hy, hz, Memory.writeCells_sameOutside s.dec.obuf _ [_, _, _]⟩

/-- Settles O35: the turn and the selected operation both compute DecQuad of the four characters. -/
theorem decTurnRunsTheQuadOperation : Obligations.DecTurnRunsTheQuadOperation := by
  intro s es c0 c1 c2 c3 hs hi hb hp hg hr
  rw [exec_selectQuadOp _ c0 c1 c2 c3 rfl, step_finishQuad hs hi hb hp hg hr]
  have hfin : BitVec.ofBool (decide (s.dec.gp = s.dec.ilen / 4 - 1)) =
    if s.dec.gp = s.dec.ilen / 4 - 1 then 1 else 0 := by split <;> simp [*]
  rw [← hfin]
  rfl

theorem finishQuad_not_busy {s : State} (h : s.dec.st ≠ .busy) (r : QuadResult) :
    finishQuad r s = .refused .notIssued := finishQuad_of_not_pre (fun hpre => h hpre.1) r

theorem finishGroup_not_busy {s : State} (h : s.enc.st ≠ .busy) (chars : List Byte) :
    finishGroup chars s = .refused .notIssued := finishGroup_of_not_pre (fun hpre => h hpre.1) chars

/-- Settles O32: each operation ends in `finishGroup` or `finishQuad`, which refuse a unit that is
not BUSY. -/
theorem groupAndQuadOpsAreNotTheHosts : Obligations.GroupAndQuadOpsAreNotTheHosts := by
  intro i s hi
  refine ⟨fun hu hb => ?_, fun hu hb => ?_⟩
  · have refused := finishGroup_not_busy hb
    cases i with
    | encG3 | encG2 | encG1 => exact refused _
    | decQ4 | decQ3 | decQ2 | decRej => exact nomatch hu
    | _ => exact nomatch hi
  · have refused := finishQuad_not_busy hb
    cases i with
    | encG3 | encG2 | encG1 => exact nomatch hu
    | decQ4 | decQ3 | decQ2 =>
      simp only [exec, execDecQ4, execDecQ3, execDecQ2, refused]
      split <;> rfl
    | decRej => exact refused _
    | _ => exact nomatch hi

end Sys2Proof.Machine

namespace Sys2Proof.Machine

/-! # Host programs (42_sequencer_and_host.md R216) -/

/-! ## One event put before the rest -/

section
variable {s : State} (hr : s.ready = true)
include hr

theorem stepEvent_host (w : BitVec 64) :
    stepEvent (.host w) s = exec (decodeHtw s.lenw w) s :=
  step_host (s := s.withInbox (.host w :: s.inbox)) hr rfl

theorem stepEvent_encTurn : stepEvent .encTurn s = encTurn runWord s :=
  step_encTurn (s := s.withInbox (.encTurn :: s.inbox)) hr (.inl rfl)

theorem stepEvent_decTurn : stepEvent .decTurn s = decTurn runWord s :=
  step_decTurn (s := s.withInbox (.decTurn :: s.inbox)) hr (.inl rfl)

/-- A line runs the instruction whose encoding is its word. -/
theorem issue_eq_exec {l : HostLine} {i : Instr} (hwf : i.WellFormed s.lenw = true)
    (he : encode i = .htw l.word) : issue l s = exec i s := by
  have hdec := decodeEncodeRoundTrip s.lenw i hwf
  rw [he] at hdec
  rw [issue, stepEvent_host hr, decodeHtw_of_decode hdec]

theorem issueRead_eq {l : HostLine} {i : Instr} {v : HostWord} (hwf : i.WellFormed s.lenw = true)
    (he : encode i = .htw l.word) (hx : exec i s = .next (answer v s)) :
    issueRead l s = some (v, answer v s) := by
  rw [issueRead, issue_eq_exec hr hwf he, hx]
  rfl

end

theorem issueAll_cons {l : HostLine} {ls : List HostLine} {s t : State} (h : issue l s = .next t) :
    issueAll (l :: ls) s = issueAll ls t := by
  rw [issueAll, h]

/-! ## LOAD -/

/-- The capacity of the largest buffer is within 28 address bits (00_scope.md R5). -/
theorem obufCells_le {lenw : Nat} (h : Config.legalLenw lenw) : obufCells lenw ≤ 2 ^ 28 :=
  Nat.pow_le_pow_right (by decide) (Nat.succ_le_succ h.2)

theorem ibufCells_le {lenw : Nat} (h : Config.legalLenw lenw) (u : UnitId) :
    ibufCells lenw u ≤ 2 ^ 28 :=
  match u with
  | .enc => (Nat.pow_le_pow_right (by decide) (Nat.le_succ lenw)).trans (obufCells_le h)
  | .dec => obufCells_le h

/-- The numbers ILEN holds are those below the capacity of IBUF (10_state.md R24). -/
theorem two_pow_ilenWidth (lenw : Nat) (u : UnitId) : 2 ^ ilenWidth lenw u = ibufCells lenw u := by
  cases u <;> rfl

theorem toNat_address {a : Nat} (h : a < 2 ^ 28) : (BitVec.ofNat 28 a).toNat = a :=
  Nat.mod_eq_of_lt h

theorem toNat_zext32 {n : Nat} (h : n ≤ 2 ^ 28) : (zext32 n).toNat = n :=
  Nat.mod_eq_of_lt (h.trans_lt (by decide))

section
variable {u : UnitId} {s : State} (hl : Config.legalLenw s.lenw) (hr : s.ready = true)
  (hb : stOf u s ≠ .busy)
include hl hr hb

theorem issue_wrIbuf {a : Nat} (ha : a < ibufCells s.lenw u) (b : Byte) :
    issue (.wrIbuf u (BitVec.ofNat 28 a) (b.setWidth 32)) s =
      .next (ackWrite (setIbuf u ((ibufOf u s).write a b) s)) := by
  have haddr := toNat_address (ha.trans_le (ibufCells_le hl u))
  have hlow : (b.setWidth 32).extractLsb' 0 8 = b := by
    apply BitVec.eq_of_toNat_eq
    simp
    omega
  rw [issue_eq_exec (i := .wrIbuf u (BitVec.ofNat 28 a) (b.setWidth 32)) hr
    (by simpa [Instr.WellFormed, haddr] using ha) rfl]
  refine (execWrIbuf_accepted _ hb (haddr.symm ▸ ha)).trans ?_
  rw [haddr, hlow]

theorem issue_wrIlen {n : Nat} (hn : n < ibufCells s.lenw u) :
    issue (.wrIlen u (zext32 n)) s = .next (ackWrite (setIlen u n s)) := by
  rw [issue_eq_exec (i := .wrIlen u (zext32 n)) hr rfl rfl]
  refine congrArg _ ((writeUnlessBusy_of_not_busy hb _).trans ?_)
  rw [toNat_zext32 (hn.le.trans (ibufCells_le hl u)), two_pow_ilenWidth, Nat.mod_eq_of_lt hn]

end

@[simp] theorem setIbuf_ibufOf (u : UnitId) (s : State) : setIbuf u (ibufOf u s) s = s := by
  cases u <;> rfl

/-- The cells of LOAD, and then the lines `ls`. -/
theorem issueAll_loadCells {u : UnitId} (ls : List HostLine) {bs : List Byte} {a : Nat} {s : State}
    (hl : Config.legalLenw s.lenw) (hr : s.ready = true) (hb : stOf u s ≠ .busy)
    (hfit : a + bs.length ≤ ibufCells s.lenw u) :
    ∃ r, issueAll (loadCells u a bs ++ ls) s =
      issueAll ls ((setIbuf u ((ibufOf u s).writeCells a bs) s).withResp r) := by
  induction bs generalizing a s with
  | nil =>
    refine ⟨s.resp, ?_⟩
    rw [Memory.writeCells_nil, setIbuf_ibufOf]
    rfl
  | cons b bs ih =>
    rw [List.length_cons] at hfit
    have hissue := issue_wrIbuf hl hr hb (a := a) (by omega) b
    rw [loadCells, List.cons_append, issueAll_cons hissue]
    cases u with
    | enc | dec =>
      exact ih (s := ackWrite (setIbuf _ ((ibufOf _ s).write a b) s)) hl hr hb
        (by show a + 1 + bs.length ≤ ibufCells s.lenw _; omega)

/-- A unit with the message `m` in IBUF and its length in ILEN. -/
def loaded (u : UnitId) (m : List Byte) (s : State) : State :=
  setIlen u m.length (setIbuf u ((ibufOf u s).writeCells 0 m) s)

/-- LOAD, and then the lines `ls`. -/
theorem issueAll_macroLoad (u : UnitId) (ls : List HostLine) {m : List Byte} {s : State}
    (hl : Config.legalLenw s.lenw) (hr : s.ready = true) (hb : stOf u s ≠ .busy)
    (hfit : m.length < ibufCells s.lenw u) :
    issueAll (macroLoad u m ++ ls) s = issueAll ls (ackWrite (loaded u m s)) := by
  rw [macroLoad, List.append_assoc]
  obtain ⟨r, hload⟩ := issueAll_loadCells ([.wrIlen u (zext32 m.length)] ++ ls) hl hr hb
    (a := 0) (bs := m) (by omega)
  rw [hload, List.singleton_append, loaded]
  generalize (ibufOf u s).writeCells 0 m = cells
  cases u with
  | enc => exact issueAll_cons (issue_wrIlen (s := (setIbuf .enc cells s).withResp r) hl hr hb hfit)
  | dec => exact issueAll_cons (issue_wrIlen (s := (setIbuf .dec cells s).withResp r) hl hr hb hfit)

theorem messageIs_loaded (u : UnitId) (m : List Byte) (s : State) :
    messageIs (ibufOf u (loaded u m s)) (ilenOf u (loaded u m s)) m := by
  cases u <;> exact Memory.readCells_writeCells _ 0 m

/-! ## START -/

theorem issue_startEnc {s : State} (hr : s.ready = true) (hb : s.enc.st ≠ .busy) :
    issue (.wrCtrl .enc 1) s = .next (ackWrite (startEnc s)) := by
  rw [issue_eq_exec (i := .encStart) hr rfl rfl]
  exact congrArg _ (writeUnlessBusy_of_not_busy (u := .enc) hb _)

theorem issue_startDec {s : State} (hr : s.ready = true) (hb : s.dec.st ≠ .busy) :
    issue (.wrCtrl .dec 1) s = .next (ackWrite (startDec s)) := by
  rw [issue_eq_exec (i := .decStart) hr rfl rfl]
  exact congrArg _ (writeUnlessBusy_of_not_busy (u := .dec) hb _)

/-! ## WAIT -/

/-- STATUS bit 1 says DONE (10_state.md R32). -/
theorem statusOf_done (u : UnitId) (s : State) :
    (statusOf u s).getLsbD 1 = decide (stOf u s = .done) := by
  cases u with
  | enc => exact (statusWord_bits s.enc.st false .none).2.1
  | dec => exact (statusWord_bits s.dec.st s.dec.err s.dec.cause).2.1

/-- An operation of unit `u`, `P n` said of the states `n` of its turns from the end. -/
structure Operation (u : UnitId) (P : Nat → State → Prop) : Prop where
  ready {n : Nat} {s : State} : P n s → s.ready = true
  busy {n : Nat} {s : State} : P (n + 1) s → stOf u s = .busy
  done {s : State} : P 0 s → stOf u s = .done
  answered {n : Nat} {s : State} (v : HostWord) : P n s → P n (answer v s)
  turn {n : Nat} {s : State} : P (n + 1) s → ∃ t, stepEvent (turnOf u) s = .next t ∧ P n t

/-- WAIT polls an operation to its end and answers STATUS as it is there. -/
theorem Operation.macroWait {u : UnitId} {P : Nat → State → Prop} (op : Operation u P) {n fuel : Nat}
    {s : State} (hfuel : n < fuel) (h : P n s) :
    ∃ t, macroWait u fuel s = some (statusOf u t, t) ∧ P 0 t := by
  induction fuel generalizing n s with
  | zero => exact absurd hfuel (Nat.not_lt_zero n)
  | succ fuel ih =>
    have hread := issueRead_eq (l := .rdStatus u) (i := .rdStatus u) (op.ready h) rfl rfl rfl
    have hstatus (t : State) : statusOf u (answer (statusOf u s) s) = statusOf u s := by
      cases u <;> rfl
    simp only [Machine.macroWait, hread, statusOf_done]
    cases n with
    | zero =>
      rw [op.done h]
      exact ⟨_, by rw [hstatus s]; rfl, op.answered _ h⟩
    | succ n =>
      obtain ⟨t, hturn, ht⟩ := op.turn (op.answered (statusOf u s) h)
      obtain ⟨t', hwait, ht'⟩ := ih (Nat.lt_of_succ_lt_succ hfuel) ht
      refine ⟨t', ?_, ht'⟩
      rw [op.busy h, hturn]
      exact hwait

/-! ## FETCH -/

section
variable {u : UnitId}

theorem exec_rdObuf {s : State} {a : BitVec 28} {b : Byte} (hb : stOf u s ≠ .busy)
    (ha : a.toNat < obufCells s.lenw) (hread : (obufOf u s).read a.toNat = some b) :
    exec (.rdObuf u a) s = .next (answer (b.setWidth 32) s) := by
  refine (execRdObuf_eq u a s).trans ?_
  rw [if_pos ha, answerCell, hread]
  exact congrArg _ (answerUnlessBusy_of_not_busy hb _)

theorem Memory.readCells_cons_iff {m : Memory} {a n : Nat} {b : Byte} {bs : List Byte} :
    m.readCells a (n + 1) = .ok (b :: bs) ↔
      m.read a = some b ∧ m.readCells (a + 1) n = .ok bs := by
  rw [Memory.readCells]
  cases m.read a with
  | none => simp
  | some b' => cases m.readCells (a + 1) n <;> simp

/-- Reading cells of OBUF answers their values and changes nothing else. -/
theorem fetchCells_eq {bs : List Byte} {a : Nat} {s : State} (hl : Config.legalLenw s.lenw)
    (hr : s.ready = true) (hb : stOf u s ≠ .busy) (hfit : a + bs.length ≤ obufCells s.lenw)
    (hread : (obufOf u s).readCells a bs.length = .ok bs) :
    ∃ r, fetchCells u a bs.length s = some (bs, s.withResp r) := by
  induction bs generalizing a s with
  | nil => exact ⟨s.resp, rfl⟩
  | cons b bs ih =>
    obtain ⟨hcell, hcells⟩ := Memory.readCells_cons_iff.1 hread
    rw [List.length_cons] at hfit
    have haddr := toNat_address (a := a) (by have := obufCells_le hl; omega)
    have hrange : (BitVec.ofNat 28 a).toNat < obufCells s.lenw := by omega
    have hissue := issueRead_eq (i := .rdObuf u (BitVec.ofNat 28 a)) hr
      (decide_eq_true hrange) (l := .rdObuf u (BitVec.ofNat 28 a)) rfl
      (exec_rdObuf hb hrange (haddr.symm ▸ hcell))
    obtain ⟨r, hfetch⟩ : ∃ r, fetchCells u (a + 1) bs.length (answer (b.setWidth 32) s) =
        some (bs, (answer (b.setWidth 32) s).withResp r) := by
      apply ih (s := answer (b.setWidth 32) s) hl hr
      · cases u <;> exact hb
      · show a + 1 + bs.length ≤ obufCells s.lenw
        omega
      · cases u <;> exact hcells
    refine ⟨r, ?_⟩
    rw [List.length_cons, fetchCells, hissue]
    simp only [hfetch, BitVec.setWidth_setWidth_of_le, Nat.reduceLeDiff, BitVec.setWidth_eq]
    rfl

theorem macroFetch_eq {bs : List Byte} {s : State} (hl : Config.legalLenw s.lenw)
    (hr : s.ready = true) (hb : stOf u s ≠ .busy) (holen : olenOf u s = bs.length)
    (hfit : bs.length ≤ obufCells s.lenw)
    (hread : (obufOf u s).readCells 0 bs.length = .ok bs) :
    ∃ r, macroFetch u s = some (bs, s.withResp r) := by
  have hissue := issueRead_eq (l := .rdOlen u) (i := .rdOlen u) hr rfl rfl
    (congrArg _ (answerUnlessBusy_of_not_busy hb _))
  have hn := toNat_zext32 (hfit.trans (obufCells_le hl))
  obtain ⟨r, hfetch⟩ : ∃ r, fetchCells u 0 bs.length (answer (zext32 bs.length) s) =
      some (bs, (answer (zext32 bs.length) s).withResp r) := by
    apply fetchCells_eq (s := answer (zext32 bs.length) s) hl hr
    · cases u <;> exact hb
    · rwa [Nat.zero_add]
    · cases u <;> exact hread
  refine ⟨r, ?_⟩
  rw [holen] at hissue
  simp only [macroFetch, hissue, hn, hfetch]
  rfl

end

/-! ## The host program ENCODE -/

/-- A cell of a message holds a value. -/
theorem messageIs.read_ne_none {m : Memory} {n a : Nat} {b : List Byte} (hb : messageIs m n b)
    (ha : a < n) : m.read a ≠ none := by
  obtain ⟨hlen, hcells⟩ := Memory.readCells_eq_ok_iff.1 hb
  have := hcells a (by omega)
  rw [Nat.zero_add] at this
  simp [this]

/-- The states of ENC's operation on message `m`, with `s0` as it stood at START, `n` turns from the
end: of the rest only the latest answer changes. -/
inductive EncOperating (s0 : State) (m : List Byte) (n : Nat) : State → Prop
  | intro (e : EncUnit) (r : Option HostWord) : EncProgress s0.enc m n e →
      EncOperating s0 m n ((s0.withEnc e).withResp r)

theorem EncProgress.done {e0 e : EncUnit} {m : List Byte} (h : EncProgress e0 m 0 e) :
    e.st = .done := by
  cases h with
  | finished hdone => exact hdone

/-- No turn of an operation on a message meets a cell without a value. -/
theorem EncProgress.turn {e0 : EncUnit} {m : List Byte} {n : Nat} {s : State}
    (hm : messageIs e0.ibuf e0.ilen m) (h : EncProgress e0 m (n + 1) s.enc) :
    ∃ e, encTurn runWord s = .next (s.withEnc e) ∧ EncProgress e0 m n e := by
  rcases encTurn_progress s with ⟨t, ht⟩ | ⟨a, -, -, ha, hnone⟩
  · obtain ⟨e, hmove, rfl⟩ := encTurn_next ht
    exact ⟨e, ht, h.move hm hmove⟩
  · cases h with
    | running _ hibuf hilen =>
      rw [hibuf] at hnone
      exact absurd hnone (hm.read_ne_none (hilen ▸ ha))

theorem encOperation {s0 : State} {m : List Byte} (hr : s0.ready = true)
    (hm : messageIs s0.enc.ibuf s0.enc.ilen m) : Operation .enc (EncOperating s0 m) where
  ready := fun ⟨_, _, _⟩ => hr
  busy := fun ⟨_, _, h⟩ => h.busy
  done := fun ⟨_, _, h⟩ => h.done
  answered v := fun ⟨e, _, h⟩ => ⟨e, some v, h⟩
  turn := fun ⟨e, r, h⟩ => by
    obtain ⟨e', hturn, h'⟩ := h.turn (s := (s0.withEnc e).withResp r) hm
    exact ⟨_, (stepEvent_encTurn (s := (s0.withEnc e).withResp r) hr).trans hturn, e', r, h'⟩

theorem WrittenUpTo.readCells {m0 m : Memory} {out : List Byte}
    (h : WrittenUpTo m0 out out.length m) : m.readCells 0 out.length = .ok out :=
  Memory.readCells_eq_ok_iff.2 ⟨rfl, fun i hi => by
    rw [Nat.zero_add, h i, if_pos hi, List.getElem?_eq_getElem hi]⟩

/-- The text of a message fits OBUF (20_memory.md R71). -/
theorem encoded_fits {lenw : Nat} {b : List Byte} (hl : Config.legalLenw lenw)
    (hb : b.length < 2 ^ lenw) : (b64Encode b).length ≤ obufCells lenw := by
  have h4 : 2 ^ 2 ≤ 2 ^ lenw := Nat.pow_le_pow_right (by decide) hl.1
  rw [b64Encode_length, groupCount, obufCells, Nat.pow_succ]
  omega

theorem EncOperating.start (s : State) (m : List Byte) :
    EncOperating s m (groupCount s.enc.ilen + 1) (ackWrite (startEnc (ackWrite s))) :=
  ⟨_, none, EncProgress.start s.enc m⟩

/-- LOAD and START. -/
theorem issueAll_loadStartEnc {b : List Byte} {s : State} (hl : Config.legalLenw s.lenw)
    (hr : s.ready = true) (hb : s.enc.st ≠ .busy) (hlen : b.length < 2 ^ s.lenw) :
    issueAll (macroLoad .enc b ++ macroStart .enc) s =
      .next (ackWrite (startEnc (ackWrite (loaded .enc b s)))) :=
  (issueAll_macroLoad .enc _ hl hr hb hlen).trans
    (issueAll_cons (issue_startEnc (s := ackWrite (loaded .enc b s)) hr hb))

/-- Settles O59: LOAD and START begin the operation on the message, WAIT polls it to its end and
FETCH reads the text it has written. -/
theorem encodeMacroReturnsEncode : Obligations.EncodeMacroReturnsEncode := by
  intro s b fuel hl hr hb hlen hfuel
  have op := encOperation (s0 := loaded .enc b s) hr (messageIs_loaded .enc b s)
  obtain ⟨_, hwait, e, r, hend⟩ := op.macroWait hfuel (EncOperating.start (loaded .enc b s) b)
  cases hend with
  | finished hdone hibuf hilen hgp holen hout =>
    have hlength : 4 * e.gp = (b64Encode b).length := by
      rw [hgp, b64Encode_length]
      rfl
    rw [hlength] at holen hout
    obtain ⟨r', hfetch⟩ := macroFetch_eq (u := .enc) (s := ((loaded .enc b s).withEnc e).withResp r)
      hl hr (by simp [hdone]) holen (encoded_fits hl hlen) hout.readCells
    refine ⟨((loaded .enc b s).withEnc e).withResp r', ?_, hdone, rfl, rfl⟩
    simp only [macroEncode, issueAll_loadStartEnc hl hr hb hlen, hwait, hfetch]
    rfl

/-! ## The host program DECODE -/

/-- Four cells of a message hold four characters. -/
theorem messageIs.readQuad {m : Memory} {n a : Nat} {t : List Byte} (ht : messageIs m n t)
    (ha : a + 4 ≤ n) : ∃ c0 c1 c2 c3, m.readCells a 4 = .ok [c0, c1, c2, c3] := by
  cases hr : m.readCells a 4 with
  | error x =>
    obtain ⟨-, hlt, hnone⟩ := Memory.readCells_eq_error hr
    exact absurd hnone (ht.read_ne_none (by omega))
  | ok bs =>
    obtain ⟨c0, c1, c2, c3, rfl⟩ := Memory.readCells_four hr
    exact ⟨c0, c1, c2, c3, rfl⟩

theorem DecProgress.done {d0 d : DecUnit} {m : List Byte} (h : DecProgress d0 m 0 d) :
    d.st = .done := by
  cases h with
  | decoded _ hdone | raised _ hdone => exact hdone

/-- A turn with a quad to do runs DecQuad of that quad of the text, in a state that meets the
precondition. -/
theorem decTurn_quadOfText {s : State} {m : List Byte} (hm : messageIs s.dec.ibuf s.dec.ilen m)
    (hb : s.dec.st = .busy) (hp : s.dec.phase ≠ .lenchk) (hg : s.dec.gp < quadCount s.dec.ilen) :
    ∃ t, decStepPre t.dec ∧ t.dec.phase = s.dec.phase ∧
      decTurn runWord s = finishQuad (quadOfText m s.dec.gp) t := by
  obtain ⟨c0, c1, c2, c3, hr⟩ := hm.readQuad (a := 4 * s.dec.gp) (by unfold quadCount at hg; omega)
  refine ⟨s.withDec (decLatched s.dec c0 c1 c2 c3), ⟨hb, hp, hg⟩, rfl,
    (decTurn_quad hb hp hg).trans ?_⟩
  rw [decQuadStep_eq s c0 c1 c2 c3 hr, decQuad_of_message hm hg hr]

/-- Every turn of an operation on a text answers a next state: no cell is without a value and
DecQuad rejects none of the quads in the DECODE phase. -/
theorem DecProgress.completes {d0 : DecUnit} {m : List Byte} {n : Nat} {s : State}
    (hm : messageIs d0.ibuf d0.ilen m) (h : DecProgress d0 m (n + 1) s.dec) :
    ∃ t, decTurn runWord s = .next t := by
  have input : DecRunning d0 s.dec → messageIs s.dec.ibuf s.dec.ilen m := fun hrun => by
    rwa [hrun.ibuf, hrun.ilen]
  cases h with
  | lenchk hrun hp => exact ⟨_, decTurn_lenchk hrun.busy hp⟩
  | validate hrun hp =>
    by_cases hg : s.dec.gp < quadCount s.dec.ilen
    · obtain ⟨t, hpre, hphase, hturn⟩ :=
        decTurn_quadOfText (input hrun) hrun.busy (by simp [hp]) hg
      rw [hturn, finishQuad_validate hpre (hphase.trans hp)]
      cases quadOfText m s.dec.gp <;> exact ⟨_, rfl⟩
    · exact ⟨_, decTurn_vend hrun.busy hp hg⟩
  | decode hrun hp hres =>
    by_cases hg : s.dec.gp < quadCount s.dec.ilen
    · obtain ⟨t, hpre, hphase, hturn⟩ :=
        decTurn_quadOfText (input hrun) hrun.busy (by simp [hp]) hg
      obtain ⟨-, -, hquads⟩ := b64Decode_bytes hres
      rw [hturn, finishQuad_decode hpre (hphase.trans hp), hquads _ ((input hrun).length ▸ hg)]
      exact ⟨_, rfl⟩
    · exact ⟨_, decTurn_dend hrun.busy hp hg⟩

theorem DecProgress.turn {d0 : DecUnit} {m : List Byte} {n : Nat} {s : State}
    (hm : messageIs d0.ibuf d0.ilen m) (h : DecProgress d0 m (n + 1) s.dec) :
    ∃ d, decTurn runWord s = .next (s.withDec d) ∧ DecProgress d0 m n d := by
  obtain ⟨t, ht⟩ := h.completes hm
  obtain ⟨d, hmove, rfl⟩ := decTurn_next ht
  exact ⟨d, ht, h.move hm hmove⟩

/-- The states of DEC's operation on text `m`, with `s0` as it stood at START, `n` turns from the
end: of the rest only the latest answer changes. -/
inductive DecOperating (s0 : State) (m : List Byte) (n : Nat) : State → Prop
  | intro (d : DecUnit) (r : Option HostWord) : DecProgress s0.dec m n d →
      DecOperating s0 m n ((s0.withDec d).withResp r)

theorem decOperation {s0 : State} {m : List Byte} (hr : s0.ready = true)
    (hm : messageIs s0.dec.ibuf s0.dec.ilen m) : Operation .dec (DecOperating s0 m) where
  ready := fun ⟨_, _, _⟩ => hr
  busy := fun ⟨_, _, h⟩ => h.busy
  done := fun ⟨_, _, h⟩ => h.done
  answered v := fun ⟨d, _, h⟩ => ⟨d, some v, h⟩
  turn := fun ⟨d, r, h⟩ => by
    obtain ⟨d', hturn, h'⟩ := h.turn (s := (s0.withDec d).withResp r) hm
    exact ⟨_, (stepEvent_decTurn (s := (s0.withDec d).withResp r) hr).trans hturn, d', r, h'⟩

theorem DecOperating.start (s : State) (m : List Byte) :
    DecOperating s m (decodeTurns m) (ackWrite (startDec (ackWrite s))) :=
  ⟨_, none, DecProgress.start s.dec m⟩

/-- LOAD and START. -/
theorem issueAll_loadStartDec {m : List Byte} {s : State} (hl : Config.legalLenw s.lenw)
    (hr : s.ready = true) (hb : s.dec.st ≠ .busy) (hlen : m.length < 2 ^ (s.lenw + 1)) :
    issueAll (macroLoad .dec m ++ macroStart .dec) s =
      .next (ackWrite (startDec (ackWrite (loaded .dec m s)))) :=
  (issueAll_macroLoad .dec _ hl hr hb hlen).trans
    (issueAll_cons (issue_startDec (s := ackWrite (loaded .dec m s)) hr hb))

/-- No text takes more turns than a valid one of its length (42_sequencer_and_host.md R212). -/
theorem decodeTurns_le (m : List Byte) : decodeTurns m ≤ 2 * quadCount m.length + 3 := by
  by_cases hlen : m.length % 4 = 0
  · cases hres : b64Decode m with
    | bytes b => exact (decodeTurns_bytes hres).le
    | formatError c q =>
      obtain ⟨hq, -, -⟩ := b64Decode_error hlen hres
      rw [decodeTurns_error hlen hres]
      omega
  · rw [decodeTurns_badLen hlen]
    omega

/-- The bytes of a text fit OBUF (20_memory.md R71). -/
theorem decoded_fits {lenw : Nat} {m b : List Byte} (hm : m.length < 2 ^ (lenw + 1))
    (h : b64Decode m = .bytes b) : b.length ≤ obufCells lenw := by
  obtain ⟨-, hle, -⟩ := b64Decode_bytes h
  unfold quadCount at hle
  unfold obufCells
  omega

/-- STATUS bit 2 is ERR and bits 6:4 are the code of CAUSE (10_state.md R32). -/
theorem statusOf_error (s : State) : (statusOf .dec s).getLsbD 2 = s.dec.err ∧
    (statusOf .dec s).extractLsb' 4 3 = causeCode s.dec.cause :=
  have ⟨_, _, herr, _, hcause, _⟩ := statusWord_bits s.dec.st s.dec.err s.dec.cause
  ⟨herr, hcause⟩

/-- Settles O60: LOAD and START begin the operation on the text, WAIT polls it to its end; STATUS
there has the cause of a FormatError, else FETCH reads the bytes. -/
theorem decodeMacroReturnsDecode : Obligations.DecodeMacroReturnsDecode := by
  intro s m fuel hl hr hb hlen hfuel
  have op := decOperation (s0 := loaded .dec m s) hr (messageIs_loaded .dec m s)
  have hturns : decodeTurns m < fuel := (Nat.lt_succ_of_le (decodeTurns_le m)).trans_le hfuel
  obtain ⟨_, hwait, d, r, hend⟩ := op.macroWait hturns (DecOperating.start (loaded .dec m s) m)
  obtain ⟨herrBit, hcauseBits⟩ := statusOf_error (((loaded .dec m s).withDec d).withResp r)
  cases hend with
  | decoded hres hdone hibuf hilen herr hcause holen hgp hout =>
    rw [holen] at hout
    obtain ⟨r', hfetch⟩ := macroFetch_eq (u := .dec) (s := ((loaded .dec m s).withDec d).withResp r)
      hl hr (by simp [hdone]) holen (decoded_fits hlen hres) hout.readCells
    refine ⟨((loaded .dec m s).withDec d).withResp r', ?_, hdone, rfl, rfl⟩
    simp only [macroDecode, issueAll_loadStartDec hl hr hb hlen, hwait, herrBit.trans herr, hfetch,
      hres]
    rfl
  | raised hres hdone hibuf hilen herr hcause holen hgp hobuf =>
    refine ⟨((loaded .dec m s).withDec d).withResp r, ?_, hdone, rfl, rfl⟩
    simp only [macroDecode, issueAll_loadStartDec hl hr hb hlen, hwait, herrBit.trans herr,
      hcauseBits.trans (congrArg _ hcause), hres]
    rfl

end Sys2Proof.Machine

namespace Sys2Proof.Machine

/-! # The functions `encode` and `decode` (40_encoder.md, 41_decoder.md) -/

/-! ## The quad function inverts the group function -/

section
variable {v0 v1 v2 v3 : Idx} {bs : List Byte}

/-- The word of a four-data quad is the group of three bytes (40_encoder.md R121, 41_decoder.md
R151). -/
theorem quadBytes4_eq_ok_iff : quadBytes4 v0 v1 v2 v3 = .ok bs ↔
    bs.length = 3 ∧ encGroup bs = [alphabet v0, alphabet v1, alphabet v2, alphabet v3] := by
  match bs with
  | [b0, b1, b2] =>
    simp only [quadBytes4, encGroup, groupChars3, QuadResult.ok.injEq, List.cons.injEq,
      alphabet_injective.eq_iff, ← BitVec.toNat_inj, toNat_extract, toNat_append, List.length_cons,
      List.length_nil, and_true, true_and]
    omega
  | [] | [_] | [_, _] | _ :: _ :: _ :: _ :: _ => simp [quadBytes4]

/-- With the discarded bits 0 it is the group of two bytes (40_encoder.md R122, 41_decoder.md
R152). -/
theorem quadBytes3_eq_ok_iff : quadBytes3 v0 v1 v2 = .ok bs ↔
    bs.length = 2 ∧ encGroup bs = [alphabet v0, alphabet v1, alphabet v2, padChar] := by
  match bs with
  | [b0, b1] =>
    simp only [quadBytes3, ite_eq_iff, encGroup, groupChars2, QuadResult.ok.injEq, List.cons.injEq,
      alphabet_injective.eq_iff, ← BitVec.toNat_inj, toNat_extract, toNat_append,
      BitVec.ofNat_eq_ofNat, BitVec.toNat_ofNat, List.length_cons, List.length_nil, reduceCtorEq,
      and_true, true_and, and_false, or_false, Nat.pow_zero, Nat.div_one]
    omega
  | [] | [_] | _ :: _ :: _ :: _ => simp [quadBytes3, ite_eq_iff]

/-- With the discarded bits 0 it is the group of one byte (40_encoder.md R123, 41_decoder.md
R153). -/
theorem quadBytes2_eq_ok_iff : quadBytes2 v0 v1 = .ok bs ↔
    bs.length = 1 ∧ encGroup bs = [alphabet v0, alphabet v1, padChar, padChar] := by
  match bs with
  | [b0] =>
    simp only [quadBytes2, ite_eq_iff, encGroup, groupChars1, QuadResult.ok.injEq, List.cons.injEq,
      alphabet_injective.eq_iff, ← BitVec.toNat_inj, toNat_extract, toNat_append,
      BitVec.ofNat_eq_ofNat, BitVec.toNat_ofNat, List.length_cons, List.length_nil, reduceCtorEq,
      and_true, true_and, and_false, or_false, Nat.pow_zero, Nat.div_one]
    omega
  | [] | _ :: _ :: _ => simp [quadBytes2, ite_eq_iff]

end

theorem quadReject_ne_ok {k0 k1 k2 k3 : Kls} {bs : List Byte} :
    quadReject k0 k1 k2 k3 ≠ .ok bs := by
  unfold quadReject
  split <;> nofun

/-- DecQuad accepts exactly what EncGroup makes, and a quad before the final one only from a full
group (40_encoder.md R120, 41_decoder.md R150). -/
theorem decQuad_eq_ok_iff {final : Bool} {c0 c1 c2 c3 : Byte} {bs : List Byte} :
    decQuad final c0 c1 c2 c3 = .ok bs ↔
      encGroup bs = [c0, c1, c2, c3] ∧ bs.length ≤ 3 ∧ (final = false → bs.length = 3) := by
  constructor
  · intro h
    unfold decQuad at h
    split at h
    · next h0 h1 h2 h3 =>
      obtain ⟨hlen, henc⟩ := quadBytes4_eq_ok_iff.1 h
      rw [henc, alphabet_of_rev h0, alphabet_of_rev h1, alphabet_of_rev h2, alphabet_of_rev h3]
      exact ⟨rfl, hlen.le, fun _ => hlen⟩
    · next h0 h1 h2 h3 =>
      obtain ⟨hlen, henc⟩ := quadBytes3_eq_ok_iff.1 h
      rw [henc, alphabet_of_rev h0, alphabet_of_rev h1, alphabet_of_rev h2, padChar_of_rev h3]
      exact ⟨rfl, by omega, nofun⟩
    · next h0 h1 h2 h3 =>
      obtain ⟨hlen, henc⟩ := quadBytes2_eq_ok_iff.1 h
      rw [henc, alphabet_of_rev h0, alphabet_of_rev h1, padChar_of_rev h2, padChar_of_rev h3]
      exact ⟨rfl, by omega, nofun⟩
    · exact absurd h quadReject_ne_ok
  · rintro ⟨henc, hlen, hfull⟩
    match bs with
    | [_, _, _] =>
      cases henc
      simp only [decQuad, rev_alphabet]
      exact quadBytes4_eq_ok_iff.2 ⟨rfl, rfl⟩
    | [_, _] =>
      obtain rfl : final = true := Bool.of_not_eq_false fun h => nomatch hfull h
      cases henc
      simp only [decQuad, rev_alphabet, rev_padChar]
      exact quadBytes3_eq_ok_iff.2 ⟨rfl, rfl⟩
    | [_] =>
      obtain rfl : final = true := Bool.of_not_eq_false fun h => nomatch hfull h
      cases henc
      simp only [decQuad, rev_alphabet, rev_padChar]
      exact quadBytes2_eq_ok_iff.2 ⟨rfl, rfl⟩

/-! ## `decode` inverts `encode` (40_encoder.md R132, 41_decoder.md R166) -/

/-- A group before the rest of a message; only the last group may be partial. -/
theorem b64Encode_group_append {bs rest : List Byte} (hlen : bs.length ≤ 3)
    (h : bs.length = 3 ∨ rest = []) : b64Encode (bs ++ rest) = encGroup bs ++ b64Encode rest := by
  rcases h with h3 | rfl
  · match bs, h3 with
    | [_, _, _], _ => rfl
  · match bs with
    | [] | [_] | [_, _] | [_, _, _] => rfl

theorem decodeQuads_b64Encode (n : Nat) (b : List Byte) :
    decodeQuads n (b64Encode b) = .bytes b := by
  induction b using b64Encode.induct generalizing n with
  | case1 => rfl
  | case2 b0 =>
    exact decodeQuads_bytes_iff.2 ⟨[b0], [], decQuad_eq_ok_iff.2 ⟨rfl, by simp, nofun⟩, rfl, rfl⟩
  | case3 b0 b1 =>
    exact decodeQuads_bytes_iff.2
      ⟨[b0, b1], [], decQuad_eq_ok_iff.2 ⟨rfl, by simp, nofun⟩, rfl, rfl⟩
  | case4 b0 b1 b2 rest ih =>
    exact decodeQuads_bytes_iff.2
      ⟨[b0, b1, b2], rest, decQuad_eq_ok_iff.2 ⟨rfl, le_rfl, fun _ => rfl⟩, ih _, rfl⟩

/-- The accepted quads are the groups' characters, so the accepted text is the bytes' encoding. -/
theorem eq_b64Encode_of_decodeQuads : ∀ {n : Nat} {t b : List Byte},
    decodeQuads n t = .bytes b → t = b64Encode b
  | _, [], _, h => by cases h; rfl
  | n, c0 :: c1 :: c2 :: c3 :: rest, _, h => by
    obtain ⟨bs, bs', hq, htail, rfl⟩ := decodeQuads_bytes_iff.1 h
    obtain ⟨henc, hlen, hfull⟩ := decQuad_eq_ok_iff.1 hq
    have hlast : bs.length = 3 ∨ bs' = [] := by
      cases rest with
      | nil => cases htail; exact .inr rfl
      | cons c rest => exact .inl (hfull rfl)
    rw [b64Encode_group_append hlen hlast, henc, ← eq_b64Encode_of_decodeQuads htail]
    rfl
  | _, [_], _, h | _, [_, _], _, h | _, [_, _, _], _, h => nomatch h

theorem b64Decode_b64Encode (b : List Byte) : b64Decode (b64Encode b) = .bytes b := by
  rw [b64Decode_of_length (by rw [b64Encode_length, Nat.mul_mod_right]), decodeQuads_b64Encode]

theorem b64Decode_eq_bytes_iff {t b : List Byte} : b64Decode t = .bytes b ↔ t = b64Encode b := by
  constructor
  · intro h
    obtain ⟨hlen, -, -⟩ := b64Decode_bytes h
    exact eq_b64Encode_of_decodeQuads ((b64Decode_of_length hlen).symm.trans h)
  · rintro rfl
    exact b64Decode_b64Encode b

/-- Settles O9: decoding is a left inverse of encoding. -/
theorem decodeOfEncodeIsIdentity : Obligations.DecodeOfEncodeIsIdentity :=
  ⟨b64Decode_b64Encode, fun b b' h => DecodeResult.bytes.inj <|
    calc .bytes b = b64Decode (b64Encode b) := (b64Decode_b64Encode b).symm
      _ = b64Decode (b64Encode b') := congrArg b64Decode h
      _ = .bytes b' := b64Decode_b64Encode b'⟩

/-- Settles O10: both texts are the encoding of their bytes. -/
theorem acceptedTextsAreTheEncodings : Obligations.AcceptedTextsAreTheEncodings :=
  ⟨fun _ _ => b64Decode_eq_bytes_iff, fun _ _ _ h h' =>
    (b64Decode_eq_bytes_iff.1 h).trans (b64Decode_eq_bytes_iff.1 h').symm⟩

/-! ## The encode operation, turn by turn -/

/-- `k` turns of an operation that is at least as far from its end. -/
theorem Operation.runTurns {u : UnitId} {P : Nat → State → Prop} (op : Operation u P) {n k : Nat}
    {s : State} (h : P (n + k) s) : ∃ t, runTurns u k s = .next t ∧ P n t := by
  induction k generalizing s with
  | zero => exact ⟨s, rfl, h⟩
  | succ k ih =>
    obtain ⟨t, hturn, ht⟩ := op.turn h
    rw [Machine.runTurns, hturn]
    exact ih ht

theorem exec_encStart {s : State} (hb : s.enc.st ≠ .busy) :
    exec .encStart s = .next (ackWrite (startEnc s)) :=
  congrArg _ (writeUnlessBusy_of_not_busy (u := .enc) hb _)

/-- Settles O54: START begins the operation on the message, `ceil(n/3) + 1` turns from its end. -/
theorem encodeOperation : Obligations.EncodeOperation := by
  intro s m hr hb hm
  have op := encOperation hr hm
  have hstart : EncOperating s m (groupCount s.enc.ilen + 1) (ackWrite (startEnc s)) :=
    EncOperating.start s m
  refine ⟨_, exec_encStart hb, fun k hk => ?_, ?_⟩
  · obtain ⟨j, hj⟩ := Nat.exists_eq_add_of_le' hk
    obtain ⟨t, hrun, ht⟩ := op.runTurns (n := j + 1) (k := k)
      (by rwa [Nat.add_right_comm, ← hj])
    exact ⟨t, hrun, op.busy ht⟩
  · obtain ⟨_, hrun, e, r, hend⟩ := op.runTurns (n := 0) (by rwa [Nat.zero_add])
    refine ⟨_, hrun, ?_⟩
    cases hend with
    | finished hdone hibuf hilen hgp holen hout =>
      rw [← holen] at hout
      refine ⟨hdone, hibuf, hilen, holen.trans (congrArg _ hgp), hgp, fun i hlt => ?_,
        fun i hge => ?_, rfl⟩
      · exact (hout i).trans (if_pos hlt)
      · exact (hout i).trans (if_neg (Nat.not_lt.2 hge))

/-! ## Laws of the text (40_encoder.md R125 to R129, R134) -/

/-- Settles O6: past the first `g` groups the text is the encoding of what follows them, which
begins with EncGroup of its first group. -/
theorem encodeIsGroupByGroup : Obligations.EncodeIsGroupByGroup := by
  refine fun b => ⟨b64Encode_length b, fun g hg => ?_⟩
  have hne : (b.drop (3 * g)).take 3 ≠ [] := by
    rw [← List.length_pos_iff, List.length_take, List.length_drop]
    omega
  rw [b64Encode_drop, ← encGroup_length hne]
  exact (List.prefix_iff_eq_take.1 (encGroup_prefix _)).symm

/-- The text is data characters with the padding after them (40_encoder.md R128, R129). -/
theorem b64Encode_eq_data_append_padding (b : List Byte) : ∃ d : List Idx,
    b64Encode b = d.map alphabet ++ List.replicate ((3 - b.length % 3) % 3) padChar := by
  induction b using b64Encode.induct with
  | case1 => exact ⟨[], rfl⟩
  | case2 => exact ⟨[_, _], rfl⟩
  | case3 => exact ⟨[_, _, _], rfl⟩
  | case4 b0 b1 b2 rest ih =>
    obtain ⟨d, hd⟩ := ih
    obtain ⟨q, hq⟩ : ∃ q : List Idx, groupChars3 b0 b1 b2 = q.map alphabet := ⟨[_, _, _, _], rfl⟩
    refine ⟨q ++ d, ?_⟩
    have hlen : (b0 :: b1 :: b2 :: rest).length % 3 = rest.length % 3 :=
      Nat.add_mod_right rest.length 3
    rw [b64Encode, hq, hd, hlen, List.map_append, List.append_assoc]

/-- Data characters are no padding. -/
theorem count_padChar_map_alphabet (d : List Idx) : (d.map alphabet).count padChar = 0 :=
  List.count_eq_zero.2 fun h =>
    have ⟨i, _, hi⟩ := List.mem_map.1 h
    alphabet_ne_padChar i hi

theorem b64Encode_count_padChar (b : List Byte) :
    (b64Encode b).count padChar = (3 - b.length % 3) % 3 := by
  obtain ⟨d, hd⟩ := b64Encode_eq_data_append_padding b
  rw [hd, List.count_append, count_padChar_map_alphabet, List.count_replicate_self, Nat.zero_add]

/-- The text ends in as many `=` as it holds and no more. -/
theorem replicate_padChar_suffix_iff {b : List Byte} {k : Nat} :
    List.replicate k padChar <:+ b64Encode b ↔ k ≤ (3 - b.length % 3) % 3 := by
  constructor
  · intro h
    simpa [b64Encode_count_padChar] using h.sublist.count_le padChar
  · intro h
    obtain ⟨d, hd⟩ := b64Encode_eq_data_append_padding b
    obtain ⟨j, hj⟩ := Nat.exists_eq_add_of_le' h
    rw [hd, hj, List.replicate_add, ← List.append_assoc]
    exact List.suffix_append _ _

/-- Settles O7: `=` and `==` at the end are one and two of the `=` that end the text. -/
theorem paddingLaw : Obligations.PaddingLaw := by
  intro b
  have hone : [padChar] <:+ b64Encode b ↔ 1 ≤ (3 - b.length % 3) % 3 :=
    replicate_padChar_suffix_iff (k := 1)
  have htwo : [padChar, padChar] <:+ b64Encode b ↔ 2 ≤ (3 - b.length % 3) % 3 :=
    replicate_padChar_suffix_iff (k := 2)
  rw [hone, htwo]
  exact ⟨by omega, by omega, by omega, b64Encode_count_padChar b⟩

theorem alphabet_bit_seven (i : Idx) : (alphabet i).getLsbD 7 = false := by
  revert i; decide

/-- Settles O8: each character is of the data or of the padding. -/
theorem outputAlphabetClosure : Obligations.OutputAlphabetClosure := by
  intro b c hc
  obtain ⟨d, hd⟩ := b64Encode_eq_data_append_padding b
  rw [hd, List.mem_append] at hc
  rcases hc with hdata | hpad
  · obtain ⟨i, -, rfl⟩ := List.mem_map.1 hdata
    exact ⟨.inl ⟨i, rfl⟩, alphabet_bit_seven i⟩
  · obtain rfl := List.eq_of_mem_replicate hpad
    exact ⟨.inr rfl, rfl⟩

/-- Full groups before the rest of a message (40_encoder.md R134). -/
theorem b64Encode_append {x : List Byte} (hx : x.length % 3 = 0) (y : List Byte) :
    b64Encode (x ++ y) = b64Encode x ++ b64Encode y := by
  induction x using b64Encode.induct with
  | case1 => rfl
  | case2 | case3 => cases hx
  | case4 b0 b1 b2 rest ih =>
    have hrest : rest.length % 3 = 0 := (Nat.add_mod_right rest.length 3).symm.trans hx
    rw [List.cons_append, List.cons_append, List.cons_append, b64Encode, ih hrest, b64Encode,
      List.append_assoc]

/-- Settles O11: the text of `[0]` and `[0]` has padding before its final quad, so it is no
encoding of anything. -/
theorem encodeOfConcatenation : Obligations.EncodeOfConcatenation := by
  have hpad : b64Decode (b64Encode [0] ++ b64Encode [0]) = .formatError .badPad 0 := by decide
  have hinvalid : ∀ b, b64Decode (b64Encode [0] ++ b64Encode [0]) ≠ .bytes b := by
    rw [hpad]
    nofun
  exact ⟨fun x y hx => b64Encode_append hx y,
    fun h => hinvalid _ (b64Decode_eq_bytes_iff.2 h.symm), hinvalid⟩

end Sys2Proof.Machine

namespace Sys2Proof.Machine

/-! # The decode operation, turn by turn -/

/-- An operation is BUSY before its last turn. -/
theorem Operation.runTurns_busy {u : UnitId} {P : Nat → State → Prop} (op : Operation u P)
    {n k : Nat} {s : State} (h : P n s) (hk : k < n) :
    ∃ t, Machine.runTurns u k s = .next t ∧ stOf u t = .busy := by
  obtain ⟨j, rfl⟩ : ∃ j, n = j + 1 + k := ⟨n - (k + 1), by omega⟩
  obtain ⟨t, hrun, ht⟩ := op.runTurns h
  exact ⟨t, hrun, op.busy ht⟩

theorem exec_decStart {s : State} (hb : s.dec.st ≠ .busy) :
    exec .decStart s = .next (ackWrite (startDec s)) :=
  congrArg _ (writeUnlessBusy_of_not_busy (u := .dec) hb _)

/-- Settles O55: START begins the operation on the text, `decodeTurns` turns from its end, which is
that of `decode` of the text. -/
theorem decodeOperation : Obligations.DecodeOperation := by
  intro s m hr hb hm
  have op := decOperation hr hm
  have hstart : DecOperating s m (decodeTurns m) (ackWrite (startDec s)) := DecOperating.start s m
  have hbusy : ∀ k < decodeTurns m, ∃ t, runTurns .dec k (ackWrite (startDec s)) = .next t ∧
      t.dec.st = .busy := fun k hk => op.runTurns_busy hstart hk
  obtain ⟨_, hrun, d, r, hend⟩ := op.runTurns (n := 0) (k := decodeTurns m)
    (by rwa [Nat.zero_add])
  refine ⟨_, exec_decStart hb, ?_⟩
  cases hend with
  | decoded hres hdone hibuf hilen herr hcause holen hgp hout =>
    rw [holen] at hout
    rw [decodeTurns_bytes hres, hm.length, quadCount] at hrun hbusy
    rw [quadCount, hm.length] at hgp
    rw [hres]
    refine ⟨fun k hk => hbusy k (Nat.lt_succ_of_le hk), _, hrun, hdone, herr, hcause, hibuf, hilen,
      holen, hgp, fun i hlt => ?_, fun i hge => ?_, rfl⟩
    · exact (hout i).trans (if_pos hlt)
    · exact (hout i).trans (if_neg (Nat.not_lt.2 hge))
  | raised hres hdone hibuf hilen herr hcause holen hgp hobuf =>
    rw [decodeTurns, hres] at hrun hbusy
    rw [hres]
    exact ⟨hbusy, _, hrun, hdone, herr, hcause, hibuf, hilen, holen, hgp, hobuf, rfl⟩

end Sys2Proof.Machine

namespace Sys2Proof.Machine

/-! # Texts that `decode` accepts and rejects (41_decoder.md) -/

/-! ## Quads with padding -/

/-- The low `k` bits of a word are 0 in the multiples of `2 ^ k`. -/
theorem extractLow_eq_zero_iff {n : Nat} (v : BitVec n) (k : Nat) :
    v.extractLsb' 0 k = 0 ↔ v.toNat % 2 ^ k = 0 := by
  rw [← BitVec.toNat_inj, toNat_extract, Nat.pow_zero, Nat.div_one]
  rfl

/-- A byte of a word as a number. -/
theorem extractByte_eq {n : Nat} (w : BitVec n) (i : Nat) {m : Nat}
    (h : w.toNat / 2 ^ i % 2 ^ 8 = m % 2 ^ 8) : w.extractLsb' i 8 = BitVec.ofNat 8 m := by
  apply BitVec.eq_of_toNat_eq
  rw [toNat_extract, BitVec.toNat_ofNat, h]

/-- The two bytes of a quad with one pad, whose last index has its low bits discarded
(41_decoder.md R152). -/
theorem quadBytes3_eq (v0 v1 v2 : Idx) : quadBytes3 v0 v1 v2 =
    if v2.toNat % 4 = 0 then
      .ok [BitVec.ofNat 8 (v0.toNat * 4 + v1.toNat / 16),
        BitVec.ofNat 8 (v1.toNat % 16 * 16 + v2.toNat / 4)]
    else .reject .nonCanon := by
  have hw : (v0 ++ v1 ++ v2).toNat = v0.toNat * 2 ^ 12 + v1.toNat * 2 ^ 6 + v2.toNat := by
    rw [toNat_append, toNat_append]
    omega
  have low : (v0 ++ v1 ++ v2).extractLsb' 0 2 = 0 ↔ v2.toNat % 4 = 0 := by
    rw [extractLow_eq_zero_iff]
    omega
  rw [← extractByte_eq (v0 ++ v1 ++ v2) 10 (by omega),
    ← extractByte_eq (v0 ++ v1 ++ v2) 2 (by omega), quadBytes3]
  simp only [low]

/-- The byte of a quad with two pads (41_decoder.md R153). -/
theorem quadBytes2_eq (v0 v1 : Idx) : quadBytes2 v0 v1 =
    if v1.toNat % 16 = 0 then .ok [BitVec.ofNat 8 (v0.toNat * 4 + v1.toNat / 16)]
    else .reject .nonCanon := by
  have hw : (v0 ++ v1).toNat = v0.toNat * 2 ^ 6 + v1.toNat := toNat_append v0 v1
  have low : (v0 ++ v1).extractLsb' 0 4 = 0 ↔ v1.toNat % 16 = 0 := by
    rw [extractLow_eq_zero_iff]
    omega
  rw [← extractByte_eq (v0 ++ v1) 4 (by omega), quadBytes2]
  simp only [low]

theorem quadReject_eq (k0 k1 k2 k3 : Kls) : quadReject k0 k1 k2 k3 =
    .reject (if Kls.X ∈ [k0, k1, k2, k3] then .badChar else .badPad) := by
  have hmem : Kls.X ∈ [k0, k1, k2, k3] ↔ k0 = .X ∨ k1 = .X ∨ k2 = .X ∨ k3 = .X := by
    simp [eq_comm]
  rw [quadReject]
  simp only [hmem]
  split <;> rfl

section
variable {s : State} (hb : s.dec.st = .busy) (hg : s.dec.gp < s.dec.ilen / 4)
include hb hg

/-- Validating a rejected quad raises its cause (42_sequencer_and_host.md R196). -/
theorem finishQuad_rejected (hp : s.dec.phase = .validate) (c : Cause) :
    finishQuad (.reject c) s = .next (s.withDec { s.dec with
      err := true, cause := c, olen := 0, st := .done }) :=
  finishQuad_validate ⟨hb, by simp [hp], hg⟩ hp _

/-- A quad whose discarded bits are checked: `p` says they are 0 (42_sequencer_and_host.md R196,
R197). -/
theorem finishQuad_checked (p : Prop) [Decidable p] (bs : List Byte) :
    let r : QuadResult := if p then .ok bs else .reject .nonCanon
    (s.dec.phase = .validate → p →
      finishQuad r s = .next (s.withDec { s.dec with gp := s.dec.gp + 1 })) ∧
    (s.dec.phase = .validate → ¬ p → finishQuad r s = .next (s.withDec { s.dec with
      err := true, cause := .nonCanon, olen := 0, st := .done })) ∧
    (s.dec.phase = .decode → p → finishQuad r s = .next (s.withDec { s.dec with
      obuf := s.dec.obuf.writeCells (3 * s.dec.gp) bs
      olen := 3 * s.dec.gp + bs.length
      gp := s.dec.gp + 1 })) := by
  refine ⟨fun hp hc => ?_, fun hp hc => ?_, fun hp hc => ?_⟩
  · rw [if_pos hc]
    exact finishQuad_validate ⟨hb, by simp [hp], hg⟩ hp _
  · rw [if_neg hc]
    exact finishQuad_rejected hb hg hp _
  · rw [if_pos hc]
    exact finishQuad_decode ⟨hb, by simp [hp], hg⟩ hp _

end

/-- Settles O29: the latched characters select `quadBytes3`. -/
theorem threeDataQuad : Obligations.ThreeDataQuad := by
  intro s c0 c1 c2 v0 v1 v2 hb hg hq h0 h1 h2
  have hexec : exec .decQ3 s = finishQuad (quadBytes3 v0 v1 v2) s := by
    simpa [selectQuadOp, decQuad, h0, h1, h2] using exec_selectQuadOp true c0 c1 c2 padChar hq
  rw [hexec, quadBytes3_eq]
  obtain ⟨haccept, hreject, hwrite⟩ := finishQuad_checked hb hg (v2.toNat % 4 = 0) [_, _]
  have inside := fun x0 x1 i =>
    Memory.read_writeCells_inside s.dec.obuf (3 * s.dec.gp) [x0, x1] (i := i)
  exact ⟨haccept, hreject, fun hp hc => ⟨_, hwrite hp hc, rfl, inside _ _ 0 (by simp),
    inside _ _ 1 (by simp), Memory.writeCells_sameOutside s.dec.obuf _ [_, _]⟩⟩

/-- Settles O30: the latched characters select `quadBytes2`. -/
theorem twoDataQuad : Obligations.TwoDataQuad := by
  intro s c0 c1 v0 v1 hb hg hq h0 h1
  have hexec : exec .decQ2 s = finishQuad (quadBytes2 v0 v1) s := by
    simpa [selectQuadOp, decQuad, h0, h1] using exec_selectQuadOp true c0 c1 padChar padChar hq
  rw [hexec, quadBytes2_eq]
  obtain ⟨haccept, hreject, hwrite⟩ := finishQuad_checked hb hg (v1.toNat % 16 = 0) [_]
  exact ⟨haccept, hreject, fun hp hc => ⟨_, hwrite hp hc, rfl,
    Memory.read_writeCells_inside s.dec.obuf (3 * s.dec.gp) [_] (i := 0) (by simp),
    Memory.writeCells_sameOutside s.dec.obuf _ [_]⟩⟩

/-- Settles O31: DEC.REJ computes `quadReject` of its classes. -/
theorem rejectedQuadRaises : Obligations.RejectedQuadRaises := by
  intro s fin k0 k1 k2 k3 hb hp hg
  rw [exec, execDecRej, quadReject_eq]
  exact finishQuad_rejected hb hg hp _

/-! ## The cause of a rejected quad -/

theorem Class.kls_eq_D_iff {k : Class} : k.kls = .D ↔ ∃ v, k = .D v := by cases k <;> simp

theorem Class.kls_eq_P_iff {k : Class} : k.kls = .P ↔ k = .P := by cases k <;> simp

theorem Class.kls_eq_X_iff {k : Class} : k.kls = .X ↔ k = .X := by cases k <;> simp

/-- An allowed shape has no class X. -/
theorem X_notMem_of_acceptedShape {fin : Bool} {k0 k1 k2 k3 : Kls}
    (h : acceptedShape fin k0 k1 k2 k3 = true) : Kls.X ∉ [k0, k1, k2, k3] := by
  simp only [acceptedShape, Bool.or_eq_true, Bool.and_eq_true, decide_eq_true_eq,
    Prod.mk.injEq] at h
  rcases h with (⟨rfl, rfl, rfl, rfl⟩ | ⟨-, rfl, rfl, rfl, rfl⟩) | ⟨-, rfl, rfl, rfl, rfl⟩ <;> decide

section
variable {final : Bool} {c0 c1 c2 c3 : Byte} {c : Cause}

/-- A quad is rejected for its discarded bits only if its shape is allowed, else for its classes
(41_decoder.md R154). -/
theorem decQuad_reject_cases (h : decQuad final c0 c1 c2 c3 = .reject c) :
    (c = .nonCanon ∧
      acceptedShape final (rev c0).kls (rev c1).kls (rev c2).kls (rev c3).kls = true) ∨
    (quadReject (rev c0).kls (rev c1).kls (rev c2).kls (rev c3).kls = .reject c ∧
      acceptedShape final (rev c0).kls (rev c1).kls (rev c2).kls (rev c3).kls = false) := by
  unfold decQuad at h
  split at h
  · cases h
  · next h0 h1 h2 h3 =>
    rw [quadBytes3_eq] at h
    split at h <;> cases h
    exact .inl ⟨rfl, by simp [acceptedShape, h0, h1, h2, h3]⟩
  · next h0 h1 h2 h3 =>
    rw [quadBytes2_eq] at h
    split at h <;> cases h
    exact .inl ⟨rfl, by simp [acceptedShape, h0, h1, h2, h3]⟩
  · next hQ4 hQ3 hQ2 =>
    refine .inr ⟨h, ?_⟩
    simp only [acceptedShape, Class.kls_eq_D_iff, Class.kls_eq_P_iff, Prod.mk.injEq,
      Bool.or_eq_false_iff, Bool.and_eq_false_imp, decide_eq_false_iff_not]
    exact ⟨⟨fun ⟨⟨v0, h0⟩, ⟨v1, h1⟩, ⟨v2, h2⟩, v3, h3⟩ => hQ4 v0 v1 v2 v3 h0 h1 h2 h3,
      fun hfin ⟨⟨v0, h0⟩, ⟨v1, h1⟩, ⟨v2, h2⟩, h3⟩ => hQ3 v0 v1 v2 h0 h1 h2 h3 hfin⟩,
      fun hfin ⟨⟨v0, h0⟩, ⟨v1, h1⟩, h2, h3⟩ => hQ2 v0 v1 h0 h1 h2 h3 hfin⟩

end

/-! ## The cause of a rejected text (41_decoder.md R170) -/

/-- The first rejected quad gives its cause, whatever comes after it. -/
theorem b64Decode_of_first_reject {t : List Byte} {q : Nat} {c : Cause} (hlen : t.length % 4 = 0)
    (hq : q < quadCount t.length) (hok : ∀ i < q, ∃ bs, quadOfText t i = .ok bs)
    (hrej : quadOfText t q = .reject c) : b64Decode t = .formatError c q := by
  cases hres : b64Decode t with
  | bytes b =>
    obtain ⟨-, -, hquads⟩ := b64Decode_bytes hres
    exact nomatch hrej.symm.trans (hquads q hq)
  | formatError c' q' =>
    obtain ⟨-, hok', hrej'⟩ := b64Decode_error hlen hres
    rcases Nat.lt_trichotomy q q' with hlt | rfl | hgt
    · obtain ⟨bs, hbs⟩ := hok' q hlt
      exact nomatch hrej.symm.trans hbs
    · cases hrej.symm.trans hrej'
      rfl
    · obtain ⟨bs, hbs⟩ := hok q' hgt
      exact nomatch hrej'.symm.trans hbs

/-- Settles O14: the length decides first, then the first rejected quad, in it the classes. -/
theorem firstCauseFoundIsReported : Obligations.FirstCauseFoundIsReported := by
  refine ⟨fun t => b64Decode_badLen, fun t q c hlen hq hok hrej =>
    b64Decode_of_first_reject hlen hq hok hrej, fun final c0 c1 c2 c3 c h => ?_⟩
  have hX : (rev c0 = .X ∨ rev c1 = .X ∨ rev c2 = .X ∨ rev c3 = .X) ↔
      Kls.X ∈ [(rev c0).kls, (rev c1).kls, (rev c2).kls, (rev c3).kls] := by
    simp [eq_comm (a := Kls.X), Class.kls_eq_X_iff]
  simp only [hX]
  rcases decQuad_reject_cases h with ⟨rfl, hshape⟩ | ⟨hrej, hshape⟩
  · rw [if_neg (X_notMem_of_acceptedShape hshape), if_pos hshape]
  · rw [quadReject_eq] at hrej
    rw [hshape]
    exact (QuadResult.reject.inj hrej).symm

/-! ## The length of the bytes -/

/-- Settles O12: the text is the encoding of its bytes, whose length and padding are known. -/
theorem decodedLengthLaw : Obligations.DecodedLengthLaw := by
  intro t b h
  rw [b64Decode_eq_bytes_iff.1 h, b64Encode_count_padChar, b64Encode_length, groupCount]
  omega

/-! ## Validation of the whole text (41_decoder.md R157) -/

/-- The bits a text with `k` pads discards of its last data index `v` are 0. -/
def DiscardedBitsZero (k : Nat) (v : Idx) : Prop :=
  (k = 1 → v.extractLsb' 0 2 = 0) ∧ (k = 2 → v.extractLsb' 0 4 = 0)

@[simp] theorem discardedBitsZero_zero (v : Idx) : DiscardedBitsZero 0 v := ⟨nofun, nofun⟩

@[simp] theorem discardedBitsZero_one (v : Idx) : DiscardedBitsZero 1 v ↔ v.toNat % 4 = 0 :=
  Iff.trans ⟨fun h => h.1 rfl, fun h => ⟨fun _ => h, nofun⟩⟩ (extractLow_eq_zero_iff v 2)

@[simp] theorem discardedBitsZero_two (v : Idx) : DiscardedBitsZero 2 v ↔ v.toNat % 16 = 0 :=
  Iff.trans ⟨fun h => h.2 rfl, fun h => ⟨nofun, fun _ => h⟩⟩ (extractLow_eq_zero_iff v 4)

/-- The first quad is accepted and so is the rest. -/
theorem decodeQuads_accepts_iff {n : Nat} {c0 c1 c2 c3 : Byte} {rest : List Byte} :
    (∃ b, decodeQuads n (c0 :: c1 :: c2 :: c3 :: rest) = .bytes b) ↔
      (∃ bs, decQuad rest.isEmpty c0 c1 c2 c3 = .ok bs) ∧
        ∃ b, decodeQuads (n + 1) rest = .bytes b := by
  simp only [decodeQuads_bytes_iff]
  constructor
  · rintro ⟨_, bs, bs', hq, hrest, -⟩
    exact ⟨⟨bs, hq⟩, bs', hrest⟩
  · rintro ⟨⟨bs, hq⟩, bs', hrest⟩
    exact ⟨_, bs, bs', hq, hrest, rfl⟩

/-- Checked discarded bits alone decide whether a quad is accepted. -/
theorem exists_checked_eq_ok_iff {p : Prop} [Decidable p] {bs : List Byte} {c : Cause} :
    (∃ bs', (if p then QuadResult.ok bs else .reject c) = .ok bs') ↔ p := by
  by_cases hp : p <;> simp [hp]

/-- Quads of data characters and then padding are accepted for their discarded bits alone. -/
theorem decodeQuads_data_padding_iff {k : Nat} (hk : k ≤ 2) : ∀ {n : Nat} {d : List Idx},
    (d.length + k) % 4 = 0 →
    ((∃ b, decodeQuads n (d.map alphabet ++ List.replicate k padChar) = .bytes b) ↔
      ∀ v ∈ d.getLast?, DiscardedBitsZero k v)
  | n, v0 :: v1 :: v2 :: v3 :: d, hlen => by
    have hrest : (d.length + k) % 4 = 0 := by simp only [List.length_cons] at hlen; omega
    have hquad (final : Bool) : ∃ bs, decQuad final (alphabet v0) (alphabet v1) (alphabet v2)
        (alphabet v3) = .ok bs := by
      simp only [decQuad, rev_alphabet]
      exact ⟨_, rfl⟩
    have hlast : (∀ v ∈ (v0 :: v1 :: v2 :: v3 :: d).getLast?, DiscardedBitsZero k v) ↔
        ∀ v ∈ d.getLast?, DiscardedBitsZero k v := by
      cases d with
      | nil =>
        obtain rfl : k = 0 := by simp only [List.length_nil] at hrest; omega
        simp
      | cons v d => simp only [List.getLast?_cons_cons]
    rw [hlast, ← decodeQuads_data_padding_iff hk (n := n + 1) hrest]
    exact decodeQuads_accepts_iff.trans (and_iff_right (hquad _))
  | n, [v0, v1, v2], hlen => by
    obtain rfl : k = 1 := by simp only [List.length_cons, List.length_nil] at hlen; omega
    refine decodeQuads_accepts_iff.trans ?_
    simp [decQuad, rev_alphabet, quadBytes3_eq, exists_checked_eq_ok_iff, decodeQuads]
  | n, [v0, v1], hlen => by
    obtain rfl : k = 2 := by simp only [List.length_cons, List.length_nil] at hlen; omega
    refine decodeQuads_accepts_iff.trans ?_
    simp [decQuad, rev_alphabet, quadBytes2_eq, exists_checked_eq_ok_iff, decodeQuads]
  | n, [_], hlen => by simp only [List.length_cons, List.length_nil] at hlen; omega
  | n, [], hlen => by
    obtain rfl : k = 0 := by simp only [List.length_nil] at hlen; omega
    simp [decodeQuads]

/-- Data characters are the alphabet's. -/
theorem exists_map_alphabet_eq {body : List Byte} (h : ∀ c ∈ body, ∃ v, rev c = .D v) :
    ∃ d : List Idx, d.map alphabet = body := by
  change body ∈ Set.range (List.map alphabet)
  rw [Set.range_list_map]
  exact fun c hc => have ⟨v, hv⟩ := h c hc; ⟨v, alphabet_of_rev hv⟩

theorem getLast?_map_alphabet_iff {d : List Idx} {v : Idx} :
    (d.map alphabet).getLast? = some (alphabet v) ↔ d.getLast? = some v := by
  rw [List.getLast?_map]
  exact (Option.map_injective alphabet_injective).eq_iff (b := some v)

/-- Settles O13: an accepted text is an encoding, so data and padding, and such a text is accepted
for its discarded bits alone. -/
theorem wholeTextValidation : Obligations.WholeTextValidation := by
  intro t
  constructor
  · rintro ⟨b, h⟩
    obtain ⟨hlen, -, -⟩ := b64Decode_bytes h
    obtain ⟨d, hd⟩ := b64Encode_eq_data_append_padding b
    rw [← b64Decode_eq_bytes_iff.1 h] at hd
    have hk : (3 - b.length % 3) % 3 ≤ 2 := by omega
    rw [b64Decode_of_length hlen, hd] at h
    have hlast := (decodeQuads_data_padding_iff hk (by simpa [hd] using hlen)).1 ⟨b, h⟩
    refine ⟨hlen, d.map alphabet, _, hk, hd, fun c hc => ?_, fun c v hc hv => ?_⟩
    · obtain ⟨v, -, rfl⟩ := List.mem_map.1 hc
      exact ⟨v, rev_alphabet v⟩
    · rw [← alphabet_of_rev hv, getLast?_map_alphabet_iff] at hc
      exact hlast v hc
  · rintro ⟨hlen, body, k, hk, rfl, hdata, hlast⟩
    obtain ⟨d, rfl⟩ := exists_map_alphabet_eq hdata
    rw [b64Decode_of_length hlen]
    exact (decodeQuads_data_padding_iff hk (by simpa using hlen)).2 fun v hv =>
      hlast (alphabet v) v (getLast?_map_alphabet_iff.2 hv) (rev_alphabet v)

end Sys2Proof.Machine

namespace Sys2Proof.Machine

/-! # The sequencer and the host's transactions (42_sequencer_and_host.md) -/

/-! ## The transition that is taken (R190, R191) -/

/-- Settles O33: the oldest coming transition is taken off the list and run. -/
theorem stepRunsTheTransaction : Obligations.StepRunsTheTransaction := by
  intro s w es i hr hi hdec
  rw [step_host hr (by rw [hi]; rfl), decodeHtw_of_decode hdec, hi]
  rfl

section
variable {s : State} {es : List Event} (hr : s.ready = true)
include hr

theorem step_encTurn_cons (hi : s.inbox = .encTurn :: es) :
    step s = encTurn runWord (s.withInbox es) := by
  rw [step_encTurn hr ((encTurnNext_cons hi).2 rfl), hi]
  rfl

theorem step_decTurn_cons (hi : s.inbox = .decTurn :: es) :
    step s = decTurn runWord (s.withInbox es) := by
  rw [step_decTurn hr ((decTurnNext_cons hi).2 rfl), hi]
  rfl

theorem step_encTurn_nil (hi : s.inbox = []) (hb : s.enc.st = .busy) :
    step s = encTurn runWord (s.withInbox []) := by
  rw [step_encTurn hr (.inr ⟨hi, hb⟩), hi]
  rfl

theorem step_decTurn_nil (hi : s.inbox = []) (hb : s.enc.st ≠ .busy) :
    step s = decTurn runWord (s.withInbox []) := by
  rw [step_decTurn hr (.inr ⟨hi, hb⟩), hi]
  rfl

end

/-- Settles O40: the turn of a unit that is not BUSY answers its own state, and with nothing listed
a step is the turn that would be listed. -/
theorem onlyBusyUnitsStep : Obligations.OnlyBusyUnitsStep := by
  intro s es hr
  refine ⟨fun hi hb => ?_, fun hi hb => ?_, fun hi he hd => ?_, fun hi hb => ?_,
    fun hi he _ => ?_⟩
  · exact (step_encTurn_cons hr hi).trans (encTurn_not_busy hb)
  · exact (step_decTurn_cons hr hi).trans (decTurn_not_busy hb)
  · rw [step_decTurn_nil hr hi he, ← hi, State.withInbox_self, decTurn_not_busy hd]
  · rw [step_encTurn_nil hr hi hb, step_encTurn_cons (s := s.withInbox [.encTurn]) hr rfl]
    rfl
  · rw [step_decTurn_nil hr hi he, step_decTurn_cons (s := s.withInbox [.decTurn]) hr rfl]
    rfl

/-! ## The turns that run no word (R194, R195, R198, R199) -/

/-- Settles O39: the state alone selects the turn, and each turn's next state is an update of its
unit. -/
theorem stepsSelectedByStateAlone : Obligations.StepsSelectedByStateAlone := by
  intro s es hr
  refine ⟨fun hi hb hg => (step_encTurn_cons hr hi).trans (encTurn_end hb hg.not_lt),
    fun hi hb => ?_⟩
  rw [step_decTurn_cons hr hi]
  have lchk := decTurn_lenchk (s := s.withInbox es) hb
  refine ⟨fun hp hm => ?_, fun hp hm => ?_, fun hp hg => ?_, fun hp hg => ?_⟩
  · exact (lchk hp).trans (congrArg _ (decLchk_badLen hm))
  · exact (lchk hp).trans (congrArg _ (decLchk_lengthOk hm))
  · exact decTurn_vend hb hp hg.not_lt
  · exact decTurn_dend hb hp hg.not_lt

/-! ## DEC.VSTEP (R196) -/

/-- Settles O37: the turn is the quad operation, and `finishValidate` of what DecQuad answers moves
GP or raises. -/
theorem validateStepFollowsDecQuad : Obligations.ValidateStepFollowsDecQuad := by
  intro s es c0 c1 c2 c3 hr hi hb hp hg hread
  have hpre : decStepPre ((s.withInbox es).withDec (decLatched s.dec c0 c1 c2 c3)).dec :=
    ⟨hb, by simp [decLatched, hp], hg⟩
  have hstep := (step_finishQuad hr hi hb (by simp [hp]) hg hread).trans
    (finishQuad_validate hpre hp _)
  rw [hstep, quadCount]
  cases decQuad (decide (s.dec.gp = s.dec.ilen / 4 - 1)) c0 c1 c2 c3 with
  | ok bs => exact ⟨_, rfl, rfl, rfl, rfl, rfl⟩
  | reject c => exact ⟨_, rfl, rfl, rfl, rfl, rfl⟩

/-! ## Commands (R201, R202, R204, R215) -/

/-- Settles O20: a START is a write that a BUSY unit ignores. -/
theorem startCommands : Obligations.StartCommands := fun _ =>
  ⟨exec_of_busy (i := .encStart) rfl, exec_encStart, exec_of_busy (i := .decStart) rfl,
    exec_decStart⟩

theorem exec_htRsvd (w : BitVec 64) (s : State) :
    exec (.htRsvd w) s = .next (reserved (decide (htwRw w = 1)) s) := rfl

/-- Settles O21: `rw` says whether the reserved transaction is acknowledged or answered 0. -/
theorem nopAndReservedChangeNothing : Obligations.NopAndReservedChangeNothing := by
  intro u w s
  refine ⟨rfl, fun hw => ?_, fun hw => ?_⟩
  · rw [exec_htRsvd, hw]
    rfl
  · rw [exec_htRsvd, hw]
    rfl

/-! ## Register reads (R209 to R211, R214) -/

theorem toNat_zext32_of_lt {n : Nat} (h : n < 2 ^ 32) : (zext32 n).toNat = n := Nat.mod_eq_of_lt h

theorem exec_rdOlen (u : UnitId) (s : State) :
    exec (.rdOlen u) s = .next (answerUnlessBusy u (zext32 (olenOf u s)) s) := rfl

theorem exec_rdGp (u : UnitId) (s : State) :
    exec (.rdGp u) s = .next (answerUnlessBusy u (zext32 (gpOf u s)) s) := rfl

/-- Settles O18: the exact reads answer `zext32` of the register; of a BUSY unit OLEN and GP are
answered the next free value. -/
theorem registerReads : Obligations.RegisterReads := by
  intro u s
  refine ⟨rfl, ⟨_, rfl, toNat_zext32_of_lt⟩, fun hb => ?_, fun hb => ?_⟩
  · rw [exec_rdOlen, exec_rdGp, answerUnlessBusy_of_not_busy hb, answerUnlessBusy_of_not_busy hb]
    exact ⟨⟨_, rfl, toNat_zext32_of_lt⟩, ⟨_, rfl, toNat_zext32_of_lt⟩⟩
  · rw [exec_rdOlen, exec_rdGp, answerUnlessBusy_of_busy hb, answerUnlessBusy_of_busy hb]
    have hfree := onlyAnswered_answerFree s
    exact ⟨⟨_, _, rfl, rfl, hfree⟩, ⟨_, _, rfl, rfl, hfree⟩⟩

/-! ## Cell reads (R206, R207) -/

theorem answerCell_of_read {u : UnitId} {m : Memory} {a : Nat} {s : State} {b : Byte}
    (hb : stOf u s ≠ .busy) (hread : m.read a = some b) :
    answerCell u m a s = answer (b.setWidth 32) s := by
  rw [answerCell, hread]
  exact answerUnlessBusy_of_not_busy hb _

/-- A cell read answers some value, the cell's where one is specified. -/
theorem answerCell_answers (u : UnitId) (m : Memory) (a : Nat) (s : State) :
    ∃ v, (answerCell u m a s).resp = some v ∧ onlyAnswered s (answerCell u m a s) ∧
      ∀ b, stOf u s ≠ .busy → m.read a = some b → v.toNat = b.toNat := by
  obtain ⟨v, hv⟩ := Option.isSome_iff_exists.1 (answerCell_resp_isSome u s m a)
  refine ⟨v, hv, onlyAnswered_answerCell u m a s, fun b hb hread => ?_⟩
  rw [answerCell_of_read hb hread, answer_resp, Option.some.injEq] at hv
  rw [← hv, BitVec.toNat_setWidth_of_le (by decide)]

/-- Settles O19: in range a cell is answered, out of range the read is reserved. -/
theorem cellReads : Obligations.CellReads := by
  intro u a s
  refine ⟨fun ha => ?_, fun ha => ?_, fun ha => ?_, fun ha => ?_⟩
  · obtain ⟨v, hv⟩ := answerCell_answers u (ibufOf u s) a.toNat s
    exact ⟨_, v, if_pos ha, hv⟩
  · obtain ⟨v, hv⟩ := answerCell_answers u (obufOf u s) a.toNat s
    exact ⟨_, v, if_pos ha, hv⟩
  · exact if_neg ha.not_gt
  · exact if_neg ha.not_gt

/-! ## LOAD (R216) -/

/-- Settles O58: the lines of LOAD end in `loaded`, which differs from the first state in IBUF and
ILEN of the unit alone. -/
theorem loadPlacesTheMessage : Obligations.LoadPlacesTheMessage := by
  intro u m s hl hr hb hfit
  have hload := issueAll_macroLoad u [] hl hr hb hfit
  rw [List.append_nil] at hload
  have hm := messageIs_loaded u m s
  refine ⟨_, hload, ?_⟩
  cases u with
  | enc | dec => exact ⟨hm, rfl, rfl, rfl, rfl, rfl, rfl⟩

end Sys2Proof.Machine

namespace Sys2Proof.Machine

/-! # Before the first reset (70_reset_and_hazards.md R252) -/

/-- Settles O44: `step_before_reset` refuses every other transition, and the first reset empties
every buffer. -/
theorem nothingRunsBeforeTheFirstReset : Obligations.NothingRunsBeforeTheFirstReset := by
  refine ⟨fun s => step_before_reset, fun s es hr hi => ?_⟩
  have hreset : s.inbox.head? = some .reset := by rw [hi]; rfl
  refine ⟨_, step_reset hreset, rfl, fun a => ?_⟩
  simp [hr]

end Sys2Proof.Machine
